-- ==== Sys2Proof/Word.lean ====
section
/-! DEFINITION. The word types of the TAD block: every register and cell is one 16-bit word (R4, R10), a command is one
80-bit word (R60), a result is 32 bits wide (R64), and a byte is only the unit of the byte view of R42. -/

namespace Sys2Proof

/-- A register, a cell, an operand field: 16 bits (R4, R10, R61). -/
abbrev Word := BitVec 16

/-- Half of a word in the byte view of R42. -/
abbrev Byte := BitVec 8

/-- One command word: `op p q r s`, `op` in the high bits (R60). -/
abbrev CommandWord := BitVec 80

/-- A 32-bit quantity: a response's result (R64) or an address in 16-bit units (R48). -/
abbrev Wide := BitVec 32

end Sys2Proof
end

