-- ==== Sys2Proof/Config.lean ====
section
/-! DEFINITION. The record of the parameters a model takes as an argument (R5), and the free values the spec leaves open
(`ResetDraw`, `EnvRead`, `CommitOrder`, the window of a COMMIT). The default VALUES of the parameters stand in
Machine/Params.lean. The constants of R4 (4 backgrounds, 128 entries, 32 affine entries, 512 shadow words, 32768 map
entries), which are no parameters, stand as numerals in the types that use them. -/

namespace Sys2Proof

/-- The place of one packed field in a word: a row of the `Layout` parameter (R5). -/
structure Field where
  shift : Nat
  width : Nat
  deriving DecidableEq, Repr

/-- `Layout.DISPCNT` (R11); orientation only, no command reads it. -/
structure DispcntLayout where
  mode : Field
  bg0on : Field
  bg1on : Field
  bg2on : Field
  bg3on : Field
  objon : Field
  deriving DecidableEq, Repr

/-- `Layout.BGCNT` (R12). -/
structure BgcntLayout where
  prio : Field
  tbank : Field
  cdepth : Field
  sbb : Field
  size : Field
  deriving DecidableEq, Repr

/-- `Layout.ATTR0` (R15). -/
structure Attr0Layout where
  y : Field
  dmode : Field
  gmode : Field
  mosaic : Field
  cdepth : Field
  shape : Field
  deriving DecidableEq, Repr

/-- `Layout.ATTR1` (R15). -/
structure Attr1Layout where
  x : Field
  affidx : Field
  hflip : Field
  vflip : Field
  size : Field
  deriving DecidableEq, Repr

/-- `Layout.ATTR2` (R15). -/
structure Attr2Layout where
  tile : Field
  prio : Field
  palbank : Field
  deriving DecidableEq, Repr

/-- `Layout.SCREENENTRY` (R20). -/
structure EntryLayout where
  tile : Field
  hflip : Field
  vflip : Field
  palbank : Field
  deriving DecidableEq, Repr

/-- The `Layout` parameter: the (shift, width) of every packed field (R5). -/
structure Layout where
  dispcnt : DispcntLayout
  bgcnt : BgcntLayout
  attr0 : Attr0Layout
  attr1 : Attr1Layout
  attr2 : Attr2Layout
  entry : EntryLayout
  deriving DecidableEq, Repr

/-- The closed enumeration of background sizes, in tiles, width by height (R13). -/
inductive BgSize where
  | s32x32
  | s64x32
  | s32x64
  | s64x64
  deriving DecidableEq, Repr

/-- The parameters of the block (R5). A meaning takes the record as an argument, so that another value is put in without
touching a rule. `CommitOrder` and `ResetDraw`, the two open parameters, are the free values below. -/
structure Params where
  /-- The (shift, width) of every packed field. -/
  layout : Layout
  /-- `SizeCode`: the size each 2-bit code names. -/
  sizeCode : Vector BgSize 4
  /-- `TILEMAP_BASE`, the address of tile-map entry 0 in 16-bit units. -/
  tilemapBase : Nat
  /-- `OAM_BASE`, the address of hardware object attribute word 0 in 16-bit units. -/
  oamBase : Nat
  /-- `EXT_N`, the number of external cells. -/
  extN : Nat
  deriving DecidableEq, Repr

/-- `ResetDraw` for `DISPCNT`: its value after the reset with the given draw number (R25, U5). Free: any value. -/
opaque Config.resetDispcnt : Nat → Word

/-- `ResetDraw` for `BGCNT[n]` (R25, U5). Free: any value. -/
opaque Config.resetBgcnt : Nat → Fin 4 → Word

/-- `ResetDraw` for `MAP` and `OAM`: the byte at an address of their byte view after the reset with the given draw number
(R25, R42, U5). Free: any value, the same until the byte is written. -/
opaque Config.resetByte : Nat → Nat → Byte

/-- `oam_safe` right after a reset: the environment decides it (R26, R136). Free: any value. -/
opaque Config.resetOamSafe : Nat → Bool

/-- `EnvRead(k)` at the read with the given draw number (R23, U7). Free: a fresh value at each read. -/
opaque Config.envRead : Nat → Nat → Word

/-- What the environment does with the zeros of a write to external cell `k`, the write with the given draw number: the
register bits it keeps under them (R23). Free: any value. -/
opaque Config.envKeep : Nat → Nat → Word

/-- `CommitOrder`: the order in which the COMMIT with the given draw number makes its 512 writes; the `j`-th write goes to
word `commitOrder n j` (R135, U11). Free: any permutation. -/
opaque Config.commitOrder : Nat → Equiv.Perm (Fin 512)

/-- Whether `oam_safe` keeps its value through the COMMIT with the given draw number: the window may end inside it (R136,
R197, U18, D21). Free: a claim takes it as a premise (`CommitInWindow` of Safety.lean). -/
opaque Config.windowHolds : Nat → Bool

/-- `oam_safe` at the response of the COMMIT with the given draw number, where it did not keep its value. Free. -/
opaque Config.oamSafeAfter : Nat → Bool

end Sys2Proof
end

