-- ==== Sys2Proof/Syntax.lean ====
section
/-! DEFINITION. The commands of the TAD block, one constructor per row of the opcode map (R62), each operand the 16-bit
unsigned value of its field (R61), and the cells a selector can name (R41). -/

namespace Sys2Proof

/-- One command; the constructor's arguments are its operands in the order `p, q, r, s` (R61, R62). -/
inductive Instr where
  | setbits (sel value width shift : Word)
  | rdcell (sel : Word)
  | wrcell (sel value : Word)
  | dispset (value : Word)
  | bgprio (bg value : Word)
  | bgtbank (bg value : Word)
  | bgcdepth (bg value : Word)
  | bgsize (bg value : Word)
  | bgsbb (bg value : Word)
  | bgsbbu (bg value : Word)
  | rblk (size x y : Word)
  | roff (x y : Word)
  | encse (tileId hflip vflip paletteBank : Word)
  | taddr (bg x y : Word)
  | mapwr (bg x y entry : Word)
  | objpos (idx x y : Word)
  | objmode (idx value : Word)
  | objgfx (idx value : Word)
  | objmosaic (idx flag : Word)
  | objcdepth (idx flag : Word)
  | objshape (idx value : Word)
  | objsize (idx value : Word)
  | objaffidx (idx value : Word)
  | objhflip (idx flag : Word)
  | objvflip (idx flag : Word)
  | objtile (idx value : Word)
  | objprio (idx value : Word)
  | objpal (idx value : Word)
  | affset (n k value : Word)
  | commit
  deriving DecidableEq, Repr

/-- A 16-bit location the BitField unit can address (R41, Glossary "Cell"); how many external cells there are is the
parameter `EXT_N` (R5). -/
inductive Cell where
  | shadow (i : Fin 512)
  | dispcnt
  | bgcnt (n : Fin 4)
  | ext (k : Nat)
  deriving DecidableEq, Repr

end Sys2Proof
end

