-- ==== Sys2Proof/WellFormed.lean ====
section
/-! DEFINITION. Well-formed commands: every operand that selects an element is in its range, the check of R63 step 4. No
other operand has a range check at that step. -/

namespace Sys2Proof

/-- `sel` names a cell of the selector map (R41); the external cells are `EXT_N` (R5). -/
def selectorNamesCell (P : Params) (sel : Word) : Bool :=
  sel.toNat ≤ 0x01FF || sel.toNat == 0x0200 || (0x0201 ≤ sel.toNat && sel.toNat ≤ 0x0204) ||
    (0x0210 ≤ sel.toNat && sel.toNat < 0x0210 + P.extN)

/-- `bg` is in 0..3. -/
def bgInRange (bg : Word) : Bool := bg.toNat < 4

/-- `idx` is in 0..127. -/
def objInRange (idx : Word) : Bool := idx.toNat < 128

/-- `n` of AFFSET is in 0..31. -/
def affInRange (n : Word) : Bool := n.toNat < 32

/-- `k` of AFFSET is in 0..3. -/
def coeffInRange (k : Word) : Bool := k.toNat < 4

/-- The check of R63 step 4, command by command. -/
def Instr.wellFormed (P : Params) : Instr → Bool
  | .setbits sel _ _ _ => selectorNamesCell P sel
  | .rdcell sel => selectorNamesCell P sel
  | .wrcell sel _ => selectorNamesCell P sel
  | .dispset _ => true
  | .bgprio bg _ => bgInRange bg
  | .bgtbank bg _ => bgInRange bg
  | .bgcdepth bg _ => bgInRange bg
  | .bgsize bg _ => bgInRange bg
  | .bgsbb bg _ => bgInRange bg
  | .bgsbbu bg _ => bgInRange bg
  | .rblk _ _ _ => true
  | .roff _ _ => true
  | .encse _ _ _ _ => true
  | .taddr bg _ _ => bgInRange bg
  | .mapwr bg _ _ _ => bgInRange bg
  | .objpos idx _ _ => objInRange idx
  | .objmode idx _ => objInRange idx
  | .objgfx idx _ => objInRange idx
  | .objmosaic idx _ => objInRange idx
  | .objcdepth idx _ => objInRange idx
  | .objshape idx _ => objInRange idx
  | .objsize idx _ => objInRange idx
  | .objaffidx idx _ => objInRange idx
  | .objhflip idx _ => objInRange idx
  | .objvflip idx _ => objInRange idx
  | .objtile idx _ => objInRange idx
  | .objprio idx _ => objInRange idx
  | .objpal idx _ => objInRange idx
  | .affset n k _ => affInRange n && coeffInRange k
  | .commit => true

end Sys2Proof
end

