-- ==== Sys2Proof/Decode.lean ====
section
/-! DEFINITION. Decoding and encoding of the 80-bit command word (R60 to R67). `decode` makes the checks of R63 steps 2
and 3 and reads the operands; the selector ranges of step 4 are checked when the command runs (Machine/Ops.lean,
`begin`), so that `decode` and `encode` are inverse to each other on every command (decision D4). -/

namespace Sys2Proof

/-- Why a command word is no command: the checks of R63 steps 2 and 3, in their order. -/
inductive DecodeError where
  /-- `op[15:8]` is not 0 (R63 step 2, R66). -/
  | highOpByte
  /-- `op[7:0]` is not in the opcode map (R63 step 2, R66). -/
  | unknownOpcode
  /-- A field the command's format does not use is not zero (R63 step 3, R66). -/
  | reservedField
  deriving DecidableEq, Repr

/-- `op`, bits [79:64] (R60). -/
def fieldOp (w : CommandWord) : Word := w.extractLsb' 64 16
/-- `p`, bits [63:48] (R60). -/
def fieldP (w : CommandWord) : Word := w.extractLsb' 48 16
/-- `q`, bits [47:32] (R60). -/
def fieldQ (w : CommandWord) : Word := w.extractLsb' 32 16
/-- `r`, bits [31:16] (R60). -/
def fieldR (w : CommandWord) : Word := w.extractLsb' 16 16
/-- `s`, bits [15:0] (R60). -/
def fieldS (w : CommandWord) : Word := w.extractLsb' 0 16

/-- Format F0: no operand, all four fields reserved (R61, R63 step 3). -/
def formatF0 (w : CommandWord) (i : Instr) : Except DecodeError Instr :=
  if fieldP w = 0 ∧ fieldQ w = 0 ∧ fieldR w = 0 ∧ fieldS w = 0 then .ok i else .error .reservedField

/-- Format F1: the operand `p`. -/
def formatF1 (w : CommandWord) (f : Word → Instr) : Except DecodeError Instr :=
  if fieldQ w = 0 ∧ fieldR w = 0 ∧ fieldS w = 0 then .ok (f (fieldP w)) else .error .reservedField

/-- Format F2: the operands `p`, `q`. -/
def formatF2 (w : CommandWord) (f : Word → Word → Instr) : Except DecodeError Instr :=
  if fieldR w = 0 ∧ fieldS w = 0 then .ok (f (fieldP w) (fieldQ w)) else .error .reservedField

/-- Format F3: the operands `p`, `q`, `r`. -/
def formatF3 (w : CommandWord) (f : Word → Word → Word → Instr) : Except DecodeError Instr :=
  if fieldS w = 0 then .ok (f (fieldP w) (fieldQ w) (fieldR w)) else .error .reservedField

/-- Format F4: all four operands, nothing reserved. -/
def formatF4 (w : CommandWord) (f : Word → Word → Word → Word → Instr) : Except DecodeError Instr :=
  .ok (f (fieldP w) (fieldQ w) (fieldR w) (fieldS w))

/-- The opcode map (R62) read from `op[7:0]`. -/
def decodeOpcode (w : CommandWord) (opcode : Nat) : Except DecodeError Instr :=
  match opcode with
  | 0x01 => formatF4 w .setbits
  | 0x02 => formatF1 w .rdcell
  | 0x03 => formatF2 w .wrcell
  | 0x10 => formatF1 w .dispset
  | 0x11 => formatF2 w .bgprio
  | 0x12 => formatF2 w .bgtbank
  | 0x13 => formatF2 w .bgcdepth
  | 0x14 => formatF2 w .bgsize
  | 0x15 => formatF2 w .bgsbb
  | 0x16 => formatF2 w .bgsbbu
  | 0x20 => formatF3 w .rblk
  | 0x21 => formatF2 w .roff
  | 0x22 => formatF4 w .encse
  | 0x23 => formatF3 w .taddr
  | 0x24 => formatF4 w .mapwr
  | 0x30 => formatF3 w .objpos
  | 0x31 => formatF2 w .objmode
  | 0x32 => formatF2 w .objgfx
  | 0x33 => formatF2 w .objmosaic
  | 0x34 => formatF2 w .objcdepth
  | 0x35 => formatF2 w .objshape
  | 0x36 => formatF2 w .objsize
  | 0x37 => formatF2 w .objaffidx
  | 0x38 => formatF2 w .objhflip
  | 0x39 => formatF2 w .objvflip
  | 0x3A => formatF2 w .objtile
  | 0x3B => formatF2 w .objprio
  | 0x3C => formatF2 w .objpal
  | 0x3D => formatF3 w .affset
  | 0x3E => formatF0 w .commit
  | _ => .error .unknownOpcode

/-- Decoding: R63 steps 2 and 3, in that order. Total on every 80-bit word. -/
def decode (w : CommandWord) : Except DecodeError Instr :=
  if (fieldOp w).extractLsb' 8 8 ≠ 0 then .error .highOpByte
  else decodeOpcode w ((fieldOp w).extractLsb' 0 8).toNat

/-- The five fields put together, `op` most significant (R60). -/
def pack (op p q r s : Word) : CommandWord := op ++ p ++ q ++ r ++ s

/-- The command word of a command: its opcode, its operands in order, zeros in the reserved fields (R60 to R62). -/
def encode : Instr → CommandWord
  | .setbits sel value width shift => pack 0x0001 sel value width shift
  | .rdcell sel => pack 0x0002 sel 0 0 0
  | .wrcell sel value => pack 0x0003 sel value 0 0
  | .dispset value => pack 0x0010 value 0 0 0
  | .bgprio bg value => pack 0x0011 bg value 0 0
  | .bgtbank bg value => pack 0x0012 bg value 0 0
  | .bgcdepth bg value => pack 0x0013 bg value 0 0
  | .bgsize bg value => pack 0x0014 bg value 0 0
  | .bgsbb bg value => pack 0x0015 bg value 0 0
  | .bgsbbu bg value => pack 0x0016 bg value 0 0
  | .rblk size x y => pack 0x0020 size x y 0
  | .roff x y => pack 0x0021 x y 0 0
  | .encse tileId hflip vflip paletteBank => pack 0x0022 tileId hflip vflip paletteBank
  | .taddr bg x y => pack 0x0023 bg x y 0
  | .mapwr bg x y entry => pack 0x0024 bg x y entry
  | .objpos idx x y => pack 0x0030 idx x y 0
  | .objmode idx value => pack 0x0031 idx value 0 0
  | .objgfx idx value => pack 0x0032 idx value 0 0
  | .objmosaic idx flag => pack 0x0033 idx flag 0 0
  | .objcdepth idx flag => pack 0x0034 idx flag 0 0
  | .objshape idx value => pack 0x0035 idx value 0 0
  | .objsize idx value => pack 0x0036 idx value 0 0
  | .objaffidx idx value => pack 0x0037 idx value 0 0
  | .objhflip idx flag => pack 0x0038 idx flag 0 0
  | .objvflip idx flag => pack 0x0039 idx flag 0 0
  | .objtile idx value => pack 0x003A idx value 0 0
  | .objprio idx value => pack 0x003B idx value 0 0
  | .objpal idx value => pack 0x003C idx value 0 0
  | .affset n k value => pack 0x003D n k value 0
  | .commit => pack 0x003E 0 0 0 0

/-- The mnemonic of a command (R62), the first word of its assembler line (R68). -/
def Instr.mnemonic : Instr → String
  | .setbits _ _ _ _ => "SETBITS"
  | .rdcell _ => "RDCELL"
  | .wrcell _ _ => "WRCELL"
  | .dispset _ => "DISPSET"
  | .bgprio _ _ => "BGPRIO"
  | .bgtbank _ _ => "BGTBANK"
  | .bgcdepth _ _ => "BGCDEPTH"
  | .bgsize _ _ => "BGSIZE"
  | .bgsbb _ _ => "BGSBB"
  | .bgsbbu _ _ => "BGSBBU"
  | .rblk _ _ _ => "RBLK"
  | .roff _ _ => "ROFF"
  | .encse _ _ _ _ => "ENCSE"
  | .taddr _ _ _ => "TADDR"
  | .mapwr _ _ _ _ => "MAPWR"
  | .objpos _ _ _ => "OBJPOS"
  | .objmode _ _ => "OBJMODE"
  | .objgfx _ _ => "OBJGFX"
  | .objmosaic _ _ => "OBJMOSAIC"
  | .objcdepth _ _ => "OBJCDEPTH"
  | .objshape _ _ => "OBJSHAPE"
  | .objsize _ _ => "OBJSIZE"
  | .objaffidx _ _ => "OBJAFFIDX"
  | .objhflip _ _ => "OBJHFLIP"
  | .objvflip _ _ => "OBJVFLIP"
  | .objtile _ _ => "OBJTILE"
  | .objprio _ _ => "OBJPRIO"
  | .objpal _ _ => "OBJPAL"
  | .affset _ _ _ => "AFFSET"
  | .commit => "COMMIT"

/-- The operands of a command in the order `p, q, r, s` (R61, R68). -/
def Instr.operands : Instr → List Word
  | .setbits sel value width shift => [sel, value, width, shift]
  | .rdcell sel => [sel]
  | .wrcell sel value => [sel, value]
  | .dispset value => [value]
  | .bgprio bg value => [bg, value]
  | .bgtbank bg value => [bg, value]
  | .bgcdepth bg value => [bg, value]
  | .bgsize bg value => [bg, value]
  | .bgsbb bg value => [bg, value]
  | .bgsbbu bg value => [bg, value]
  | .rblk size x y => [size, x, y]
  | .roff x y => [x, y]
  | .encse tileId hflip vflip paletteBank => [tileId, hflip, vflip, paletteBank]
  | .taddr bg x y => [bg, x, y]
  | .mapwr bg x y entry => [bg, x, y, entry]
  | .objpos idx x y => [idx, x, y]
  | .objmode idx value => [idx, value]
  | .objgfx idx value => [idx, value]
  | .objmosaic idx flag => [idx, flag]
  | .objcdepth idx flag => [idx, flag]
  | .objshape idx value => [idx, value]
  | .objsize idx value => [idx, value]
  | .objaffidx idx value => [idx, value]
  | .objhflip idx flag => [idx, flag]
  | .objvflip idx flag => [idx, flag]
  | .objtile idx value => [idx, value]
  | .objprio idx value => [idx, value]
  | .objpal idx value => [idx, value]
  | .affset n k value => [n, k, value]
  | .commit => []

/-- The assembler line of a command: its mnemonic, then its operands separated by commas, in decimal (R68). -/
def Instr.asm (i : Instr) : String :=
  match i.operands with
  | [] => i.mnemonic
  | ops => i.mnemonic ++ " " ++ String.intercalate ", " (ops.map fun o => toString o.toNat)

/-- The command the decoder reads from the 80-bit word `w`, numbered as spec/opcode_table.json numbers it (bit 0 the least
significant bit of the command word); bits at or above `nbits` are zero. None where the decoder refuses the word, and for
a number that does not fit the one command length (R67). -/
def decodeTableWord (nbits w : Nat) : Option Instr :=
  if w % 2 ^ nbits < 2 ^ 80 then
    match decode (BitVec.ofNat 80 (w % 2 ^ nbits)) with
    | .ok i => some i
    | .error _ => none
  else none

end Sys2Proof
end

