-- ==== Sys2Proof/Machine/State.lean ====
section
/-! DEFINITION. The state of the machine as plain data: the block's own state (R11 to R21), the two memories it writes
(R18, R19) in the byte view of R42, the environment of 60_exceptions.md part 2, and the model's own bookkeeping (pending
inputs, the record of accesses and responses, the counter behind the free values). -/

namespace Sys2Proof.Machine

open Sys2Proof

/-- The response status (R64). -/
inductive Status where
  /-- Code 0: the command ran to its end. -/
  | ok
  /-- Code 1: BGSBB refused an out-of-range value. -/
  | rejected
  /-- Code 2: the word is no legal command. -/
  | illegal
  /-- Code 3: the block is halted, or this command halted it. -/
  | aborted
  deriving DecidableEq, Repr

/-- The 2-bit code of a status (R64). -/
def Status.code : Status → BitVec 2
  | .ok => 0
  | .rejected => 1
  | .illegal => 2
  | .aborted => 3

/-- One event the model records, in the order it happens (R10, R44, R49, R64; U3, U8). -/
inductive Event where
  /-- One `CellRead`: the cell and the 16 bits read (R80). -/
  | cellRead (c : Cell) (v : Word)
  /-- One `CellWrite`: the cell and the 16 bits written; for an external cell this is `EnvWrite` (R80). -/
  | cellWrite (c : Cell) (v : Word)
  /-- One 16-bit write on the memory port, the address in 16-bit units (R109, R135, R70). -/
  | portWrite (address : Wide) (data : Word)
  /-- The response that ends a command (R64). -/
  | respond (status : Status) (result : Wide)
  /-- `rst` was asserted (R180). -/
  | reset
  deriving DecidableEq, Repr

/-- The interrupt kinds of the environment, in the document's listing order (R163, R164). -/
inductive IrqKind where
  | vblank | hblank | vcount
  | timer0 | timer1 | timer2 | timer3
  | dma0 | dma1 | dma2 | dma3
  | keypad | cartridge
  deriving DecidableEq, Repr

/-- A 16-bit interrupt register, one bit per interrupt kind (R158, R163). -/
abbrev IrqMask := Word

/-- The two states of the InterruptController (R159). -/
inductive InitPhase where
  | uninitialized
  | initialized
  deriving DecidableEq, Repr

/-- What the main program flow of the host does (R165 to R167). -/
inductive Flow where
  /-- It runs, and presents its next command or action. -/
  | running
  /-- It is suspended in the wait primitive until a vblank interrupt is acknowledged (R166). -/
  | waiting
  /-- It hangs: `init()` was skipped, or it waits for an interrupt that is not enabled (R166, R167). Nothing but a reset
  ends this. -/
  | hung
  deriving DecidableEq, Repr

/-- The environment of the block (R24, R158 to R168): not block state. -/
structure Environment where
  /-- Uninitialized or Initialized (R159). -/
  phase : InitPhase
  /-- The fixed slot that holds the address of the installed dispatch routine, write-once at `init()` (R24, R46, R158, R160).
  That it is 32 bits wide is a DESIGN CHOICE (log entry 27: the spec gives no width, N16). -/
  handler : Wide
  /-- The interrupt-enable register: the bitmask of enabled interrupt types, set-only (R158, R159, R161). -/
  enabled : IrqMask
  /-- The display-status register; one bit makes the hardware raise vblank interrupts (R158, R161, R164). -/
  displayStatus : Word
  /-- The master-interrupt-enable register (R158, R162). -/
  masterEnable : Word
  /-- The interrupt-acknowledge register: the interrupts asserted (R158, R163, R164). -/
  asserted : IrqMask
  /-- The BIOS-visible acknowledgment mirror (R158, R163). That it is 16 bits wide, as the masks ORed into it, is a DESIGN
  CHOICE (log entry 27). -/
  mirror : IrqMask
  /-- `oam_safe`: the display hardware is not scanning out the sprite layer (R136). -/
  oamSafe : Bool
  /-- The main program flow (R165 to R167). -/
  flow : Flow
  /-- The dispatch routine at work: the value `fired` it read when it was invoked; none while it does not run. There is one
  at most: it is non-reentrant (R163, R165). -/
  routine : Option IrqMask
  deriving DecidableEq, Repr

/-- What the environment can do between two commands (R159 to R168, R136). -/
inductive EnvAction where
  /-- The main flow calls `init()` with the address of its dispatch routine (R160). -/
  | init (handler : Wide)
  /-- The main flow calls `enableType(kind)` (R161). -/
  | enableType (kind : IrqKind)
  /-- The main flow calls `enableGlobally()` (R162). -/
  | enableGlobally
  /-- The main flow blocks on the wait primitive until the next vblank interrupt is acknowledged (R166). -/
  | waitVblank
  /-- The hardware asserts an interrupt of a kind (R164). -/
  | assertIrq (kind : IrqKind)
  /-- The hardware delivers the pending interrupts: it invokes the dispatch routine, if they reach it (R163, R164). -/
  | dispatch
  /-- The dispatch routine acknowledges what it handled and returns to the main flow (R163, R165). -/
  | dispatchReturn
  /-- The display hardware starts (`safe = false`) or stops (`safe = true`) scanning out the sprite layer (R136). -/
  | scanout (safe : Bool)
  deriving DecidableEq, Repr

/-- One input from outside, taken by one step. -/
inductive Input where
  /-- The main flow presents a command word (R60, R70 `cmd_word`). -/
  | command (w : CommandWord)
  /-- The dispatch routine, handling a vblank interrupt, presents a command word of its own (R49, R165, R168). -/
  | handlerCommand (w : CommandWord)
  /-- The main flow presents a command word and `rst` is asserted while it runs, after that many of its accesses: the block
  drops it without a response (R180). -/
  | commandCut (w : CommandWord) (accesses : Nat)
  /-- The same with a command word of the dispatch routine (R180, R165). -/
  | handlerCommandCut (w : CommandWord) (accesses : Nat)
  /-- `rst` is asserted (R180). -/
  | reset
  /-- The environment acts (60_exceptions.md part 2). -/
  | env (a : EnvAction)
  deriving DecidableEq, Repr

/-- Memory outside the block, in the byte view of R42: the bytes written since reset, addresses strictly rising. A byte
not listed has not been written since reset; what it holds is the reset draw (`State.byteAt`, R25). -/
abbrev Memory := List Host.Cell

/-- The canonical form of a memory: addresses strictly rising (and so no address twice). -/
abbrev Memory.wf (m : Memory) : Prop := m.Pairwise (fun a b => a.1 < b.1)

/-- The state of the machine. -/
structure State where
  /-- `SHADOW[0..511]` (R14), which is also the affine view (R16). -/
  shadow : Vector Word 512
  /-- `DISPCNT` (R11). -/
  dispcnt : Word
  /-- `BGCNT[0..3]` (R12). -/
  bgcnt : Vector Word 4
  /-- `HALT` (R21). -/
  halt : Bool
  /-- `MAP` (R19) and `OAM` (R18), at their byte addresses (R42, R48). -/
  mem : Memory
  /-- The environment (R24); not the block's. -/
  env : Environment
  /-- The model's own: the inputs still to come, next first. -/
  inputs : List Input
  /-- The model's own: the events so far, latest first. -/
  trace : List Event
  /-- The model's own: the number of the next free draw (`ResetDraw`, `EnvRead`, `CommitOrder`). -/
  draws : Nat
  /-- The model's own: the number of the draw the last reset made, which fixes what unwritten memory holds (R25). -/
  resetDraw : Nat
  deriving DecidableEq, Repr

/-- Why the machine stops. It never does: every command ends with a response (R65), and a hang of the environment is a run
that never ends, not a stop (R167). So there is no fault. -/
inductive Fault where
  deriving DecidableEq, Repr

/-- Why a command has no meaning. -/
inductive Refusal where
  /-- The command is not modelled yet. Raised by an arm of `exec` only; safe. Every command is modelled, so none does. -/
  | notModelled (mnemonic : String)
  deriving DecidableEq, Repr

/-- What a step ends in. -/
abbrev Result := Host.Outcome State Fault Refusal

/-- The environment after reset (R25, R159, R180): Uninitialized. The enabled mask "has no bit the program has set" (R25); that
it is zero is a DESIGN CHOICE (log entry 8: "the numeric mask value is not in source"). The other registers are zero, the main
flow runs, and a dispatch routine at work when `rst` is asserted is ended (`routine := none`): DESIGN CHOICE, log entry 8, the
spec says nothing of either. `oamSafe` is free. -/
def Environment.afterReset (draw : Nat) : Environment where
  phase := .uninitialized
  handler := 0
  enabled := 0
  displayStatus := 0
  masterEnable := 0
  asserted := 0
  mirror := 0
  oamSafe := Config.resetOamSafe draw
  flow := .running
  routine := none

/-- The state after the reset with the given draw number (R25, R180): `SHADOW` zero, `HALT` clear, `DISPCNT`, `BGCNT`, `OAM`
and `MAP` at the free values of `ResetDraw`. -/
def State.afterReset (draw : Nat) : State where
  shadow := Vector.replicate 512 0
  dispcnt := Config.resetDispcnt draw
  bgcnt := Vector.ofFn (Config.resetBgcnt draw)
  halt := false
  mem := []
  env := Environment.afterReset draw
  inputs := []
  trace := []
  draws := draw + 1
  resetDraw := draw

/-- The machine right after power-on reset (R25, R180). -/
def State.reset : State := State.afterReset 0

end Sys2Proof.Machine
end

