-- ==== Sys2Proof/Machine/Params.lean ====
section
/-! DEFINITION. The default values of the model's parameters (R5): `Layout`, `SizeCode`, `TILEMAP_BASE`, `OAM_BASE`, `EXT_N`.
Most positions and both bases are general knowledge in the spec (93_implementation_defined.md G1 to G5), so a corrected value is
put here and no meaning changes. -/

namespace Sys2Proof.Machine

open Sys2Proof

/-- The default `Layout` (R11, R12, R15, R20). -/
def defaultLayout : Layout where
  dispcnt := {
    mode := ⟨0, 3⟩
    bg0on := ⟨8, 1⟩
    bg1on := ⟨9, 1⟩
    bg2on := ⟨10, 1⟩
    bg3on := ⟨11, 1⟩
    objon := ⟨12, 1⟩ }
  bgcnt := {
    prio := ⟨0, 2⟩
    tbank := ⟨2, 2⟩
    cdepth := ⟨7, 1⟩
    sbb := ⟨8, 5⟩
    size := ⟨14, 2⟩ }
  attr0 := {
    y := ⟨0, 8⟩
    dmode := ⟨8, 2⟩
    gmode := ⟨10, 2⟩
    mosaic := ⟨12, 1⟩
    cdepth := ⟨13, 1⟩
    shape := ⟨14, 2⟩ }
  attr1 := {
    x := ⟨0, 9⟩
    affidx := ⟨9, 5⟩
    hflip := ⟨12, 1⟩
    vflip := ⟨13, 1⟩
    size := ⟨14, 2⟩ }
  attr2 := {
    tile := ⟨0, 10⟩
    prio := ⟨10, 2⟩
    palbank := ⟨12, 4⟩ }
  entry := {
    tile := ⟨0, 10⟩
    hflip := ⟨10, 1⟩
    vflip := ⟨11, 1⟩
    palbank := ⟨12, 4⟩ }

/-- The default parameters (R5): the layout above, the size codes in the document's listing order (R13, D11), the bases in
16-bit units (R48), sixteen external cells (D9). -/
def params : Params where
  layout := defaultLayout
  sizeCode := #v[.s32x32, .s64x32, .s32x64, .s64x64]
  tilemapBase := 0x03000000
  oamBase := 0x03800000
  extN := 16

/-- The size a code names; codes are two bits (R13). -/
def sizeOfCode (P : Params) (code : Nat) : BgSize := P.sizeCode[code % 4]'(Nat.mod_lt _ (by decide))

/-- The number of size codes; a larger size value is outside the closed enumeration (R101, R104). -/
def nSizeCodes : Nat := 4

end Sys2Proof.Machine
end

