-- ==== Sys2Proof/Machine/Arith.lean ====
section
/-! DEFINITION. The pure functions: the field insert `bf` (R84), the extraction of a field, and the resolver's `blk`,
`off`, `enc`, `mapidx` (R101, R102, R103, R107). They read no state; intermediate values are exact naturals (R6). -/

namespace Sys2Proof.Machine

open Sys2Proof

/-- The mask `M` of R84: `trunc_16((2^w - 1) << shift)` with `w = min(width, 16)`. -/
def fieldMask (width shift : Nat) : Word := BitVec.ofNat 16 ((2 ^ min width 16 - 1) <<< shift)

/-- The masked value in place, `V` of R84: `trunc_16((value mod 2^w) << shift)`. -/
def fieldValue (value : Word) (width shift : Nat) : Word :=
  BitVec.ofNat 16 ((value.toNat % 2 ^ min width 16) <<< shift)

/-- The field insert `bf(old, value, width, shift)` (R84); total, also outside the precondition (R86). -/
def bf (old value : Word) (width shift : Nat) : Word :=
  (old &&& ~~~ fieldMask width shift) ||| fieldValue value width shift

/-- The field `v[shift+width-1 : shift]` as an unsigned number (00_scope.md section 4). -/
def getField (f : Field) (v : Word) : Nat := v.toNat / 2 ^ f.shift % 2 ^ f.width

/-- The extent of a background in tiles, width then height (R13, R100). -/
def extent : BgSize → Nat × Nat
  | .s32x32 => (32, 32)
  | .s64x32 => (64, 32)
  | .s32x64 => (32, 64)
  | .s64x64 => (64, 64)

/-- `blocksForSize` (R13). -/
def blocksForSize : BgSize → Nat
  | .s32x32 => 1
  | .s64x32 => 2
  | .s32x64 => 2
  | .s64x64 => 4

/-- `blk`, the block index (R101); no coordinate is masked or checked (R112). -/
def blk : BgSize → Nat → Nat → Nat
  | .s32x32, _, _ => 0
  | .s64x32, x, _ => if x ≥ 32 then 1 else 0
  | .s32x64, _, y => if y ≥ 32 then 1 else 0
  | .s64x64, x, y => x / 32 + 2 * (y / 32)

/-- `off`, the in-block offset (R102). -/
def off (x y : Nat) : Nat := x % 32 + 32 * (y % 32)

/-- `mapidx`, the index of the target entry in the tile-map space (R107). -/
def mapidx (sbb : Nat) (size : BgSize) (x y : Nat) : Nat := 1024 * (sbb + blk size x y) + off x y

/-- `enc`, the screen-entry word (R103), each argument masked to its field of `Layout.SCREENENTRY` and put in place. -/
def enc (P : Params) (tileId hflip vflip paletteBank : Word) : Word :=
  fieldValue tileId P.layout.entry.tile.width P.layout.entry.tile.shift |||
  fieldValue hflip P.layout.entry.hflip.width P.layout.entry.hflip.shift |||
  fieldValue vflip P.layout.entry.vflip.width P.layout.entry.vflip.shift |||
  fieldValue paletteBank P.layout.entry.palbank.width P.layout.entry.palbank.shift

/-- `trunc_32(TILEMAP_BASE + i)`, the address of tile-map entry `i` in 16-bit units (R48). -/
def mapAddress (P : Params) (i : Nat) : Wide := BitVec.ofNat 32 (P.tilemapBase + i)

/-- `trunc_32(OAM_BASE + i)`, the address of hardware object attribute word `i` in 16-bit units (R48). -/
def oamAddress (P : Params) (i : Nat) : Wide := BitVec.ofNat 32 (P.oamBase + i)

end Sys2Proof.Machine
end

