-- ==== Sys2Proof/Machine/Operands.lean ====
section
/-! DEFINITION. Operand forms: what an element-selecting operand selects, or nothing where it is out of its range (R41,
R63 step 4), and the selectors of the symbolic names (R68). -/

namespace Sys2Proof.Machine

open Sys2Proof

/-- The cell a selector names (R41); none where it names no cell. -/
def cellOf (P : Params) (sel : Word) : Option Cell :=
  if h : sel.toNat < 512 then some (.shadow ⟨sel.toNat, h⟩)
  else if sel.toNat = 0x0200 then some .dispcnt
  else if h : 0x0201 ≤ sel.toNat ∧ sel.toNat - 0x0201 < 4 then some (.bgcnt ⟨sel.toNat - 0x0201, h.2⟩)
  else if 0x0210 ≤ sel.toNat ∧ sel.toNat - 0x0210 < P.extN then some (.ext (sel.toNat - 0x0210))
  else none

/-- The background an operand `bg` selects. -/
def bgOf (bg : Word) : Option (Fin 4) := if h : bg.toNat < 4 then some ⟨bg.toNat, h⟩ else none

/-- The object attribute entry an operand `idx` selects. -/
def objOf (idx : Word) : Option (Fin 128) := if h : idx.toNat < 128 then some ⟨idx.toNat, h⟩ else none

/-- The shadow word that holds coefficient `k` of affine entry `n`: `SHADOW[16n + 4k + 3]` (R16, R134). -/
def affineWord (n : Fin 32) (k : Fin 4) : Fin 512 := ⟨16 * n.val + 4 * k.val + 3, by omega⟩

/-- The shadow word AFFSET's operands `n`, `k` select (R134). -/
def coeffOf (n k : Word) : Option (Fin 512) :=
  if h : n.toNat < 32 ∧ k.toNat < 4 then some (affineWord ⟨n.toNat, h.1⟩ ⟨k.toNat, h.2⟩) else none

/-- Word `w` of object attribute entry `e`: `SHADOW[4e + w]`, `w` being 0 for attr0, 1 for attr1, 2 for attr2, 3 for the
filler (R14). -/
def attrWord (e : Fin 128) (w : Fin 4) : Fin 512 := ⟨4 * e.val + w.val, by omega⟩

/-- The selector that names a cell (R41, and the symbolic names of R68). -/
def selectorOf : Cell → Word
  | .shadow i => BitVec.ofNat 16 i.val
  | .dispcnt => 0x0200
  | .bgcnt n => BitVec.ofNat 16 (0x0201 + n.val)
  | .ext k => BitVec.ofNat 16 (0x0210 + k)

end Sys2Proof.Machine
end

