-- ==== Sys2Proof/Machine/Flags.lean ====
section
/-! DEFINITION. Flags. The block has one status flag, the sticky `HALT` latch (R21): no condition codes, no carry or zero
flag, no sticky error bit. -/

namespace Sys2Proof.Machine

open Sys2Proof

/-- Set the `HALT` latch (R21, R151). -/
def State.setHalt (s : State) : State := { s with halt := true }

end Sys2Proof.Machine
end

