-- ==== Sys2Proof/Machine/Interrupts.lean ====
section
/-! DEFINITION. The interrupt controller's registers and what is done to them (60_exceptions.md part 2). None of it is block
state (R24); a command reaches the four registers only by a write to `EXT[0]` to `EXT[3]` (R23, R158). -/

namespace Sys2Proof.Machine

open Sys2Proof

/-! ### Bits: the numbers are general knowledge in the spec (G7; PRESUMED, log entry 10) -/

/-- The bit of a kind in the interrupt registers (G7); bit 7 is the serial interrupt, which the document leaves out. -/
def IrqKind.index : IrqKind → Nat
  | .vblank => 0
  | .hblank => 1
  | .vcount => 2
  | .timer0 => 3
  | .timer1 => 4
  | .timer2 => 5
  | .timer3 => 6
  | .dma0 => 8
  | .dma1 => 9
  | .dma2 => 10
  | .dma3 => 11
  | .keypad => 12
  | .cartridge => 13

/-- The mask with one kind's bit set. -/
def IrqKind.bit (k : IrqKind) : IrqMask := 1#16 <<< k.index

/-- A kind's bit in a mask. -/
def inMask (m : IrqMask) (k : IrqKind) : Bool := m.getLsbD k.index

/-- The display-status bit that makes the hardware raise vblank interrupts (R161, G7). -/
def vblankStatusBit : Word := 0x0008

/-- The flag bit of the master-interrupt-enable register (R162). -/
def masterBit : Word := 0x0001

namespace Environment

/-- The display-status bit for vblank is set. -/
def vblankRaised (e : Environment) : Bool := e.displayStatus &&& vblankStatusBit != 0

/-- The master interrupt-enable flag is set. -/
def masterOn (e : Environment) : Bool := e.masterEnable &&& masterBit != 0

/-- The vblank interrupt is enabled: its bit is set, the hardware raises it, and the master flag lets it through, as
`enableType(vblank)` and `enableGlobally()` leave it (R161, R162, R164 (a) to (c), R183; log entry 11). -/
def vblankEnabled (e : Environment) : Bool := inMask e.enabled .vblank && e.vblankRaised && e.masterOn

/-- The dispatch routine is at work on a vblank interrupt, the one kind it handles (R163, R168). -/
def handlesVblank (e : Environment) : Bool :=
  match e.routine with
  | none => false
  | some fired => inMask fired .vblank

/-! ### The main flow's calls -/

/-- The main flow hangs (R167): nothing else changes, and nothing of it runs again before a reset. -/
def hang (e : Environment) : Environment := { e with flow := .hung }

/-- `init()`: the address of the dispatch routine goes into the slot, and the state becomes Initialized; one way, and done
once (R159, R160). The slot is write-once, so a second call changes nothing (DESIGN CHOICE, log entry 24). -/
def init (e : Environment) (handler : Wide) : Environment :=
  match e.phase with
  | .uninitialized => { e with phase := .initialized, handler := handler }
  | .initialized => e

/-- `enableType(kind)`: the kind's bit is set, bits are never cleared; for vblank the display-status bit too (R161). Before
`init()` it hangs (R167). -/
def enableType (e : Environment) (k : IrqKind) : Environment :=
  match e.phase with
  | .uninitialized => e.hang
  | .initialized =>
    { e with
      enabled := e.enabled ||| k.bit
      displayStatus := if k = .vblank then e.displayStatus ||| vblankStatusBit else e.displayStatus }

/-- `enableGlobally()`: the master flag is set (R162). Before `init()` it hangs (R167). -/
def enableGlobally (e : Environment) : Environment :=
  match e.phase with
  | .uninitialized => e.hang
  | .initialized => { e with masterEnable := e.masterEnable ||| masterBit }

/-- The wait primitive: the main flow is suspended until a vblank interrupt is acknowledged (R166). "A wait with no enabled,
initialised vblank interrupt" never ends: it hangs (R166, R167). -/
def wait (e : Environment) : Environment :=
  match e.phase with
  | .uninitialized => e.hang
  | .initialized => if e.vblankEnabled then { e with flow := .waiting } else e.hang

/-! ### The hardware -/

/-- The hardware asserts a kind; vblank only when the display-status bit is set (R164 (b)). -/
def assertIrq (e : Environment) (k : IrqKind) : Environment :=
  if k = .vblank ∧ e.vblankRaised = false then e else { e with asserted := e.asserted ||| k.bit }

/-- What the dispatch routine reads first: enabled AND asserted (R163). -/
def fired (e : Environment) : IrqMask := e.enabled &&& e.asserted

/-- The write of a value to the acknowledgment register clears the bits written (PRESUMED, R164, log entry 9). -/
def acknowledge (e : Environment) (v : IrqMask) : Environment := { e with asserted := e.asserted &&& ~~~ v }

/-- A main flow that waits goes on once vblank has been acknowledged; the vertical blank, a safe window, has begun (R136,
R166). -/
def wake (e : Environment) (acknowledged : IrqMask) : Environment :=
  if e.flow = .waiting ∧ inMask acknowledged .vblank = true then { e with flow := .running, oamSafe := true } else e

/-- The hardware delivers what is pending: it invokes the dispatch routine, which reads `fired` first (R163). An interrupt
reaches it only if it is enabled and asserted, the master flag lets it through and `init()` has installed the routine
(R164), and not while it runs: there are no nested interrupts (R165). -/
def dispatch (e : Environment) : Environment :=
  if e.fired = 0 ∨ e.masterOn = false ∨ e.phase = .uninitialized ∨ e.routine ≠ none then e
  else { e with routine := some e.fired }

/-- The end of the dispatch routine (R163): it writes `fired`, the value read at its start, to the acknowledgment register and
ORs it into the mirror, which the wait primitive observes; then it returns to the main flow (R165, R166). No kind's handling
has an effect the spec gives but the commands the routine presents (R165, R168). -/
def dispatchReturn (e : Environment) : Environment :=
  match e.routine with
  | none => e
  | some fired => { e.acknowledge fired with mirror := e.mirror ||| fired, routine := none }.wake fired

/-- A write of `v` to a register enables interrupts and comes before `init()`: that is the hang of R167 (R161, log entry
26). -/
def enablesTooSoon (e : Environment) (v : Word) : Bool := e.phase == .uninitialized && v != 0

/-- What a write of `v` to external cell `k` does to the environment: `EXT[0]` to `EXT[3]` are the display-status,
interrupt-enable, interrupt-acknowledge and master-enable registers (R23, R158, R161). The ones of `v` are set, in the
enable register nothing is ever cleared (R161), and the acknowledge register clears the ones (log entry 9). What the zeros
do to the other two the environment decides: the register keeps the bits of `keep` under them (R23, log entry 14). A write
that enables before `init()` hangs the main flow (R161, R167, log entry 26). -/
def extWrite (e : Environment) (k : Nat) (v keep : Word) : Environment :=
  match k with
  | 0 => { e with displayStatus := v ||| (e.displayStatus &&& keep) }
  | 1 => if e.enablesTooSoon v then e.hang else { e with enabled := e.enabled ||| v }
  | 2 => e.acknowledge v
  | 3 =>
    if e.enablesTooSoon (v &&& masterBit) then e.hang
    else { e with masterEnable := v ||| (e.masterEnable &&& keep) }
  | _ => e

/-- What `oam_safe` is at the response of the COMMIT with the given draw number: the window may have ended or begun inside it
(R136, R197, D21). -/
def duringCommit (e : Environment) (draw : Nat) : Environment :=
  if Config.windowHolds draw then e else { e with oamSafe := Config.oamSafeAfter draw }

end Environment

end Sys2Proof.Machine
end

