-- ==== Sys2Proof/Machine/Ops.lean ====
section
/-! DEFINITION. The named operations over memory and registers, taking an exception (`raise`, R150 to R155), reset (the
only way back from one, R151, R180), and the checks made before a command runs (`start`, `begin`, R63). -/

namespace Sys2Proof.Machine

open Sys2Proof

/-! ### The bytes written since reset, in the byte view of R42 -/

/-- The byte written last at an address; nothing where none has been written since reset. -/
def Memory.readByte : Memory → Nat → Option Byte
  | [], _ => none
  | (a, b) :: m, k => if k = a then some b else Memory.readByte m k

/-- Write one byte, keeping the canonical form. -/
def Memory.writeByte : Memory → Nat → Byte → Memory
  | [], k, v => [(k, v)]
  | (a, b) :: m, k, v =>
    if k < a then (k, v) :: (a, b) :: m
    else if k = a then (k, v) :: m
    else (a, b) :: Memory.writeByte m k v

/-- The 16-bit element written last at an address in 16-bit units; nothing where none has been written since reset. -/
def Memory.readWord (m : Memory) (u : Nat) : Option Word :=
  match Memory.readByte m (2 * u), Memory.readByte m (2 * u + 1) with
  | some lo, some hi => some (hi ++ lo)
  | _, _ => none

/-- Write the 16-bit element at an address in 16-bit units, low byte at the lower byte address (R42). -/
def Memory.writeWord (m : Memory) (u : Nat) (v : Word) : Memory :=
  Memory.writeByte (Memory.writeByte m (2 * u + 1) (v.extractLsb' 8 8)) (2 * u) (v.extractLsb' 0 8)

/-! ### The updates of single fields -/

/-- Store a shadow word (R14). -/
def State.setShadow (s : State) (i : Fin 512) (v : Word) : State := { s with shadow := s.shadow.set i v }

/-- Store `DISPCNT` (R11). -/
def State.setDispcnt (s : State) (v : Word) : State := { s with dispcnt := v }

/-- Store `BGCNT[n]` (R12). -/
def State.setBgcnt (s : State) (n : Fin 4) (v : Word) : State := { s with bgcnt := s.bgcnt.set n v }

/-- Replace the memory. -/
def State.setMem (s : State) (m : Memory) : State := { s with mem := m }

/-- Record one event (R44). -/
def State.record (s : State) (e : Event) : State := { s with trace := e :: s.trace }

/-- Record a list of events, the first of the list first. -/
def State.recordAll (s : State) (l : List Event) : State := { s with trace := l.reverse ++ s.trace }

/-- Pass to the next free draw. -/
def State.nextDraw (s : State) : State := { s with draws := s.draws + 1 }

/-- Replace the environment. -/
def State.setEnv (s : State) (e : Environment) : State := { s with env := e }

/-- Replace the pending inputs. -/
def State.setInputs (s : State) (l : List Input) : State := { s with inputs := l }

/-! ### Responses and exceptions -/

/-- `respond(status, result)`: the response that ends a command (R64). -/
def State.respond (s : State) (status : Status) (result : Wide) : State := s.record (.respond status result)

/-- The response given last, if any (R64). -/
def State.lastResponse (s : State) : Option (Status × Wide) :=
  match s.trace with
  | .respond status result :: _ => some (status, result)
  | _ => none

/-- The exceptions of the block (R150). -/
inductive Exception where
  /-- A background size outside the closed enumeration (R151). -/
  | sizeAbort
  /-- The checked screen-base setter refused its value (R152). -/
  | argumentRejected
  /-- No legal command word (R153). -/
  | illegalCommand
  deriving DecidableEq, Repr

/-- Taking an exception: `SizeAbort` sets `HALT`, and each exception responds with its status and the result 0; nothing
else is recorded or changed (R150 to R155). There is no vector, no saved state and no return: only reset clears `HALT`. -/
def State.raise (s : State) : Exception → State
  | .sizeAbort => s.setHalt.respond .aborted 0
  | .argumentRejected => s.respond .rejected 0
  | .illegalCommand => s.respond .illegal 0

/-- `rst`: the block takes the reset state; the inputs still to come and the record stay (R180, log entry 19). -/
def State.assertReset (s : State) : State :=
  { State.afterReset s.draws with inputs := s.inputs, trace := .reset :: s.trace }

/-- `rst` in the middle of a command that takes `s` to `t` when it runs to its end: the command is dropped after `n` of its
accesses, which stay in the record, with no response, and the block takes the reset state (R180). -/
def State.cutShort (s t : State) (n : Nat) : State :=
  let accesses := (t.trace.take (t.trace.length - s.trace.length)).drop 1
  { t.assertReset with trace := .reset :: (accesses.drop (accesses.length - n) ++ s.trace) }

/-- Halted first: a halted block answers `ABORTED` and does nothing else; otherwise the effect happens (R63 steps 1 and
5, R151). -/
def State.start (s : State) (run : State → State) : Result :=
  if s.halt then .next (s.respond .aborted 0) else .next (run s)

/-- A word that is no command, or whose selector is out of range: halted first, else `IllegalCommand` (R63). -/
def State.rejectWord (s : State) : Result := s.start fun s => s.raise .illegalCommand

/-- The checks made before a command that selects an element runs, given what its operand selects (R63 steps 1 and 4). -/
def State.begin {α : Type} (s : State) (selected : Option α) (run : α → State → State) : Result :=
  match selected with
  | none => s.rejectWord
  | some a => s.start (run a)

/-! ### Cells (R80) -/

/-- What a read of a cell returns now; for an external cell the value the environment chooses, a free value (R23). -/
def State.cellValue (s : State) : Cell → Word
  | .shadow i => s.shadow[i]
  | .dispcnt => s.dispcnt
  | .bgcnt n => s.bgcnt[n]
  | .ext k => Config.envRead k s.draws

/-- The state after a read of a cell: one event; a read of an external cell uses up one free draw (R23, R80). That a read of
an external cell changes no register of the environment is a DESIGN CHOICE (log entry 28: R45 leaves side effects on a read
open). -/
def State.afterRead (s : State) (c : Cell) : State :=
  match c with
  | .shadow _ => s.record (.cellRead c (s.cellValue c))
  | .dispcnt => s.record (.cellRead c (s.cellValue c))
  | .bgcnt _ => s.record (.cellRead c (s.cellValue c))
  | .ext _ => s.nextDraw.record (.cellRead c (s.cellValue c))

/-- `CellRead`: exactly one 16-bit read (R80). -/
def State.cellRead (s : State) (c : Cell) : Word × State := (s.cellValue c, s.afterRead c)

/-- Store to a cell. A write to an external cell changes nothing in the block: it is handed to the environment, and what that
keeps under the zeros is a free draw (R23, R158). -/
def State.storeCell (s : State) (c : Cell) (v : Word) : State :=
  match c with
  | .shadow i => s.setShadow i v
  | .dispcnt => s.setDispcnt v
  | .bgcnt n => s.setBgcnt n v
  | .ext k => (s.setEnv (s.env.extWrite k v (Config.envKeep k s.draws))).nextDraw

/-- `CellWrite`: exactly one 16-bit write, recorded; for an external cell the record is `EnvWrite` (R80). -/
def State.cellWrite (s : State) (c : Cell) (v : Word) : State := (s.storeCell c v).record (.cellWrite c v)

/-- One read and then one write of a cell, inserting `value` in the field (R81, R91, R120). What is written back outside the
field is the value read, so a change of an external cell between the two is lost (R51). That the environment's registers
change between two commands only, and not between the read and the write, is a DESIGN CHOICE (log entry 29). -/
def State.insertField (s : State) (c : Cell) (value : Word) (width shift : Nat) : State :=
  let (old, s') := s.cellRead c
  s'.cellWrite c (bf old value width shift)

/-! ### The tile map and the hardware object attribute memory -/

/-- `MemWrite(MAP, i, 16, v)`: the write appears on the memory port; it lands in the tile map where the map has an element
`i`, and elsewhere changes nothing in the model (R109, R112, U3, log entry 12). -/
def State.mapWrite (P : Params) (s : State) (i : Nat) (v : Word) : State :=
  let s' := s.record (.portWrite (mapAddress P i) v)
  if i < 32768 then s'.setMem (s.mem.writeWord (mapAddress P i).toNat v) else s'

/-- Copy shadow words to the hardware object attribute memory in the given order of indices (R135). -/
def copyInOrder (P : Params) (order : List (Fin 512)) (shadow : Vector Word 512) (m : Memory) : Memory :=
  order.foldl (fun m i => m.writeWord (oamAddress P i.val).toNat shadow[i]) m

/-- The memory-port writes of a copy in the given order, first write first (R135). -/
def copyWrites (P : Params) (order : List (Fin 512)) (shadow : Vector Word 512) : List Event :=
  order.map fun i => .portWrite (oamAddress P i.val) shadow[i]

/-- The order in which the COMMIT with the given draw number makes its writes: each index exactly once (R135). -/
def commitOrder (draw : Nat) : List (Fin 512) := (List.finRange 512).map (Config.commitOrder draw)

/-- The bulk copy of the shadow table. The writes are recorded in the free order; the memory after them does not depend on
the order (R135), so it is computed in descending order of index. Meanwhile `oam_safe` may change (`duringCommit`). -/
def State.copyShadow (P : Params) (s : State) : State :=
  (((s.recordAll (copyWrites P (commitOrder s.draws) s.shadow)).setMem
    (copyInOrder P (List.finRange 512).reverse s.shadow s.mem)).setEnv (s.env.duringCommit s.draws)).nextDraw

/-! ### What the two memories hold -/

/-- The byte of memory at a byte address: what was written there last since the reset, else the reset draw (R25, R45). -/
def State.byteAt (s : State) (a : Nat) : Byte := (s.mem.readByte a).getD (Config.resetByte s.resetDraw a)

/-- The 16-bit element at an address in 16-bit units, low byte at the lower byte address (R42). -/
def State.wordAt (s : State) (u : Nat) : Word := s.byteAt (2 * u + 1) ++ s.byteAt (2 * u)

/-- The tile-map entry `i` (R19). No command reads it. -/
def State.mapEntry (P : Params) (s : State) (i : Nat) : Word := s.wordAt (mapAddress P i).toNat

/-- The hardware object attribute word `i` (R18). No command reads it. -/
def State.oamWord (P : Params) (s : State) (i : Nat) : Word := s.wordAt (oamAddress P i).toNat

end Sys2Proof.Machine
end

