-- ==== Sys2Proof/Machine/BitField.lean ====
section
/-! DEFINITION. The BitField unit's commands SETBITS, RDCELL, WRCELL (40_bitfield.md). -/

namespace Sys2Proof.Machine

open Sys2Proof

/-- The effect of SETBITS on a cell: one read, then one write with the field inserted, always both (R81); the
precondition is not checked (R86). -/
def setbitsOn (value width shift : Word) (c : Cell) (s : State) : State :=
  (s.insertField c value width.toNat shift.toNat).respond .ok 0

/-- The effect of RDCELL on a cell: one read; the value is the result (R82). -/
def rdcellOn (c : Cell) (s : State) : State :=
  let (v, s') := s.cellRead c
  s'.respond .ok (v.setWidth 32)

/-- The effect of WRCELL on a cell: one write of the whole cell, no read (R83). -/
def wrcellOn (value : Word) (c : Cell) (s : State) : State := (s.cellWrite c value).respond .ok 0

/-- SETBITS (R81). -/
def execSetbits (sel value width shift : Word) (s : State) (P : Params := params) : Result :=
  s.begin (cellOf P sel) (setbitsOn value width shift)

/-- RDCELL (R82). -/
def execRdcell (sel : Word) (s : State) (P : Params := params) : Result := s.begin (cellOf P sel) rdcellOn

/-- WRCELL (R83). -/
def execWrcell (sel value : Word) (s : State) (P : Params := params) : Result :=
  s.begin (cellOf P sel) (wrcellOn value)

end Sys2Proof.Machine
end

