-- ==== Sys2Proof/Machine/Display.lean ====
section
/-! DEFINITION. The display registers' commands (41_display.md). -/

namespace Sys2Proof.Machine

open Sys2Proof

/-- `BgField(F, bg, value)`: one read and one write of `BGCNT[bg]`, every other field untouched (R91). -/
def bgField (f : Field) (value : Word) (n : Fin 4) (s : State) : State :=
  (s.insertField (.bgcnt n) value f.width f.shift).respond .ok 0

/-- The effect of DISPSET: `DISPCNT` overwritten with the whole image, one write and no read (R90). -/
def dispsetRun (value : Word) (s : State) : State := (s.cellWrite .dispcnt value).respond .ok 0

/-- The effect of BGSBB on a background: a value above 31 raises `ArgumentRejected` with no access (R96, R152). -/
def bgsbbRun (P : Params) (value : Word) (n : Fin 4) (s : State) : State :=
  if value.toNat > 31 then s.raise .argumentRejected else bgField P.layout.bgcnt.sbb value n s

/-- DISPSET (R90). -/
def execDispset (value : Word) (s : State) : Result := s.start (dispsetRun value)

/-- BGPRIO (R92). -/
def execBgprio (bg value : Word) (s : State) (P : Params := params) : Result :=
  s.begin (bgOf bg) (bgField P.layout.bgcnt.prio value)

/-- BGTBANK (R93). -/
def execBgtbank (bg value : Word) (s : State) (P : Params := params) : Result :=
  s.begin (bgOf bg) (bgField P.layout.bgcnt.tbank value)

/-- BGCDEPTH (R94). -/
def execBgcdepth (bg value : Word) (s : State) (P : Params := params) : Result :=
  s.begin (bgOf bg) (bgField P.layout.bgcnt.cdepth value)

/-- BGSIZE (R95). -/
def execBgsize (bg value : Word) (s : State) (P : Params := params) : Result :=
  s.begin (bgOf bg) (bgField P.layout.bgcnt.size value)

/-- BGSBB (R96), the checked entry point. -/
def execBgsbb (bg value : Word) (s : State) (P : Params := params) : Result := s.begin (bgOf bg) (bgsbbRun P value)

/-- BGSBBU (R97), the unchecked entry point: the value is masked to the field. -/
def execBgsbbu (bg value : Word) (s : State) (P : Params := params) : Result :=
  s.begin (bgOf bg) (bgField P.layout.bgcnt.sbb value)

end Sys2Proof.Machine
end

