-- ==== Sys2Proof/Machine/ObjAttr.lean ====
section
/-! DEFINITION. The object attribute table's commands: the setters, AFFSET and COMMIT (43_oam.md). -/

namespace Sys2Proof.Machine

open Sys2Proof

/-- `ObjField(w, F, idx, value)`: one read and one write of `SHADOW[4*idx + w]`, every other field untouched (R120). -/
def objField (w : Fin 4) (f : Field) (value : Word) (e : Fin 128) (s : State) : State :=
  s.insertField (.shadow (attrWord e w)) value f.width f.shift

/-- A setter of one field: `ObjField`, then the response (R122 to R133). -/
def objSetter (w : Fin 4) (f : Field) (value : Word) (e : Fin 128) (s : State) : State :=
  (objField w f value e s).respond .ok 0

/-- The effect of OBJPOS on an entry: `y` into attr0, then `x` into attr1, each masked to its field (R121). -/
def objposRun (P : Params) (x y : Word) (e : Fin 128) (s : State) : State :=
  objSetter 1 P.layout.attr1.x x e (objField 0 P.layout.attr0.y y e s)

/-- The effect of AFFSET on a filler word: one write of the whole word, no read (R134). -/
def affsetRun (value : Word) (i : Fin 512) (s : State) : State := (s.cellWrite (.shadow i) value).respond .ok 0

/-- The effect of COMMIT: the shadow table copied to the hardware object attribute memory, whatever `oam_safe` is (R135,
R136). Whether a window open at its start is open at its response is a free value (R197; DESIGN CHOICE, log entry 25). -/
def commitRun (P : Params) (s : State) : State := (s.copyShadow P).respond .ok 0

/-- OBJPOS (R121): the position. -/
def execObjpos (idx x y : Word) (s : State) (P : Params := params) : Result := s.begin (objOf idx) (objposRun P x y)

/-- OBJMODE (R122): the display mode. -/
def execObjmode (idx value : Word) (s : State) (P : Params := params) : Result :=
  s.begin (objOf idx) (objSetter 0 P.layout.attr0.dmode value)

/-- OBJGFX (R123): the graphics/blend mode. -/
def execObjgfx (idx value : Word) (s : State) (P : Params := params) : Result :=
  s.begin (objOf idx) (objSetter 0 P.layout.attr0.gmode value)

/-- OBJMOSAIC (R124): the mosaic flag. -/
def execObjmosaic (idx flag : Word) (s : State) (P : Params := params) : Result :=
  s.begin (objOf idx) (objSetter 0 P.layout.attr0.mosaic flag)

/-- OBJCDEPTH (R125): the colour depth flag. -/
def execObjcdepth (idx flag : Word) (s : State) (P : Params := params) : Result :=
  s.begin (objOf idx) (objSetter 0 P.layout.attr0.cdepth flag)

/-- OBJSHAPE (R126): the shape. -/
def execObjshape (idx value : Word) (s : State) (P : Params := params) : Result :=
  s.begin (objOf idx) (objSetter 0 P.layout.attr0.shape value)

/-- OBJSIZE (R127): the size. -/
def execObjsize (idx value : Word) (s : State) (P : Params := params) : Result :=
  s.begin (objOf idx) (objSetter 1 P.layout.attr1.size value)

/-- OBJAFFIDX (R128): the affine index. -/
def execObjaffidx (idx value : Word) (s : State) (P : Params := params) : Result :=
  s.begin (objOf idx) (objSetter 1 P.layout.attr1.affidx value)

/-- OBJHFLIP (R129): the horizontal flip flag. -/
def execObjhflip (idx flag : Word) (s : State) (P : Params := params) : Result :=
  s.begin (objOf idx) (objSetter 1 P.layout.attr1.hflip flag)

/-- OBJVFLIP (R130): the vertical flip flag. -/
def execObjvflip (idx flag : Word) (s : State) (P : Params := params) : Result :=
  s.begin (objOf idx) (objSetter 1 P.layout.attr1.vflip flag)

/-- OBJTILE (R131): the tile id. -/
def execObjtile (idx value : Word) (s : State) (P : Params := params) : Result :=
  s.begin (objOf idx) (objSetter 2 P.layout.attr2.tile value)

/-- OBJPRIO (R132): the priority. -/
def execObjprio (idx value : Word) (s : State) (P : Params := params) : Result :=
  s.begin (objOf idx) (objSetter 2 P.layout.attr2.prio value)

/-- OBJPAL (R133): the palette bank. -/
def execObjpal (idx value : Word) (s : State) (P : Params := params) : Result :=
  s.begin (objOf idx) (objSetter 2 P.layout.attr2.palbank value)

/-- AFFSET (R134): coefficient `k` of affine entry `n`. -/
def execAffset (n k value : Word) (s : State) : Result := s.begin (coeffOf n k) (affsetRun value)

/-- COMMIT (R135). -/
def execCommit (s : State) (P : Params := params) : Result := s.start (commitRun P)

end Sys2Proof.Machine
end

