-- ==== Sys2Proof/Machine/TileAddr.lean ====
section
/-! DEFINITION. The tile-address resolver's commands (42_tileaddr.md). -/

namespace Sys2Proof.Machine

open Sys2Proof

/-- The map index of tile `(x, y)` of a background whose control register holds `g` (R107, R108, R109). -/
def mapIndexOf (P : Params) (g x y : Word) : Nat :=
  mapidx (getField P.layout.bgcnt.sbb g) (sizeOfCode P (getField P.layout.bgcnt.size g)) x.toNat y.toNat

/-- The effect of RBLK: the block index; a size outside the enumeration raises `SizeAbort` (R104, R151). -/
def rblkRun (P : Params) (size x y : Word) (s : State) : State :=
  if size.toNat < nSizeCodes then
    s.respond .ok (BitVec.ofNat 32 (blk (sizeOfCode P size.toNat) x.toNat y.toNat))
  else s.raise .sizeAbort

/-- The effect of ROFF: the in-block offset (R105). -/
def roffRun (x y : Word) (s : State) : State := s.respond .ok (BitVec.ofNat 32 (off x.toNat y.toNat))

/-- The effect of ENCSE: the screen-entry word (R106). -/
def encseRun (P : Params) (tileId hflip vflip paletteBank : Word) (s : State) : State :=
  s.respond .ok ((enc P tileId hflip vflip paletteBank).setWidth 32)

/-- The effect of TADDR on a background: one read of `BGCNT[bg]`; the result is the write-target address (R108). -/
def taddrRun (P : Params) (x y : Word) (n : Fin 4) (s : State) : State :=
  let (g, s') := s.cellRead (.bgcnt n)
  s'.respond .ok (mapAddress P (mapIndexOf P g x y))

/-- The effect of MAPWR on a background: one read of `BGCNT[bg]`, one write to the tile-map space; a target outside the
region appears on the memory port only (R109, R112). -/
def mapwrRun (P : Params) (x y entry : Word) (n : Fin 4) (s : State) : State :=
  let (g, s') := s.cellRead (.bgcnt n)
  (s'.mapWrite P (mapIndexOf P g x y) entry).respond .ok 0

/-- RBLK (R104). -/
def execRblk (size x y : Word) (s : State) (P : Params := params) : Result := s.start (rblkRun P size x y)

/-- ROFF (R105). -/
def execRoff (x y : Word) (s : State) : Result := s.start (roffRun x y)

/-- ENCSE (R106). -/
def execEncse (tileId hflip vflip paletteBank : Word) (s : State) (P : Params := params) : Result :=
  s.start (encseRun P tileId hflip vflip paletteBank)

/-- TADDR (R108). -/
def execTaddr (bg x y : Word) (s : State) (P : Params := params) : Result := s.begin (bgOf bg) (taddrRun P x y)

/-- MAPWR (R109). -/
def execMapwr (bg x y entry : Word) (s : State) (P : Params := params) : Result :=
  s.begin (bgOf bg) (mapwrRun P x y entry)

end Sys2Proof.Machine
end

