-- ==== Sys2Proof/Machine/Dispatch.lean ====
section
/-! DEFINITION. The dispatch of a command to its meaning, one arm per row of the opcode map (R62). -/

namespace Sys2Proof.Machine

open Sys2Proof

def exec (i : Instr) (s : State) : Host.Outcome State Fault Refusal :=
  match i with
  | .setbits sel value width shift => Sys2Proof.Machine.execSetbits sel value width shift s
  | .rdcell sel => Sys2Proof.Machine.execRdcell sel s
  | .wrcell sel value => Sys2Proof.Machine.execWrcell sel value s
  | .dispset value => Sys2Proof.Machine.execDispset value s
  | .bgprio bg value => Sys2Proof.Machine.execBgprio bg value s
  | .bgtbank bg value => Sys2Proof.Machine.execBgtbank bg value s
  | .bgcdepth bg value => Sys2Proof.Machine.execBgcdepth bg value s
  | .bgsize bg value => Sys2Proof.Machine.execBgsize bg value s
  | .bgsbb bg value => Sys2Proof.Machine.execBgsbb bg value s
  | .bgsbbu bg value => Sys2Proof.Machine.execBgsbbu bg value s
  | .rblk size x y => Sys2Proof.Machine.execRblk size x y s
  | .roff x y => Sys2Proof.Machine.execRoff x y s
  | .encse tileId hflip vflip paletteBank => Sys2Proof.Machine.execEncse tileId hflip vflip paletteBank s
  | .taddr bg x y => Sys2Proof.Machine.execTaddr bg x y s
  | .mapwr bg x y entry => Sys2Proof.Machine.execMapwr bg x y entry s
  | .objpos idx x y => Sys2Proof.Machine.execObjpos idx x y s
  | .objmode idx value => Sys2Proof.Machine.execObjmode idx value s
  | .objgfx idx value => Sys2Proof.Machine.execObjgfx idx value s
  | .objmosaic idx flag => Sys2Proof.Machine.execObjmosaic idx flag s
  | .objcdepth idx flag => Sys2Proof.Machine.execObjcdepth idx flag s
  | .objshape idx value => Sys2Proof.Machine.execObjshape idx value s
  | .objsize idx value => Sys2Proof.Machine.execObjsize idx value s
  | .objaffidx idx value => Sys2Proof.Machine.execObjaffidx idx value s
  | .objhflip idx flag => Sys2Proof.Machine.execObjhflip idx flag s
  | .objvflip idx flag => Sys2Proof.Machine.execObjvflip idx flag s
  | .objtile idx value => Sys2Proof.Machine.execObjtile idx value s
  | .objprio idx value => Sys2Proof.Machine.execObjprio idx value s
  | .objpal idx value => Sys2Proof.Machine.execObjpal idx value s
  | .affset n k value => Sys2Proof.Machine.execAffset n k value s
  | .commit => Sys2Proof.Machine.execCommit s

end Sys2Proof.Machine
end

