-- ==== Sys2Proof/Machine/Env.lean ====
section
/-! DEFINITION. The actions of the environment (60_exceptions.md part 2), each on the state: only the environment changes,
no state of the block does (R24, R166). -/

namespace Sys2Proof.Machine

open Sys2Proof

/-- What an action makes of the environment. That the hardware by itself changes only `asserted` and `oamSafe`, and no bit of the
registers behind `EXT[0]`, `EXT[1]` and `EXT[3]`, is a DESIGN CHOICE (log entry 31: R45 leaves open which bits "may change by
themselves"). -/
def Environment.act (a : EnvAction) (e : Environment) : Environment :=
  match a with
  | .init handler => e.init handler
  | .enableType k => e.enableType k
  | .enableGlobally => e.enableGlobally
  | .waitVblank => e.wait
  | .assertIrq k => e.assertIrq k
  | .dispatch => e.dispatch
  | .dispatchReturn => e.dispatchReturn
  | .scanout safe => { e with oamSafe := safe }

/-- One action of the environment. It always has a next state: a hang is a main flow that never runs again (R167), not a
stop of the machine, so that a reset can still come (R180; log entry 22). -/
def runEnv (a : EnvAction) (s : State) : Result := .next (s.setEnv (s.env.act a))

end Sys2Proof.Machine
end

