-- ==== Sys2Proof/Machine/Port.lean ====
section
/-! DEFINITION. The command port: which input from outside comes next, and what the machine does with it (R49, R60, R63, R65,
R165, R166, R180). Each definition takes the meaning of a command as its last argument, by default `exec`, so that the
machine of another record of parameters (R5, Machine/Parametric.lean) shares them. -/

namespace Sys2Proof.Machine

open Sys2Proof

/-- A command word presented to the block: decoded and run, or rejected (R63, R65). -/
def runWord (w : CommandWord) (s : State) (run : Instr → State → Result := exec) : Result :=
  match decode w with
  | .ok i => run i s
  | .error _ => s.rejectWord

/-- A command word presented and dropped by a reset after `n` of its accesses, with no response (R180). -/
def runWordCut (w : CommandWord) (n : Nat) (s : State) (run : Instr → State → Result := exec) : Result :=
  match runWord w s run with
  | .next t => .next (s.cutShort t n)
  | .fault r => .fault r
  | .refused r => .refused r

/-- One input from outside. The dispatch routine's commands run as the main flow's do (R49, R165). -/
def takeInput (x : Input) (s : State) (run : Instr → State → Result := exec) : Result :=
  match x with
  | .command w => runWord w s run
  | .handlerCommand w => runWord w s run
  | .commandCut w n => runWordCut w n s run
  | .handlerCommandCut w n => runWordCut w n s run
  | .reset => .next s.assertReset
  | .env a => runEnv a s

/-- Who gives an input: the main program flow, the dispatch routine, or the hardware (R164, R165). -/
inductive Source where
  | mainFlow
  | routine
  | hardware
  deriving DecidableEq, Repr

/-- Who takes an action (R160 to R166). -/
def EnvAction.source : EnvAction → Source
  | .init _ => .mainFlow
  | .enableType _ => .mainFlow
  | .enableGlobally => .mainFlow
  | .waitVblank => .mainFlow
  | .assertIrq _ => .hardware
  | .dispatch => .hardware
  | .dispatchReturn => .routine
  | .scanout _ => .hardware

/-- Who gives an input. -/
def Input.source : Input → Source
  | .command _ => .mainFlow
  | .handlerCommand _ => .routine
  | .commandCut _ _ => .mainFlow
  | .handlerCommandCut _ _ => .routine
  | .reset => .hardware
  | .env a => a.source

/-- Who can act now: the main flow while it runs and the dispatch routine does not, which preempts it and runs to completion;
the routine while it runs; the hardware always (R165, R166 "suspends all progress", R167). -/
def Environment.lets (e : Environment) : Source → Bool
  | .mainFlow => e.flow == .running && e.routine == none
  | .routine => e.routine != none
  | .hardware => true

/-- The result leaves the state of the block as it was: `SHADOW`, `DISPCNT`, `BGCNT` and `HALT` (R11 to R21). -/
def State.keepsBlock (s : State) : Result → Bool
  | .next t => t.shadow == s.shadow && t.dispcnt == s.dispcnt && t.bgcnt == s.bgcnt && t.halt == s.halt
  | .fault _ => false
  | .refused _ => false

/-- The dispatch routine, at work, presents the command word: its handling of vblank may, since every other kind is
acknowledged "and otherwise ignored" (R163, R168); and while the main flow waits "no state of the block changes" (R166), so
then only a command that leaves it as it is (DEDUCED, log entry 11). -/
def State.routinePresents (s : State) (w : CommandWord) (run : Instr → State → Result := exec) : Bool :=
  s.env.handlesVblank && (s.env.flow == .running || s.keepsBlock (runWord w s run))

/-- The input can come now: its source can act, and a command of the dispatch routine is one that it presents. -/
def State.admits (s : State) (x : Input) (run : Instr → State → Result := exec) : Bool :=
  s.env.lets x.source &&
    match x with
    | .command _ => true
    | .handlerCommand w => s.routinePresents w run
    | .commandCut _ _ => true
    | .handlerCommandCut w _ => s.routinePresents w run
    | .reset => true
    | .env _ => true

/-- The input never comes: its source can act, but it is a command the dispatch routine does not present. It is no part of
the routine's run (DEDUCED, log entry 30). -/
def State.excludes (s : State) (x : Input) (run : Instr → State → Result := exec) : Bool :=
  s.env.lets x.source && !s.admits x run

/-- The first input of the list that can come, and the others in their order, without those before it that never come. -/
def firstAdmitted (admits excludes : Input → Bool) : List Input → Option (Input × List Input)
  | [] => none
  | x :: rest =>
    if admits x then some (x, rest)
    else (firstAdmitted admits excludes rest).map fun p => (p.1, if excludes x then p.2 else x :: p.2)

/-- The next input, and those that stay pending: the first that can come. So the inputs of each source come in their order
(R49), and a source that cannot act keeps its own. None where none can come. -/
def State.nextInput (s : State) (run : Instr → State → Result := exec) : Option (Input × List Input) :=
  firstAdmitted (fun x => s.admits x run) (fun x => s.excludes x run) s.inputs

/-- One step of the machine whose commands mean `run`: it takes the next input; where none can come it waits (R65, R166,
R167, R180). -/
def stepOf (run : Instr → State → Result) (s : State) : Result :=
  match s.nextInput run with
  | none => .next s
  | some (x, rest) => takeInput x (s.setInputs rest) run

/-- The command word with the bits of `w` below `nbits`, the others zero. -/
def tableWord (nbits w : Nat) : CommandWord := BitVec.ofNat 80 (w % 2 ^ nbits)

end Sys2Proof.Machine
end

