-- ==== Sys2Proof/Machine/Parametric.lean ====
section
/-! DEFINITION. The machine of any record of parameters (R5 "a model takes the record as an argument so that a corrected value
can be substituted without touching a rule"). `exec`, `step` and `Sys2Proof.core` are these at the default record. -/

namespace Sys2Proof.Machine

open Sys2Proof

/-- The meaning of a command under the parameters `P`: the same meanings as `exec`, given the record. -/
def execWith (P : Params) (i : Instr) (s : State) : Result :=
  match i with
  | .setbits sel value width shift => execSetbits sel value width shift s P
  | .rdcell sel => execRdcell sel s P
  | .wrcell sel value => execWrcell sel value s P
  | .dispset value => execDispset value s
  | .bgprio bg value => execBgprio bg value s P
  | .bgtbank bg value => execBgtbank bg value s P
  | .bgcdepth bg value => execBgcdepth bg value s P
  | .bgsize bg value => execBgsize bg value s P
  | .bgsbb bg value => execBgsbb bg value s P
  | .bgsbbu bg value => execBgsbbu bg value s P
  | .rblk size x y => execRblk size x y s P
  | .roff x y => execRoff x y s
  | .encse tileId hflip vflip paletteBank => execEncse tileId hflip vflip paletteBank s P
  | .taddr bg x y => execTaddr bg x y s P
  | .mapwr bg x y entry => execMapwr bg x y entry s P
  | .objpos idx x y => execObjpos idx x y s P
  | .objmode idx value => execObjmode idx value s P
  | .objgfx idx value => execObjgfx idx value s P
  | .objmosaic idx flag => execObjmosaic idx flag s P
  | .objcdepth idx flag => execObjcdepth idx flag s P
  | .objshape idx value => execObjshape idx value s P
  | .objsize idx value => execObjsize idx value s P
  | .objaffidx idx value => execObjaffidx idx value s P
  | .objhflip idx flag => execObjhflip idx flag s P
  | .objvflip idx flag => execObjvflip idx flag s P
  | .objtile idx value => execObjtile idx value s P
  | .objprio idx value => execObjprio idx value s P
  | .objpal idx value => execObjpal idx value s P
  | .affset n k value => execAffset n k value s
  | .commit => execCommit s P

/-- One step under the parameters `P`. -/
def stepWith (P : Params) (s : State) : Result := stepOf (execWith P) s

/-- The machine of the parameters `P`. -/
def machine (P : Params) : Host.Core where
  State := State
  Fault := Fault
  Refusal := Refusal
  step := stepWith P
  reset := State.reset

end Sys2Proof.Machine
end

