-- ==== Sys2Proof/Machine/Step.lean ====
section
/-! DEFINITION. One step of the machine with the default parameters, and how a word comes to be its next command. -/

namespace Sys2Proof.Machine

open Sys2Proof

/-- One step of the machine. -/
def step (s : State) : Host.Outcome State Fault Refusal := stepOf exec s

/-- `s` with the command word presented as the next input, by a main flow that runs and that no dispatch routine preempts. -/
def State.withFetchWord (s : State) (nbits w : Nat) : State :=
  { s with
    env := { s.env with flow := .running, routine := none }
    inputs := .command (tableWord nbits w) :: s.inputs }

end Sys2Proof.Machine
end

