-- ==== Sys2Proof/Safety.lean ====
section
/-! DEFINITION. The terms claims are stated in: the invariant of the machine, and what it means that a field was inserted in
a word. -/

namespace Sys2Proof.Machine

open Sys2Proof

/-- A byte address of the tile map (R42, R48). -/
def inMapBytes (a : Nat) : Prop := 2 * params.tilemapBase ≤ a ∧ a < 2 * (params.tilemapBase + 32768)

/-- A byte address of the hardware object attribute memory (R42, R48). -/
def inOamBytes (a : Nat) : Prop := 2 * params.oamBase ≤ a ∧ a < 2 * (params.oamBase + 512)

/-- The memory is in canonical form, lists bytes of `MAP` and `OAM` only (R40), and lists whole 16-bit elements only (R42:
"The block never reads or writes a byte"). -/
structure MemoryOk (m : Memory) : Prop where
  canonical : m.wf
  inSpaces : ∀ c ∈ m, inMapBytes c.1 ∨ inOamBytes c.1
  wholeWords : ∀ u, (m.readByte (2 * u)).isSome = (m.readByte (2 * u + 1)).isSome

/-- The environment is one its actions lead to: only an enabled vblank of an initialized controller is waited for (R166,
R167); before `init()` no routine is installed or at work, nothing is enabled and nothing mirrored (R159 to R164); the
routine handles enabled kinds only, and no other kind is in the mirror (R163, R164 (a)). That the slot, the mirror, the
enabled mask and the master flag are zero at reset, and that a reset ends a routine at work, is log entry 8, that nothing is
enabled before `init()` log entry 26. -/
structure EnvironmentOk (e : Environment) : Prop where
  waits : e.flow = .waiting → e.phase = .initialized ∧ inMask e.enabled .vblank = true
  beforeInit : e.phase = .uninitialized →
    e.handler = 0 ∧ e.mirror = 0 ∧ e.enabled = 0 ∧ e.masterOn = false ∧ e.routine = none
  mirrored : ∀ i, e.mirror.getLsbD i = true → e.enabled.getLsbD i = true
  handled : ∀ fired, e.routine = some fired →
    fired ≠ 0 ∧ ∀ i, fired.getLsbD i = true → e.enabled.getLsbD i = true

/-- The record since the last reset (latest event first) holds a response `ABORTED`. -/
def abortedSinceReset : List Event → Bool
  | [] => false
  | .reset :: _ => false
  | .respond .aborted _ :: _ => true
  | .respond .ok _ :: t => abortedSinceReset t
  | .respond .rejected _ :: t => abortedSinceReset t
  | .respond .illegal _ :: t => abortedSinceReset t
  | .cellRead _ _ :: t => abortedSinceReset t
  | .cellWrite _ _ :: t => abortedSinceReset t
  | .portWrite _ _ :: t => abortedSinceReset t

/-- The invariant of the machine: the memory and the environment are sound, `HALT` is set exactly when the block has
answered `ABORTED` since the last reset (R21, R150, R151), every response other than `OK` carries the result 0 (R64), and the
reset's draw is one already made (R25). -/
structure State.Inv (s : State) : Prop where
  memory : MemoryOk s.mem
  environment : EnvironmentOk s.env
  halted : s.halt = abortedSinceReset s.trace
  results : ∀ status result, .respond status result ∈ s.trace → status ≠ .ok → result = 0
  drawn : s.resetDraw < s.draws

/-- The premise of the commit contract for a COMMIT begun in `s`: `oam_safe` holds when it begins, and through to its response
(R136, R185). No rule says that it does (R197, N12, U18, D21), so a claim that needs it takes it as a hypothesis. -/
def CommitInWindow (s : State) : Prop := s.env.oamSafe = true ∧ Config.windowHolds s.draws = true

/-- `new` is `old` with the low bits of `value` in the field and every other bit kept (R84, R85, R91, R120). -/
def FieldInserted (f : Field) (old value new : Word) : Prop :=
  ∀ i, i < 16 → new.getLsbD i =
    if f.shift ≤ i ∧ i < f.shift + f.width then value.getLsbD (i - f.shift) else old.getLsbD i

end Sys2Proof.Machine
end

