-- ==== Sys2Proof/Certificates/Slice0/Obligations.lean ====
section
/-! DEFINITION. The statements for the provers, each a rule of the spec said of the model. A statement names the rules it
rests on in its docstring; OBLIGATIONS.json says which of them it states whole. -/

open Sys2Proof Sys2Proof.Machine

/-! ### The vocabulary of the statements -/

/-- The opcode map (R62): opcode number and number of operands (the format), written out from the table. -/
def Sys2Proof.Claims.opcodeMap : List (Word × Nat) :=
  [(0x01, 4), (0x02, 1), (0x03, 2), (0x10, 1), (0x11, 2), (0x12, 2), (0x13, 2), (0x14, 2), (0x15, 2), (0x16, 2),
   (0x20, 3), (0x21, 2), (0x22, 4), (0x23, 3), (0x24, 4), (0x30, 3), (0x31, 2), (0x32, 2), (0x33, 2), (0x34, 2)] ++
  [(0x35, 2), (0x36, 2), (0x37, 2), (0x38, 2), (0x39, 2), (0x3A, 2), (0x3B, 2), (0x3C, 2), (0x3D, 3), (0x3E, 0)]

/-- The word passes the checks of R63 steps 2 and 3: its `op` field is a number of the opcode map, with `op[15:8] = 0`, and
the bits of the fields the format does not use are zero. -/
def Sys2Proof.Claims.legalWord (w : CommandWord) : Prop :=
  ∃ row ∈ Claims.opcodeMap, w.extractLsb' 64 16 = row.1 ∧ w.extractLsb' 0 (16 * (4 - row.2)) = 0

/-- `s` after a command that only responds. -/
def Sys2Proof.Claims.answered (s : State) (status : Status) (result : Wide) : State :=
  { s with trace := .respond status result :: s.trace }

/-- `s` after one read and one write of shadow word `i`, `new` its new value, and the response `OK`. -/
def Sys2Proof.Claims.shadowUpdated (s : State) (i : Fin 512) (new : Word) : State :=
  { s with
    shadow := s.shadow.set i new
    trace := .respond .ok 0 :: .cellWrite (.shadow i) new :: .cellRead (.shadow i) s.shadow[i] :: s.trace }

/-- `s` after one read and one write of `BGCNT[n]`, `new` its new value, and the response `OK`. -/
def Sys2Proof.Claims.bgcntUpdated (s : State) (n : Fin 4) (new : Word) : State :=
  { s with
    bgcnt := s.bgcnt.set n new
    trace := .respond .ok 0 :: .cellWrite (.bgcnt n) new :: .cellRead (.bgcnt n) s.bgcnt[n] :: s.trace }

/-- The word `w` is presented next, by the main flow or by the dispatch routine (R49, R165); `rest` stays pending. -/
def Sys2Proof.Claims.presented (s : State) (w : CommandWord) (rest : List Input) : Prop :=
  s.nextInput = some (.command w, rest) ∨ s.nextInput = some (.handlerCommand w, rest)

/-- The input ends in a reset: `rst`, between two commands or inside one (R180). -/
def Sys2Proof.Claims.resets : Input → Bool
  | .command _ => false
  | .handlerCommand _ => false
  | .commandCut _ _ => true
  | .handlerCommandCut _ _ => true
  | .reset => true
  | .env _ => false

/-- `s` has the reset values of R25, its unspecified values being those of the reset with the given draw number. That the number
of the enabled mask is zero is log entry 8 (DESIGN CHOICE). -/
structure Sys2Proof.Claims.ResetValues (s : State) (draw : Nat) : Prop where
  shadow : ∀ i : Fin 512, s.shadow[i] = 0
  halt : s.halt = false
  dispcnt : s.dispcnt = Config.resetDispcnt draw
  bgcnt : ∀ n : Fin 4, s.bgcnt[n] = Config.resetBgcnt draw n
  memory : ∀ a, s.byteAt a = Config.resetByte draw a
  phase : s.env.phase = .uninitialized
  enabled : s.env.enabled = 0

/-- The command writes an external cell. -/
def Sys2Proof.Claims.writesExternalCell (i : Instr) : Prop :=
  ∃ sel k, cellOf params sel = some (.ext k) ∧
    ((∃ value width shift, i = .setbits sel value width shift) ∨ ∃ value, i = .wrcell sel value)

/-- The command writes `EXT[1]` or `EXT[3]`, the interrupt-enable and the master-interrupt-enable register (R158, R161). -/
def Sys2Proof.Claims.writesAnEnable (i : Instr) : Prop :=
  ∃ sel ∈ [0x0211#16, 0x0213#16],
    (∃ value width shift, i = .setbits sel value width shift) ∨ ∃ value, i = .wrcell sel value

/-- The command reads or writes an external cell. -/
def Sys2Proof.Claims.accessesExternalCell (i : Instr) : Prop :=
  Claims.writesExternalCell i ∨ ∃ sel k, cellOf params sel = some (.ext k) ∧ i = .rdcell sel

/-- The event is neither a response nor a reset. -/
def Sys2Proof.Claims.isAccess : Event → Bool
  | .cellRead _ _ => true
  | .cellWrite _ _ => true
  | .portWrite _ _ => true
  | .respond _ _ => false
  | .reset => false

/-! ### Encoding -/

/-- Decoding an encoded command gives it back, every operand at every 16-bit value (R60 to R63, D4). -/
def Obligations.DecodingAnEncodedCommandGivesItBack : Prop :=
  ∀ i : Instr, decode (encode i) = .ok i

/-- Each command has one word: a word that decodes is the encoding of what it decodes to (D4; 95_test_vectors.md V8). -/
def Obligations.EncodingADecodedWordGivesItBack : Prop :=
  ∀ (w : CommandWord) (i : Instr), decode w = .ok i → encode i = w

/-- The command word of every command (R60, R61, R62): the opcode number, the operands in the order `p, q, r, s`, at every
value, and zeros in the fields the format does not use. -/
def Obligations.CommandWordsFollowTheOpcodeMap : Prop :=
  ∀ p q r s : Word,
    decode (0x0001#16 ++ p ++ q ++ r ++ s) = .ok (.setbits p q r s) ∧
    decode (0x0002#16 ++ p ++ 0#16 ++ 0#16 ++ 0#16) = .ok (.rdcell p) ∧
    decode (0x0003#16 ++ p ++ q ++ 0#16 ++ 0#16) = .ok (.wrcell p q) ∧
    decode (0x0010#16 ++ p ++ 0#16 ++ 0#16 ++ 0#16) = .ok (.dispset p) ∧
    decode (0x0011#16 ++ p ++ q ++ 0#16 ++ 0#16) = .ok (.bgprio p q) ∧
    decode (0x0012#16 ++ p ++ q ++ 0#16 ++ 0#16) = .ok (.bgtbank p q) ∧
    decode (0x0013#16 ++ p ++ q ++ 0#16 ++ 0#16) = .ok (.bgcdepth p q) ∧
    decode (0x0014#16 ++ p ++ q ++ 0#16 ++ 0#16) = .ok (.bgsize p q) ∧
    decode (0x0015#16 ++ p ++ q ++ 0#16 ++ 0#16) = .ok (.bgsbb p q) ∧
    decode (0x0016#16 ++ p ++ q ++ 0#16 ++ 0#16) = .ok (.bgsbbu p q) ∧
    decode (0x0020#16 ++ p ++ q ++ r ++ 0#16) = .ok (.rblk p q r) ∧
    decode (0x0021#16 ++ p ++ q ++ 0#16 ++ 0#16) = .ok (.roff p q) ∧
    decode (0x0022#16 ++ p ++ q ++ r ++ s) = .ok (.encse p q r s) ∧
    decode (0x0023#16 ++ p ++ q ++ r ++ 0#16) = .ok (.taddr p q r) ∧
    decode (0x0024#16 ++ p ++ q ++ r ++ s) = .ok (.mapwr p q r s) ∧
    decode (0x0030#16 ++ p ++ q ++ r ++ 0#16) = .ok (.objpos p q r) ∧
    decode (0x0031#16 ++ p ++ q ++ 0#16 ++ 0#16) = .ok (.objmode p q) ∧
    decode (0x0032#16 ++ p ++ q ++ 0#16 ++ 0#16) = .ok (.objgfx p q) ∧
    decode (0x0033#16 ++ p ++ q ++ 0#16 ++ 0#16) = .ok (.objmosaic p q) ∧
    decode (0x0034#16 ++ p ++ q ++ 0#16 ++ 0#16) = .ok (.objcdepth p q) ∧
    decode (0x0035#16 ++ p ++ q ++ 0#16 ++ 0#16) = .ok (.objshape p q) ∧
    decode (0x0036#16 ++ p ++ q ++ 0#16 ++ 0#16) = .ok (.objsize p q) ∧
    decode (0x0037#16 ++ p ++ q ++ 0#16 ++ 0#16) = .ok (.objaffidx p q) ∧
    decode (0x0038#16 ++ p ++ q ++ 0#16 ++ 0#16) = .ok (.objhflip p q) ∧
    decode (0x0039#16 ++ p ++ q ++ 0#16 ++ 0#16) = .ok (.objvflip p q) ∧
    decode (0x003A#16 ++ p ++ q ++ 0#16 ++ 0#16) = .ok (.objtile p q) ∧
    decode (0x003B#16 ++ p ++ q ++ 0#16 ++ 0#16) = .ok (.objprio p q) ∧
    decode (0x003C#16 ++ p ++ q ++ 0#16 ++ 0#16) = .ok (.objpal p q) ∧
    decode (0x003D#16 ++ p ++ q ++ r ++ 0#16) = .ok (.affset p q r) ∧
    decode (0x003E#16 ++ 0#16 ++ 0#16 ++ 0#16 ++ 0#16) = .ok (.commit)

/-- Words written out from R60 and R62, one per unit and format, decode to the command they stand for. -/
def Obligations.WordsWrittenFromTheEncodingDecode : Prop :=
  decode 0x000102010002000E0003#80 = .ok (.setbits 0x0201 2 0x000E 3) ∧
  decode 0x00020201000000000000#80 = .ok (.rdcell 0x0201) ∧
  decode 0x00150000000800000000#80 = .ok (.bgsbb 0 8) ∧
  decode 0x00200003002100410000#80 = .ok (.rblk 3 33 65) ∧
  decode 0x002400000021001F5523#80 = .ok (.mapwr 0 33 31 0x5523) ∧
  decode 0x0030007F012CFFFB0000#80 = .ok (.objpos 127 300 0xFFFB) ∧
  decode 0x003D0001000201000000#80 = .ok (.affset 1 2 0x0100) ∧
  decode 0x003E0000000000000000#80 = .ok .commit

/-- Exactly the words that fail the checks of R63 steps 2 and 3 name no command, and they end `ILLEGAL` with no effect
(R66); the all-zero word is one of them. -/
def Obligations.ReservedWordsEndIllegal : Prop :=
  (∀ (s : State) (w : CommandWord) (rest : List Input), Claims.presented s w rest → s.halt = false →
    ¬ Claims.legalWord w → step s = .next (Claims.answered { s with inputs := rest } .illegal 0)) ∧
  (∀ w : CommandWord, Claims.legalWord w → ∃ i, decode w = .ok i) ∧
  ¬ Claims.legalWord 0#80

/-! ### The step -/

/-- A step runs the command that the word presented next decodes to, the word taken from the inputs, whether the main flow
or the dispatch routine presents it (R60, R65, R49). -/
def Obligations.StepRunsTheDecodedCommand : Prop :=
  ∀ (s : State) (w : CommandWord) (rest : List Input) (i : Instr), Claims.presented s w rest → decode w = .ok i →
    step s = exec i { s with inputs := rest }

/-- The checks before a command runs, in the order of R63: halted, then the word, then the selecting operand, each with no
access and no change; then the command runs, and it never answers `ILLEGAL`. -/
def Obligations.ChecksBeforeACommandRuns : Prop :=
  ∀ (s : State) (w : CommandWord) (rest : List Input), Claims.presented s w rest →
    (s.halt = true → step s = .next (Claims.answered { s with inputs := rest } .aborted 0)) ∧
    (s.halt = false → ¬ Claims.legalWord w → step s = .next (Claims.answered { s with inputs := rest } .illegal 0)) ∧
    (∀ i, s.halt = false → encode i = w → i.wellFormed params = false →
      step s = .next (Claims.answered { s with inputs := rest } .illegal 0)) ∧
    (∀ i, s.halt = false → encode i = w → i.wellFormed params = true →
      step s = exec i { s with inputs := rest } ∧
      ∃ t status result, step s = .next t ∧ t.lastResponse = some (status, result) ∧ status ≠ .illegal)

/-- With no input the machine waits and nothing changes (R180 "it waits for the first command"; log entry 6). -/
def Obligations.IdleStepChangesNothing : Prop :=
  ∀ s : State, s.inputs = [] → step s = .next s

/-- Which input comes next (R49, R165 to R168): the first pending one that can come; the inputs of one source come in their
order, the others stay. Where none can come nothing changes (log entry 6). The main flow's come exactly where it runs (it is
neither suspended nor hung) and no dispatch routine preempts it; the hardware's, and a reset (R180), always; the routine's
return exactly while it runs, and its commands only while it handles a vblank interrupt (R168), always then where it
preempts a running main flow. A command of the routine that it does not present is no part of its run and is passed over.
The order of the inputs and that command are log entries 11 and 30, and that a hung flow keeps its inputs while the others
still come is log entry 22; what the routine presents during a wait is VblankWaitReturnsInTheSafeWindow. -/
def Obligations.InputsComeWhenTheirSourceCanAct : Prop :=
  ∀ s : State,
    (∀ x rest, s.nextInput = some (x, rest) ↔
      ∃ pre post, s.inputs = pre ++ x :: post ∧ rest = pre.filter (fun y => !s.excludes y) ++ post ∧
        s.admits x = true ∧ ∀ y ∈ pre, s.admits y = false) ∧
    ((∀ y ∈ s.inputs, s.admits y = false) → step s = .next s) ∧
    (∀ x y, s.admits x = true → y.source = x.source → s.admits y = false → s.excludes y = true) ∧
    (∀ y, s.excludes y = true → s.admits y = false ∧ s.env.routine ≠ none ∧
      ∃ w n, y = .handlerCommand w ∨ y = .handlerCommandCut w n) ∧
    (∀ (w : CommandWord) (n : Nat) (handler : Wide) (k : IrqKind),
      ∀ x ∈ [Input.command w, .commandCut w n, .env (.init handler), .env (.enableType k), .env .enableGlobally,
          .env .waitVblank],
        s.admits x = true ↔ s.env.flow = .running ∧ s.env.routine = none) ∧
    (∀ (k : IrqKind) (safe : Bool), ∀ x ∈ [Input.reset, .env (.assertIrq k), .env .dispatch, .env (.scanout safe)],
      s.admits x = true) ∧
    (s.admits (.env .dispatchReturn) = true ↔ s.env.routine ≠ none) ∧
    (∀ (w : CommandWord) (n : Nat), ∀ x ∈ [Input.handlerCommand w, .handlerCommandCut w n],
      (s.admits x = true → ∃ fired, s.env.routine = some fired ∧ inMask fired .vblank = true) ∧
      (∀ fired, s.env.routine = some fired → inMask fired .vblank = true → s.env.flow = .running → s.admits x = true))

/-- Reset at any time takes the reset state, whatever the state was, and gives no response; `DISPCNT`, `BGCNT`, `OAM` and
`MAP` take a free draw (R180, R25; that the pending inputs and the record are kept is the model's own, log entry 19; that the
enabled mask is zero is log entry 8). -/
def Obligations.ResetRestoresTheResetState : Prop :=
  ∀ (s : State) (rest : List Input), s.nextInput = some (.reset, rest) →
    ∃ t draw, step s = .next t ∧ Claims.ResetValues t draw ∧ t.inputs = rest ∧ t.trace = .reset :: s.trace

/-- A reset inside a command, the main flow's or the dispatch routine's, drops it without a response (R180): of the accesses the
command makes when it is not cut, the first `n` are in the record, and the state is the reset state (its zero enabled mask:
log entry 8). How many came before the reset is the input's (log entry 19). -/
def Obligations.ResetInsideACommandDropsIt : Prop :=
  ∀ (s : State) (w : CommandWord) (n : Nat) (rest : List Input),
    s.nextInput = some (.commandCut w n, rest) ∨ s.nextInput = some (.handlerCommandCut w n, rest) →
    ∃ u t draw status result accesses done,
      runWord w { s with inputs := rest } = .next u ∧
      u.trace = .respond status result :: (accesses ++ s.trace) ∧
      step s = .next t ∧ Claims.ResetValues t draw ∧ t.inputs = rest ∧
      t.trace = .reset :: (done ++ s.trace) ∧ done.reverse = accesses.reverse.take n

/-- The machine right after reset (R25): the shadow table zero, not halted, the environment uninitialized with nothing
enabled (the mask as the number zero: log entry 8); `DISPCNT`, `BGCNT`, `OAM` and `MAP` at the reset's draw. -/
def Obligations.ResetLeavesTheShadowZero : Prop :=
  Claims.ResetValues State.reset 0

/-! ### Exceptions -/

/-- `SizeAbort` (R151): RBLK with a size above 3 sets `HALT` and answers `ABORTED`, everything else intact; no other command
sets `HALT`; while it is set every command, and every word that is no command, answers `ABORTED` and changes nothing; only a
reset clears it. -/
def Obligations.SizeAbortHaltsTheBlock : Prop :=
  (∀ (size x y : Word) (s : State), s.halt = false → 3 < size.toNat →
    exec (.rblk size x y) s = .next (Claims.answered { s with halt := true } .aborted 0)) ∧
  (∀ (i : Instr) (s t : State), exec i s = .next t → s.halt = false → t.halt = true →
    ∃ size x y, i = .rblk size x y ∧ 3 < size.toNat) ∧
  (∀ (i : Instr) (s : State), s.halt = true → exec i s = .next (Claims.answered s .aborted 0)) ∧
  (∀ (s : State) (w : CommandWord) (rest : List Input), Claims.presented s w rest → s.halt = true →
    step s = .next (Claims.answered { s with inputs := rest } .aborted 0)) ∧
  (∀ s t : State, step s = .next t → s.halt = true → t.halt = false →
    ∃ x rest, s.nextInput = some (x, rest) ∧ Claims.resets x = true)

/-- `IllegalCommand` for a selector out of range (R63 step 4, R153): no access, answer `ILLEGAL`, nothing latched; for every
command and every state that is not halted. -/
def Obligations.SelectorOutOfRangeIsIllegal : Prop :=
  ∀ (i : Instr) (s : State), s.halt = false → i.wellFormed params = false →
    exec i s = .next (Claims.answered s .illegal 0)

/-- The order of the checks (R154): the selector range before the command's own check, the reserved fields before the size
check, and halted before everything. -/
def Obligations.ChecksHavePriority : Prop :=
  (∀ (bg value : Word) (s : State), s.halt = false → 3 < bg.toNat →
    exec (.bgsbb bg value) s = .next (Claims.answered s .illegal 0)) ∧
  (∀ (s : State) (w : CommandWord) (rest : List Input), Claims.presented s w rest → s.halt = false →
    w.extractLsb' 64 16 = 0x0020#16 → w.extractLsb' 0 16 ≠ 0#16 →
      step s = .next (Claims.answered { s with inputs := rest } .illegal 0)) ∧
  (∀ (bg value : Word) (s : State), s.halt = true →
    exec (.bgsbb bg value) s = .next (Claims.answered s .aborted 0))

/-- Every exception is precise (R155): a command that answers anything but `OK` has changed nothing but its response and,
for `SizeAbort`, `HALT` (the table of R150). -/
def Obligations.ExceptionsArePrecise : Prop :=
  ∀ (i : Instr) (s t : State) (status : Status) (result : Wide), exec i s = .next t →
    t.lastResponse = some (status, result) → status ≠ .ok →
      t = Claims.answered { s with halt := t.halt } status 0 ∧
      (t.halt = s.halt ∨ (status = .aborted ∧ t.halt = true ∧ ∃ size x y, i = .rblk size x y ∧ 3 < size.toNat))

/-! ### Whole-machine rules -/

/-- Every command ends, with exactly one response, its last event (R64, R65); no result but 0 without `OK`. -/
def Obligations.EveryCommandAnswersOnce : Prop :=
  ∀ (i : Instr) (s : State), ∃ (t : State) (accesses : List Event) (status : Status) (result : Wide),
    exec i s = .next t ∧ t.trace = .respond status result :: (accesses ++ s.trace) ∧
    (∀ e ∈ accesses, Claims.isAccess e = true) ∧ (status ≠ .ok → result = 0 ∧ accesses = [])

/-- Nothing stops the machine: every step has a next state (R65, R155, R167 "a hang, not a fault"). The main flow begins to
hang in two cases only: before `init()` it enables or waits (R167), which a SETBITS or WRCELL of `EXT[1]` or `EXT[3]` can do
too (R161; the command itself answers `OK`, R156; log entry 26); or it waits while vblank is not enabled (R166, R167; log
entry 11). No other command, no reset and nothing the hardware does makes it hang. That a hang is a main flow that stays
hung is log entry 22. -/
def Obligations.NothingStopsAndOnlyEarlyEnablingOrWaitingHangs : Prop :=
  ∀ s : State, ∃ t, step s = .next t ∧
    (t.env.flow = .hung → s.env.flow = .hung ∨
      (s.env.phase = .uninitialized ∧ ∃ rest,
        (∃ k, s.nextInput = some (.env (.enableType k), rest)) ∨ s.nextInput = some (.env .enableGlobally, rest) ∨
        s.nextInput = some (.env .waitVblank, rest) ∨
        ∃ w i, Claims.presented s w rest ∧ decode w = .ok i ∧ Claims.writesAnEnable i ∧
          t.lastResponse = some (.ok, 0)) ∨
      (s.env.phase = .initialized ∧ (∃ rest, s.nextInput = some (.env .waitVblank, rest)) ∧
        (inMask s.env.enabled .vblank = false ∨ s.env.vblankRaised = false ∨ s.env.masterOn = false)))

/-- The block cannot see the environment (R136 "The block cannot see `oam_safe`", R157): a command run under another
environment does the same in all but the environment, whatever `oam_safe` and the interrupts are. It touches the
environment in two ways only: a write to an external cell may change the four registers `EXT[0]` to `EXT[3]`, or hang the
main flow before `init()`, and nothing else (what it makes of them, the registers' reading of the value written, is log
entry 14, the hang log entry 26), and `oam_safe` may change while a COMMIT runs (log entry 25). That an RDCELL of an
external cell changes nothing of the environment is log entry 28 (R45 leaves side effects on a read open). -/
def Obligations.CommandsDoNotSeeTheEnvironment : Prop :=
  ∀ (i : Instr) (s t : State) (e : Environment), exec i s = .next t →
    (∃ e', exec i { s with env := e } = .next { t with env := e' }) ∧
    (¬ Claims.writesExternalCell i → i ≠ .commit → t.env = s.env) ∧
    (i = .commit → t.env = { s.env with oamSafe := t.env.oamSafe }) ∧
    (Claims.writesExternalCell i → t.env =
      { s.env with
        displayStatus := t.env.displayStatus
        enabled := t.env.enabled
        asserted := t.env.asserted
        masterEnable := t.env.masterEnable
        flow := t.env.flow }) ∧
    (t.env.flow = s.env.flow ∨ s.env.phase = .uninitialized ∧ t.env.flow = .hung ∧ Claims.writesAnEnable i) ∧
    (∀ sel value k, i = .wrcell sel value → cellOf params sel = some (.ext k) → s.halt = false →
      ∃ keep, t.env = s.env.extWrite k value keep)

/-- No command reads `MAP` or `OAM` (R18, R19, R187): whatever they hold, every command answers the same and leaves the same
state apart from them. -/
def Obligations.CommandsDoNotReadMapOrOam : Prop :=
  ∀ (i : Instr) (s t : State) (m : Memory), exec i s = .next t →
    ∃ m', exec i { s with mem := m } = .next { t with mem := m' }

/-- The commands that write each space (R40): only DISPSET and the cell commands change `DISPCNT`; only the `BG*` setters and
the cell commands change `BGCNT`; only the `OBJ*` setters, AFFSET and the cell commands change `SHADOW`; only MAPWR changes
a byte of `MAP` and only COMMIT a byte of `OAM`. That a MAPWR whose target lies outside the tile map changes no byte of
`OAM` is the model's choice (log entry 12). -/
def Obligations.EachSpaceHasItsWriters : Prop :=
  ∀ (i : Instr) (s t : State), exec i s = .next t →
    (i.mnemonic ∉ ["DISPSET", "SETBITS", "WRCELL"] → t.dispcnt = s.dispcnt) ∧
    (i.mnemonic ∉ ["BGPRIO", "BGTBANK", "BGCDEPTH", "BGSIZE", "BGSBB", "BGSBBU", "SETBITS", "WRCELL"] →
      t.bgcnt = s.bgcnt) ∧
    (i.mnemonic ∉ ["OBJPOS", "OBJMODE", "OBJGFX", "OBJMOSAIC", "OBJCDEPTH", "OBJSHAPE", "OBJSIZE", "OBJAFFIDX",
        "OBJHFLIP", "OBJVFLIP", "OBJTILE", "OBJPRIO", "OBJPAL", "AFFSET", "SETBITS", "WRCELL"] →
      t.shadow = s.shadow) ∧
    (i.mnemonic ≠ "MAPWR" → ∀ a, inMapBytes a → t.byteAt a = s.byteAt a) ∧
    (i.mnemonic ≠ "COMMIT" → ∀ a, inOamBytes a → t.byteAt a = s.byteAt a) ∧
    (i.mnemonic ∉ ["MAPWR", "COMMIT"] → t.mem = s.mem)

/-- The counter of draws, the model's own (log entry 19), moves only at a command with a free value: a read of an external cell
(R23), a write of one (log entry 14: what the environment keeps under the zeros), and a COMMIT (R135; its order, log entry 13,
and what becomes of the window, log entry 25). The counts are the model's: a command that accesses no external cell and
commits nothing uses none (a SETBITS, RDCELL or WRCELL whose selector names a shadow word, `DISPCNT`, `BGCNT` or no cell is
such a command), a SETBITS none or two, every other command at most one, and none changes what unwritten memory holds. -/
def Obligations.FreeValuesAreUsedOnlyWhereTheSpecHasThem : Prop :=
  ∀ (i : Instr) (s t : State), exec i s = .next t →
    (¬ Claims.accessesExternalCell i → i ≠ .commit → t.draws = s.draws) ∧
    (i.mnemonic ≠ "SETBITS" → t.draws = s.draws ∨ t.draws = s.draws + 1) ∧
    (i.mnemonic = "SETBITS" → t.draws = s.draws ∨ t.draws = s.draws + 2) ∧
    t.resetDraw = s.resetDraw

/-! ### The invariant -/

/-- Every step keeps the invariant of the machine (`State.Inv`), from every state that meets it. Its clauses on the
zero dispatch slot, the zero mirror, the zero enabled mask, the master flag off and no dispatch routine at work before
`init()` rest, at a reset, on log entry 8; that nothing is enabled before `init()` also rests on log entry 26 (a cell write
that enables too early changes no register). -/
def Obligations.EveryStepKeepsTheInvariantOfTheMachine : Prop :=
  ∀ s t : State, s.Inv → step s = .next t → t.Inv

/-- The reset state meets the invariant of the machine; that the dispatch slot, the mirror and the enabled mask are zero, the
master flag off and no dispatch routine at work then is log entry 8. -/
def Obligations.ResetMeetsTheInvariantOfTheMachine : Prop := State.reset.Inv

/-! ### The BitField unit -/

/-- The field insert (R84): the formula on exact numbers, its bits, its degenerate cases, idempotence, and inserts into
disjoint ranges commute. -/
def Obligations.FieldInsertComputesTheFormula : Prop :=
  ∀ (old value : Word) (width shift : Nat),
    (bf old value width shift).toNat =
      ((old.toNat &&& (0xFFFF - ((2 ^ min width 16 - 1) <<< shift) % 2 ^ 16)) |||
        ((value.toNat % 2 ^ min width 16) <<< shift) % 2 ^ 16) ∧
    (∀ i, i < 16 → (bf old value width shift).getLsbD i =
      if shift ≤ i ∧ i < shift + min width 16 then value.getLsbD (i - shift) else old.getLsbD i) ∧
    bf old value 0 shift = old ∧
    (16 ≤ shift → bf old value width shift = old) ∧
    bf old value 16 0 = value ∧
    (∀ b, bf (bf old value width shift) b width shift = bf old b width shift) ∧
    (∀ b width' shift', shift + width ≤ shift' ∨ shift' + width' ≤ shift →
      bf (bf old value width shift) b width' shift' = bf (bf old b width' shift') value width shift)

/-- The document's property of the field insert (R85): within the precondition the field reads back as the masked value and
every other bit is preserved. -/
def Obligations.FieldInsertPreservesOtherBits : Prop :=
  ∀ (old value : Word) (width shift : Nat), shift + width ≤ 16 →
    getField ⟨shift, width⟩ (bf old value width shift) = value.toNat % 2 ^ width ∧
    ∀ i, i < 16 → (i < shift ∨ shift + width ≤ i) → (bf old value width shift).getLsbD i = old.getLsbD i

/-- SETBITS (R81), on every kind of cell and for every width and shift, within the precondition or not (R86): one read, then
one write of the value `bf` computes from the value read, always both; what is written to an external cell is handed to the
environment, which does with it what it does (R23); a selector that names no cell is illegal. -/
def Obligations.SetbitsReadsThenWritesTheCell : Prop :=
  (∀ sel value width shift : Word,
    encode (.setbits sel value width shift) = 0x0001#16 ++ sel ++ value ++ width ++ shift) ∧
  ∀ (sel value width shift : Word) (s : State), s.halt = false →
    (∀ i : Fin 512, sel.toNat = i.val →
      exec (.setbits sel value width shift) s =
        .next (Claims.shadowUpdated s i (bf s.shadow[i] value width.toNat shift.toNat))) ∧
    (sel.toNat = 0x0200 →
      exec (.setbits sel value width shift) s =
        .next { s with
          dispcnt := bf s.dispcnt value width.toNat shift.toNat
          trace := .respond .ok 0 :: .cellWrite .dispcnt (bf s.dispcnt value width.toNat shift.toNat) ::
            .cellRead .dispcnt s.dispcnt :: s.trace }) ∧
    (∀ n : Fin 4, sel.toNat = 0x0201 + n.val →
      exec (.setbits sel value width shift) s =
        .next (Claims.bgcntUpdated s n (bf s.bgcnt[n] value width.toNat shift.toNat))) ∧
    (∀ k : Nat, k < params.extN → sel.toNat = 0x0210 + k →
      ∃ e : Environment, exec (.setbits sel value width shift) s =
        .next { s with
          env := e
          draws := s.draws + 2
          trace := .respond .ok 0 ::
            .cellWrite (.ext k) (bf (Config.envRead k s.draws) value width.toNat shift.toNat) ::
            .cellRead (.ext k) (Config.envRead k s.draws) :: s.trace }) ∧
    ((0x0205 ≤ sel.toNat ∧ sel.toNat ≤ 0x020F) ∨ 0x0210 + params.extN ≤ sel.toNat →
      exec (.setbits sel value width shift) s = .next (Claims.answered s .illegal 0))

/-- RDCELL (R82): exactly one read, the value read is the result; an external cell gives whatever the environment supplies,
a fresh value at each read; a selector that names no cell is illegal. That the environment's registers stay at a read of an
external cell is log entry 28 (DESIGN CHOICE: R45 leaves side effects on a read open). -/
def Obligations.RdcellAnswersTheCell : Prop :=
  (∀ sel : Word, encode (.rdcell sel) = 0x0002#16 ++ sel ++ 0#16 ++ 0#16 ++ 0#16) ∧
  ∀ (sel : Word) (s : State), s.halt = false →
    (∀ i : Fin 512, sel.toNat = i.val →
      exec (.rdcell sel) s = .next { s with
        trace := .respond .ok (s.shadow[i].setWidth 32) :: .cellRead (.shadow i) s.shadow[i] :: s.trace }) ∧
    (sel.toNat = 0x0200 →
      exec (.rdcell sel) s = .next { s with
        trace := .respond .ok (s.dispcnt.setWidth 32) :: .cellRead .dispcnt s.dispcnt :: s.trace }) ∧
    (∀ n : Fin 4, sel.toNat = 0x0201 + n.val →
      exec (.rdcell sel) s = .next { s with
        trace := .respond .ok (s.bgcnt[n].setWidth 32) :: .cellRead (.bgcnt n) s.bgcnt[n] :: s.trace }) ∧
    (∀ k : Nat, k < params.extN → sel.toNat = 0x0210 + k →
      exec (.rdcell sel) s = .next { s with
        draws := s.draws + 1
        trace := .respond .ok ((Config.envRead k s.draws).setWidth 32) ::
          .cellRead (.ext k) (Config.envRead k s.draws) :: s.trace }) ∧
    ((0x0205 ≤ sel.toNat ∧ sel.toNat ≤ 0x020F) ∨ 0x0210 + params.extN ≤ sel.toNat →
      exec (.rdcell sel) s = .next (Claims.answered s .illegal 0))

/-- WRCELL (R83): exactly one write of the whole cell and no read; a write to an external cell is handed to the environment
and changes nothing in the block, whatever the environment does with it (R23); a selector that names no cell is illegal. -/
def Obligations.WrcellOverwritesTheCell : Prop :=
  (∀ sel value : Word, encode (.wrcell sel value) = 0x0003#16 ++ sel ++ value ++ 0#16 ++ 0#16) ∧
  ∀ (sel value : Word) (s : State), s.halt = false →
    (∀ i : Fin 512, sel.toNat = i.val →
      exec (.wrcell sel value) s = .next { s with
        shadow := s.shadow.set i value
        trace := .respond .ok 0 :: .cellWrite (.shadow i) value :: s.trace }) ∧
    (sel.toNat = 0x0200 →
      exec (.wrcell sel value) s = .next { s with
        dispcnt := value
        trace := .respond .ok 0 :: .cellWrite .dispcnt value :: s.trace }) ∧
    (∀ n : Fin 4, sel.toNat = 0x0201 + n.val →
      exec (.wrcell sel value) s = .next { s with
        bgcnt := s.bgcnt.set n value
        trace := .respond .ok 0 :: .cellWrite (.bgcnt n) value :: s.trace }) ∧
    (∀ k : Nat, k < params.extN → sel.toNat = 0x0210 + k →
      ∃ e : Environment, exec (.wrcell sel value) s = .next { s with
        env := e
        draws := s.draws + 1
        trace := .respond .ok 0 :: .cellWrite (.ext k) value :: s.trace }) ∧
    ((0x0205 ≤ sel.toNat ∧ sel.toNat ≤ 0x020F) ∨ 0x0210 + params.extN ≤ sel.toNat →
      exec (.wrcell sel value) s = .next (Claims.answered s .illegal 0))

/-- The selector map (R41): the cell each selector names, the selectors outside the table naming none, and a cell command on
those answers `ILLEGAL` with no access. R41's table is that of `EXT_N` 16, the default; that the selectors of the external
cells end at `0x0210 + EXT_N` for another `EXT_N` (R5) is log entry 23 (DEDUCED). -/
def Obligations.SelectorsNameTheirCells : Prop :=
  (∀ c : Cell, (∀ k, c = .ext k → k < params.extN) → cellOf params (selectorOf c) = some c) ∧
  (∀ (P : Params) (sel : Word), (cellOf P sel = none ↔
    (0x0205 ≤ sel.toNat ∧ sel.toNat ≤ 0x020F) ∨ 0x0210 + P.extN ≤ sel.toNat)) ∧
  (∀ (sel value width shift : Word) (s : State), s.halt = false →
    (0x0205 ≤ sel.toNat ∧ sel.toNat ≤ 0x020F) ∨ 0x0210 + params.extN ≤ sel.toNat →
      exec (.setbits sel value width shift) s = .next (Claims.answered s .illegal 0) ∧
      exec (.rdcell sel) s = .next (Claims.answered s .illegal 0) ∧
      exec (.wrcell sel value) s = .next (Claims.answered s .illegal 0))

/-! ### The display registers -/

/-- DISPSET (R90): one write of the whole register, no read, every value stored unchanged; the same as WRCELL of selector
0x0200. -/
def Obligations.DispsetOverwritesTheRegister : Prop :=
  (∀ value : Word, encode (.dispset value) = 0x0010#16 ++ value ++ 0#16 ++ 0#16 ++ 0#16) ∧
  ∀ (value : Word) (s : State),
    (s.halt = false → exec (.dispset value) s = .next { s with
      dispcnt := value
      trace := .respond .ok 0 :: .cellWrite .dispcnt value :: s.trace }) ∧
    exec (.dispset value) s = exec (.wrcell 0x0200 value) s

/-- The per-background setters (R91; BGPRIO, BGTBANK, BGCDEPTH, BGSIZE, BGSBBU of R92 to R95, R97): one read and one write of
`BGCNT[bg]`, the operand's low bits in the field, every other bit and everything else kept; a `bg` above 3 answers `ILLEGAL`
with no access. -/
def Obligations.BackgroundSettersInsertTheirField : Prop :=
  ∀ (bg value : Word) (s : State), s.halt = false →
    ∀ p ∈ [(Instr.bgprio bg value, params.layout.bgcnt.prio), (.bgtbank bg value, params.layout.bgcnt.tbank),
        (.bgcdepth bg value, params.layout.bgcnt.cdepth), (.bgsize bg value, params.layout.bgcnt.size),
        (.bgsbbu bg value, params.layout.bgcnt.sbb)],
      (∀ n : Fin 4, bg.toNat = n.val → ∃ new, FieldInserted p.2 s.bgcnt[n] value new ∧
        exec p.1 s = .next (Claims.bgcntUpdated s n new)) ∧
      (4 ≤ bg.toNat → exec p.1 s = .next (Claims.answered s .illegal 0))

/-- BGSBB, the checked entry point (R96): a value in [0,31] goes into the screen-base field, a larger one is rejected with no
access, and a `bg` above 3 is checked first. -/
def Obligations.CheckedScreenBaseSetter : Prop :=
  (∀ bg value : Word, encode (.bgsbb bg value) = 0x0015#16 ++ bg ++ value ++ 0#16 ++ 0#16) ∧
  ∀ (bg value : Word) (s : State), s.halt = false →
    (∀ n : Fin 4, bg.toNat = n.val → value.toNat ≤ 31 → ∃ new,
      FieldInserted params.layout.bgcnt.sbb s.bgcnt[n] value new ∧
      exec (.bgsbb bg value) s = .next (Claims.bgcntUpdated s n new)) ∧
    (bg.toNat < 4 → 31 < value.toNat → exec (.bgsbb bg value) s = .next (Claims.answered s .rejected 0)) ∧
    (4 ≤ bg.toNat → exec (.bgsbb bg value) s = .next (Claims.answered s .illegal 0))

/-- For a value up to 31 the checked and the unchecked setter do the same, and the unchecked one stores a larger value modulo
32 (R97), in the default layout. -/
def Obligations.UncheckedScreenBaseSetterMasks : Prop :=
  ∀ (bg value : Word) (s : State),
    (value.toNat ≤ 31 → exec (.bgsbbu bg value) s = exec (.bgsbb bg value) s) ∧
    ∀ (n : Fin 4) (t : State), s.halt = false → bg.toNat = n.val → exec (.bgsbbu bg value) s = .next t →
      getField params.layout.bgcnt.sbb t.bgcnt[n] = value.toNat % 32 ∧
      getField params.layout.bgcnt.size t.bgcnt[n] = getField params.layout.bgcnt.size s.bgcnt[n]

/-! ### The tile-address resolver -/

/-- RBLK (R104, R101): the block index of the size the code names, for every 16-bit coordinate; a size above 3 aborts. -/
def Obligations.RblkAnswersTheBlockIndex : Prop :=
  (∀ size x y : Word, encode (.rblk size x y) = 0x0020#16 ++ size ++ x ++ y ++ 0#16) ∧
  ∀ (size x y : Word) (s : State), s.halt = false →
    (size.toNat = 0 → exec (.rblk size x y) s = .next (Claims.answered s .ok 0)) ∧
    (size.toNat = 1 → exec (.rblk size x y) s = .next (Claims.answered s .ok (if 32 ≤ x.toNat then 1 else 0))) ∧
    (size.toNat = 2 → exec (.rblk size x y) s = .next (Claims.answered s .ok (if 32 ≤ y.toNat then 1 else 0))) ∧
    (size.toNat = 3 → ∃ r : Wide, r.toNat = x.toNat / 32 + 2 * (y.toNat / 32) ∧
      exec (.rblk size x y) s = .next (Claims.answered s .ok r)) ∧
    (3 < size.toNat → exec (.rblk size x y) s = .next (Claims.answered { s with halt := true } .aborted 0))

/-- ROFF (R105, R102): the in-block offset, always in [0, 1023], for every 16-bit coordinate. -/
def Obligations.RoffAnswersTheOffset : Prop :=
  (∀ x y : Word, encode (.roff x y) = 0x0021#16 ++ x ++ y ++ 0#16 ++ 0#16) ∧
  ∀ (x y : Word) (s : State), s.halt = false →
    ∃ r : Wide, r.toNat = x.toNat % 32 + 32 * (y.toNat % 32) ∧ r.toNat ≤ 1023 ∧
      exec (.roff x y) s = .next (Claims.answered s .ok r)

/-- ENCSE (R106, R103): the screen-entry word, every argument masked to its field (default layout). -/
def Obligations.EncseAnswersTheScreenEntry : Prop :=
  ∀ (tileId hflip vflip paletteBank : Word) (s : State), s.halt = false →
    ∃ r : Wide, r.toNat = tileId.toNat % 1024 + 1024 * (hflip.toNat % 2) + 2048 * (vflip.toNat % 2) +
        4096 * (paletteBank.toNat % 16) ∧
      exec (.encse tileId hflip vflip paletteBank) s = .next (Claims.answered s .ok r)

/-- The round trip of a screen entry (R111): each field read back is the masked input. -/
def Obligations.ScreenEntryFieldsReadBack : Prop :=
  ∀ t h v b : Word,
    getField params.layout.entry.tile (enc params t h v b) = t.toNat % 1024 ∧
    getField params.layout.entry.hflip (enc params t h v b) = h.toNat % 2 ∧
    getField params.layout.entry.vflip (enc params t h v b) = v.toNat % 2 ∧
    getField params.layout.entry.palbank (enc params t h v b) = b.toNat % 16

/-- The index of the tile-map entry a background's register and a coordinate address, written from R101, R102 and R107: the
screen-base block and the size code are fields of the register. -/
def Sys2Proof.Claims.targetIndex (g x y : Word) : Nat :=
  let block :=
    match getField params.layout.bgcnt.size g with
    | 0 => 0
    | 1 => if 32 ≤ x.toNat then 1 else 0
    | 2 => if 32 ≤ y.toNat then 1 else 0
    | _ => x.toNat / 32 + 2 * (y.toNat / 32)
  1024 * (getField params.layout.bgcnt.sbb g + block) + (x.toNat % 32 + 32 * (y.toNat % 32))

/-- TADDR (R108, R107): one read of `BGCNT[bg]`, nothing written; the result is the target address, also where it lies outside
the tile map; a `bg` above 3 is illegal. -/
def Obligations.TaddrAnswersTheTargetAddress : Prop :=
  (∀ bg x y : Word, encode (.taddr bg x y) = 0x0023#16 ++ bg ++ x ++ y ++ 0#16) ∧
  ∀ (bg x y : Word) (s : State), s.halt = false →
    (∀ n : Fin 4, bg.toNat = n.val → ∃ r : Wide,
      r.toNat = (params.tilemapBase + Claims.targetIndex s.bgcnt[n] x y) % 2 ^ 32 ∧
      exec (.taddr bg x y) s = .next { s with
        trace := .respond .ok r :: .cellRead (.bgcnt n) s.bgcnt[n] :: s.trace }) ∧
    (4 ≤ bg.toNat → exec (.taddr bg x y) s = .next (Claims.answered s .illegal 0))

/-- MAPWR (R109, R112): one read of `BGCNT[bg]`, one write on the memory port at the target address; inside the tile map the
entry takes the value and every byte outside its two bytes reads as before; outside the tile map no byte changes, which is
the model's choice (log entry 12: the spec says only that `MAP` is not changed); a `bg` above 3 is illegal. -/
def Obligations.MapwrWritesTheTargetEntry : Prop :=
  (∀ bg x y entry : Word, encode (.mapwr bg x y entry) = 0x0024#16 ++ bg ++ x ++ y ++ entry) ∧
  ∀ (bg x y entry : Word) (s : State), s.halt = false →
    (∀ n : Fin 4, bg.toNat = n.val → ∃ (address : Wide) (m : Memory),
      address.toNat = (params.tilemapBase + Claims.targetIndex s.bgcnt[n] x y) % 2 ^ 32 ∧
      exec (.mapwr bg x y entry) s = .next { s with
        mem := m
        trace := .respond .ok 0 :: .portWrite address entry :: .cellRead (.bgcnt n) s.bgcnt[n] :: s.trace } ∧
      (Claims.targetIndex s.bgcnt[n] x y < 32768 →
        m.readWord address.toNat = some entry ∧
        ∀ a, a ≠ 2 * address.toNat → a ≠ 2 * address.toNat + 1 → m.readByte a = s.mem.readByte a) ∧
      (32768 ≤ Claims.targetIndex s.bgcnt[n] x y → ∀ a, m.readByte a = s.mem.readByte a)) ∧
    (4 ≤ bg.toNat → exec (.mapwr bg x y entry) s = .next (Claims.answered s .illegal 0))

/-- The resolver is a bijection (R110): for each size, from the valid coordinates onto the blocks of the size times the offsets
0..1023, and so onto the consecutive map indices from `1024 * sbb`. -/
def Obligations.ResolverIsABijection : Prop :=
  ∀ size : BgSize,
    (∀ x y, x < (extent size).1 → y < (extent size).2 → blk size x y < blocksForSize size ∧ off x y < 1024) ∧
    (∀ b o, b < blocksForSize size → o < 1024 →
      ∃ x y, x < (extent size).1 ∧ y < (extent size).2 ∧ blk size x y = b ∧ off x y = o ∧
        ∀ x' y', x' < (extent size).1 → y' < (extent size).2 → blk size x' y' = b → off x' y' = o →
          x' = x ∧ y' = y) ∧
    (∀ sbb k, k < 1024 * blocksForSize size →
      ∃ x y, x < (extent size).1 ∧ y < (extent size).2 ∧ mapidx sbb size x y = 1024 * sbb + k ∧
        ∀ x' y', x' < (extent size).1 → y' < (extent size).2 → mapidx sbb size x' y' = 1024 * sbb + k →
          x' = x ∧ y' = y)

/-- Coordinates outside the background (R112): for the sizes of one and two blocks they land in the background's own blocks;
for 64×64 a row past 63 gives a block index above 3, and a column past 63 gives 2 plus the block of the column 64 to its
left, above 3 or the block of another tile (`(64, 0)` gives 2, 95_test_vectors.md V4): R101's formula, where R112's remark says
above 3 (log entry 20); a block index never exceeds 6141 and a map index never 6321151 (R6). -/
def Obligations.OutOfRangeCoordinatesFollowTheFormula : Prop :=
  (∀ x y, blk .s32x32 x y = 0) ∧
  (∀ x y, 64 ≤ x → blk .s64x32 x y = 1 ∧ off x y = off (x % 32) y) ∧
  (∀ x y, off x y = off x (y % 32) ∧ blk .s64x32 x y = blk .s64x32 x (y % 32)) ∧
  (∀ x y, 64 ≤ y → blk .s32x64 x y = 1) ∧
  (∀ x y, off x y = off (x % 32) y ∧ blk .s32x64 x y = blk .s32x64 (x % 32) y) ∧
  (∀ x y, 64 ≤ y → 4 ≤ blk .s64x64 x y) ∧
  (∀ x y, 64 ≤ x → blk .s64x64 x y = 2 + blk .s64x64 (x - 64) y) ∧
  blk .s64x64 64 0 = 2 ∧
  (∀ (size : BgSize) (x y : Word) (sbb : Nat), sbb ≤ 31 →
    blk size x.toNat y.toNat ≤ 6141 ∧ mapidx sbb size x.toNat y.toNat ≤ 6321151)

/-! ### The object attribute table and the commit engine -/

/-- OBJPOS (R121): `y` into the low byte of attr0, then `x` into the low nine bits of attr1, each modulo its field, every
other bit kept; an `idx` above 127 is illegal with no access. -/
def Obligations.ObjposSetsBothCoordinates : Prop :=
  (∀ idx x y : Word, encode (.objpos idx x y) = 0x0030#16 ++ idx ++ x ++ y ++ 0#16) ∧
  ∀ (idx x y : Word) (s : State), s.halt = false →
    (∀ e : Fin 128, idx.toNat = e.val → ∃ new0 new1 : Word,
      FieldInserted params.layout.attr0.y s.shadow[attrWord e 0] y new0 ∧
      FieldInserted params.layout.attr1.x s.shadow[attrWord e 1] x new1 ∧
      new0.toNat % 256 = y.toNat % 256 ∧ new1.toNat % 512 = x.toNat % 512 ∧
      exec (.objpos idx x y) s = .next { s with
        shadow := (s.shadow.set (attrWord e 0) new0).set (attrWord e 1) new1
        trace := .respond .ok 0 :: .cellWrite (.shadow (attrWord e 1)) new1 ::
          .cellRead (.shadow (attrWord e 1)) s.shadow[attrWord e 1] :: .cellWrite (.shadow (attrWord e 0)) new0 ::
          .cellRead (.shadow (attrWord e 0)) s.shadow[attrWord e 0] :: s.trace }) ∧
    (128 ≤ idx.toNat → exec (.objpos idx x y) s = .next (Claims.answered s .illegal 0))

/-- The one-field setters of an entry (R120; OBJMODE, OBJGFX, OBJMOSAIC, OBJCDEPTH, OBJSHAPE of attr0, OBJSIZE, OBJAFFIDX,
OBJHFLIP, OBJVFLIP of attr1, OBJTILE, OBJPRIO, OBJPAL of attr2; R122 to R133): one read and one write of the shadow word
`4*idx + w`, the operand's low bits in the field, every other bit and everything else kept, `OAM` among it; an `idx` above
127 is illegal with no access. -/
def Obligations.ObjectSettersInsertTheirField : Prop :=
  ∀ (idx value : Word) (s : State), s.halt = false →
    ∀ p ∈ [(Instr.objmode idx value, (0 : Fin 4), params.layout.attr0.dmode),
        (.objgfx idx value, 0, params.layout.attr0.gmode),
        (.objmosaic idx value, 0, params.layout.attr0.mosaic), (.objcdepth idx value, 0, params.layout.attr0.cdepth),
        (.objshape idx value, 0, params.layout.attr0.shape), (.objsize idx value, 1, params.layout.attr1.size),
        (.objaffidx idx value, 1, params.layout.attr1.affidx), (.objhflip idx value, 1, params.layout.attr1.hflip),
        (.objvflip idx value, 1, params.layout.attr1.vflip), (.objtile idx value, 2, params.layout.attr2.tile),
        (.objprio idx value, 2, params.layout.attr2.prio), (.objpal idx value, 2, params.layout.attr2.palbank)],
      (∀ (e : Fin 128) (i : Fin 512), idx.toNat = e.val → i.val = 4 * e.val + p.2.1.val →
        ∃ new, FieldInserted p.2.2 s.shadow[i] value new ∧ exec p.1 s = .next (Claims.shadowUpdated s i new)) ∧
      (128 ≤ idx.toNat → exec p.1 s = .next (Claims.answered s .illegal 0))

/-- In the default layout the flip flags are bits 3 and 4 of the affine index (R128, R129, R130; general knowledge in the spec,
log entry 2): OBJAFFIDX rewrites both flags, and a flip setter changes the affine index by its bit. -/
def Obligations.FlipFlagsOverlapTheAffineIndex : Prop :=
  ∀ (idx value : Word) (s t : State) (e : Fin 128), s.halt = false → idx.toNat = e.val →
    (exec (.objaffidx idx value) s = .next t →
      getField params.layout.attr1.hflip t.shadow[attrWord e 1] = value.toNat / 8 % 2 ∧
      getField params.layout.attr1.vflip t.shadow[attrWord e 1] = value.toNat / 16 % 2) ∧
    (exec (.objhflip idx value) s = .next t →
      getField params.layout.attr1.affidx t.shadow[attrWord e 1] / 8 % 2 = value.toNat % 2) ∧
    (exec (.objvflip idx value) s = .next t →
      getField params.layout.attr1.affidx t.shadow[attrWord e 1] / 16 % 2 = value.toNat % 2)

/-- AFFSET (R134, R16): one write of the filler word `16n + 4k + 3` and no read; RDCELL of that selector then returns the
value; an `n` above 31 or a `k` above 3 is illegal with no access. -/
def Obligations.AffsetWritesTheAliasedFiller : Prop :=
  ∀ (n k value : Word) (s : State), s.halt = false →
    (∀ i : Fin 512, n.toNat < 32 → k.toNat < 4 → i.val = 16 * n.toNat + 4 * k.toNat + 3 →
      exec (.affset n k value) s = .next { s with
        shadow := s.shadow.set i value
        trace := .respond .ok 0 :: .cellWrite (.shadow i) value :: s.trace } ∧
      ∀ (t : State) (sel : Word), exec (.affset n k value) s = .next t → sel.toNat = i.val →
        ∃ u, exec (.rdcell sel) t = .next u ∧ u.lastResponse = some (.ok, value.setWidth 32)) ∧
    (32 ≤ n.toNat ∨ 4 ≤ k.toNat → exec (.affset n k value) s = .next (Claims.answered s .illegal 0))

/-- No `OBJ*` setter and no display command writes a filler word, so the affine coefficients survive them (R134): only
AFFSET and the cell commands reach a word whose number is 3 modulo 4. -/
def Obligations.SettersKeepTheAffineCoefficients : Prop :=
  ∀ (i : Instr) (s t : State) (f : Fin 512), i.mnemonic ∉ ["AFFSET", "SETBITS", "WRCELL"] → f.val % 4 = 3 →
    exec i s = .next t → t.shadow[f] = s.shadow[f]

/-- A setter touches only its own entry (R120): the words of the other entries are kept. -/
def Obligations.SettersKeepTheOtherEntries : Prop :=
  ∀ (idx value x y : Word) (s t : State) (f : Fin 512), f.val / 4 ≠ idx.toNat →
    ∀ i ∈ [Instr.objpos idx x y, .objmode idx value, .objgfx idx value, .objmosaic idx value, .objcdepth idx value,
        .objshape idx value, .objsize idx value, .objaffidx idx value, .objhflip idx value, .objvflip idx value,
        .objtile idx value, .objprio idx value, .objpal idx value],
      exec i s = .next t → t.shadow[f] = s.shadow[f]

/-- COMMIT (R135, R136): afterwards every word of `OAM` is the shadow word, `SHADOW` and every byte outside `OAM` unchanged;
512 writes on the memory port, each word once at `OAM_BASE + i`, in an order left open; it runs and answers `OK` whatever
`oam_safe` is. Of the environment only `oam_safe` can be another at the response; that it still holds then is the premise
`CommitInWindow` (R197, log entry 25). -/
def Obligations.CommitCopiesTheShadow : Prop :=
  ∀ s : State, s.halt = false →
    ∃ (m : Memory) (order : List (Fin 512)) (safe : Bool), order.Perm (List.finRange 512) ∧
      exec .commit s = .next { s with
        mem := m
        trace := .respond .ok 0 ::
          ((order.map fun i => Event.portWrite (BitVec.ofNat 32 (params.oamBase + i.val)) s.shadow[i]).reverse ++ s.trace)
        env := { s.env with oamSafe := safe }
        draws := s.draws + 1 } ∧
      (CommitInWindow s → safe = true) ∧
      (∀ i : Fin 512, m.readWord ((params.oamBase + i.val) % 2 ^ 32) = some s.shadow[i]) ∧
      (∀ a, a < 2 * params.oamBase ∨ 2 * (params.oamBase + 512) ≤ a → m.readByte a = s.mem.readByte a)

/-- "The state after the command does not depend on" the order of COMMIT's writes (R135): made in any order, each index once,
the 512 writes leave the memory COMMIT leaves. -/
def Obligations.CommitOrderDoesNotMatter : Prop :=
  ∀ (s t : State) (order : List (Fin 512)), s.mem.wf → s.halt = false → order.Perm (List.finRange 512) →
    exec .commit s = .next t →
      t.mem = order.foldl (fun m i => m.writeWord ((params.oamBase + i.val) % 2 ^ 32) s.shadow[i]) s.mem

/-- Committing twice with no change of the shadow between leaves the hardware memory as after the first time (R137). -/
def Obligations.CommitTwiceIsCommitOnce : Prop :=
  ∀ s t u : State, s.mem.wf → s.halt = false → exec .commit s = .next t → exec .commit t = .next u →
    u.mem = t.mem ∧ ∀ i : Fin 512, u.oamWord params i.val = s.shadow[i]

/-! ### Frames -/

/-- A command that stores nothing in memory (every command but MAPWR and COMMIT) leaves every byte of `MAP` and `OAM`; every
command leaves the pending inputs; and a command that writes no external cell and commits nothing leaves the environment (a
write to one may change its four registers, log entry 14; `oam_safe` may change while a COMMIT runs, log entry 25; that an
RDCELL of one changes nothing is log entry 28). -/
def Obligations.CommandsThatStoreNothingKeepMemory : Prop :=
  ∀ (i : Instr) (s t : State), exec i s = .next t →
    t.inputs = s.inputs ∧
    (¬ Claims.writesExternalCell i → i ≠ .commit → t.env = s.env) ∧
    ((∀ bg x y entry, i ≠ .mapwr bg x y entry) → i ≠ .commit → ∀ a, t.byteAt a = s.byteAt a)

/-- MAPWR stores two bytes and no others (R109): every byte outside the word at the address the meaning computes reads as
before, and the registers, the shadow table, `HALT` and the environment are unchanged. For a target outside the tile map
that every byte of `OAM` and `MAP` reads as before is the model's choice (log entry 12: R109 leaves open what that write
hits), and that `oam_safe` stays while the command runs is log entry 25. -/
def Obligations.MapwrKeepsEverythingElse : Prop :=
  ∀ (bg x y entry : Word) (s t : State) (n : Fin 4), exec (.mapwr bg x y entry) s = .next t → bg.toNat = n.val →
    t.shadow = s.shadow ∧ t.dispcnt = s.dispcnt ∧ t.bgcnt = s.bgcnt ∧ t.halt = s.halt ∧ t.draws = s.draws ∧
    t.env = s.env ∧ t.inputs = s.inputs ∧
    ∀ a, a ≠ 2 * (mapAddress params (mapIndexOf params s.bgcnt[n] x y)).toNat →
      a ≠ 2 * (mapAddress params (mapIndexOf params s.bgcnt[n] x y)).toNat + 1 → t.byteAt a = s.byteAt a

/-! ### The parameters -/

/-- The machine takes the record of parameters as an argument (R5), and its commands follow it, whatever it is: every display
and object setter its `Layout`, BGSBB and OBJPOS among them, ENCSE its `Layout`, RBLK its `SizeCode`, TADDR and MAPWR its
`Layout`, `SizeCode` and `TILEMAP_BASE`, COMMIT its `OAM_BASE`, SETBITS, RDCELL and WRCELL its `EXT_N`; a step runs the
command presented, by the main flow or by the dispatch routine, under the record. At the default record it is the machine of
every other statement. The model's own in it: that these are the parameters, and that the selectors of the external cells
end at `0x0210 + EXT_N` for another `EXT_N`, is log entry 23 (DEDUCED); that a MAPWR of index 32768 or more leaves the memory
as it was is log entry 12 (DESIGN CHOICE); the memory of COMMIT computed in descending order is log entry 13 (DESIGN
CHOICE: R135 leaves the order open). -/
def Obligations.TheMachineFollowsItsParameters : Prop :=
  stepWith params = step ∧ machine params = Sys2Proof.core ∧
  ∀ (P : Params) (a b c d : Word) (s : State),
    (∀ w i rest, s.nextInput (execWith P) = some (.command w, rest) ∨
        s.nextInput (execWith P) = some (.handlerCommand w, rest) → decode w = .ok i →
      stepWith P s = execWith P i { s with inputs := rest }) ∧
    (s.halt = false →
      (∀ (n : Fin 4), a.toNat = n.val →
        ∀ p ∈ [(Instr.bgprio a b, P.layout.bgcnt.prio), (.bgtbank a b, P.layout.bgcnt.tbank),
            (.bgcdepth a b, P.layout.bgcnt.cdepth), (.bgsize a b, P.layout.bgcnt.size),
            (.bgsbbu a b, P.layout.bgcnt.sbb)],
          p.2.width ≤ 16 → ∃ new, FieldInserted p.2 s.bgcnt[n] b new ∧
            execWith P p.1 s = .next (Claims.bgcntUpdated s n new)) ∧
      (∀ (n : Fin 4), a.toNat = n.val → b.toNat ≤ 31 → execWith P (.bgsbb a b) s = execWith P (.bgsbbu a b) s) ∧
      (∀ (e : Fin 128), a.toNat = e.val →
        ∀ p ∈ [(Instr.objmode a b, (0 : Fin 4), P.layout.attr0.dmode), (.objgfx a b, 0, P.layout.attr0.gmode),
            (.objmosaic a b, 0, P.layout.attr0.mosaic), (.objcdepth a b, 0, P.layout.attr0.cdepth),
            (.objshape a b, 0, P.layout.attr0.shape), (.objsize a b, 1, P.layout.attr1.size),
            (.objaffidx a b, 1, P.layout.attr1.affidx), (.objhflip a b, 1, P.layout.attr1.hflip),
            (.objvflip a b, 1, P.layout.attr1.vflip), (.objtile a b, 2, P.layout.attr2.tile),
            (.objprio a b, 2, P.layout.attr2.prio), (.objpal a b, 2, P.layout.attr2.palbank)],
          p.2.2.width ≤ 16 → ∃ new, FieldInserted p.2.2 s.shadow[attrWord e p.2.1] b new ∧
            execWith P p.1 s = .next (Claims.shadowUpdated s (attrWord e p.2.1) new)) ∧
      (∀ (e : Fin 128), a.toNat = e.val → P.layout.attr0.y.width ≤ 16 → P.layout.attr1.x.width ≤ 16 →
        ∃ new0 new1 t, FieldInserted P.layout.attr0.y s.shadow[attrWord e 0] c new0 ∧
          FieldInserted P.layout.attr1.x s.shadow[attrWord e 1] b new1 ∧ execWith P (.objpos a b c) s = .next t ∧
          t.shadow = (s.shadow.set (attrWord e 0) new0).set (attrWord e 1) new1) ∧
      (∀ code : Fin 4, a.toNat = code.val → ∃ r : Wide, r.toNat = blk P.sizeCode[code] b.toNat c.toNat ∧
        execWith P (.rblk a b c) s = .next (Claims.answered s .ok r)) ∧
      (P.layout.entry.tile.width ≤ 16 → P.layout.entry.hflip.width ≤ 16 → P.layout.entry.vflip.width ≤ 16 →
        P.layout.entry.palbank.width ≤ 16 → ∃ r : Wide, execWith P (.encse a b c d) s = .next (Claims.answered s .ok r) ∧
          ∀ i, i < 32 → r.getLsbD i = (decide (i < 16) &&
            [(P.layout.entry.tile, a), (P.layout.entry.hflip, b), (P.layout.entry.vflip, c),
              (P.layout.entry.palbank, d)].any fun f =>
                decide (f.1.shift ≤ i ∧ i < f.1.shift + f.1.width) && f.2.getLsbD (i - f.1.shift))) ∧
      (∀ n : Fin 4, a.toNat = n.val → ∀ index, index =
          mapidx (getField P.layout.bgcnt.sbb s.bgcnt[n])
            (sizeOfCode P (getField P.layout.bgcnt.size s.bgcnt[n])) b.toNat c.toNat →
        (∃ r : Wide, r.toNat = (P.tilemapBase + index) % 2 ^ 32 ∧ execWith P (.taddr a b c) s =
          .next { s with trace := .respond .ok r :: .cellRead (.bgcnt n) s.bgcnt[n] :: s.trace }) ∧
        ∃ (address : Wide) (m : Memory), address.toNat = (P.tilemapBase + index) % 2 ^ 32 ∧
          execWith P (.mapwr a b c d) s = .next { s with
            mem := m
            trace := .respond .ok 0 :: .portWrite address d :: .cellRead (.bgcnt n) s.bgcnt[n] :: s.trace } ∧
          (index < 32768 → m = s.mem.writeWord address.toNat d) ∧ (32768 ≤ index → m = s.mem)) ∧
      (∃ (order : List (Fin 512)) (t : State), order.Perm (List.finRange 512) ∧ execWith P .commit s = .next t ∧
        t.mem = copyInOrder P (List.finRange 512).reverse s.shadow s.mem ∧ t.trace = .respond .ok 0 ::
          ((order.map fun i => Event.portWrite (BitVec.ofNat 32 (P.oamBase + i.val)) s.shadow[i]).reverse ++ s.trace)) ∧
      (∀ k, a.toNat = 0x0210 + k → ∀ i ∈ [Instr.setbits a b c d, .rdcell a, .wrcell a b],
        (k < P.extN → ∃ t result, execWith P i s = .next t ∧ t.lastResponse = some (.ok, result)) ∧
        (P.extN ≤ k → execWith P i s = .next (Claims.answered s .illegal 0))))

/-! ### The environment -/

/-- The interrupt state is one way (R159, R161, R160, R162): no step but a reset leaves Initialized, replaces an installed
dispatch routine or clears an enabled type, the commands that write `EXT[1]` among them (that no write to it clears a bit
is log entry 14); that a second `init()` leaves the slot is log entry 24. No action of the environment clears the master
flag, the hardware's among them: R162 says only that `enableGlobally` sets it, and that the hardware changes no bit of
`EXT[3]` by itself is log entry 31 (DESIGN CHOICE). -/
def Obligations.InterruptEnablesAreSetOnly : Prop :=
  ∀ s t : State, step s = .next t → (∀ x rest, s.nextInput = some (x, rest) → Claims.resets x = false) →
    (s.env.phase = .initialized → t.env.phase = .initialized ∧ t.env.handler = s.env.handler) ∧
    (∀ i, s.env.enabled.getLsbD i = true → t.env.enabled.getLsbD i = true) ∧
    ((∃ a rest, s.nextInput = some (.env a, rest)) → s.env.masterOn = true → t.env.masterOn = true)

/-- `init()`, `enableType` and `enableGlobally` (R160, R161, R162). `init()` installs the routine in the slot; a second one
changes nothing (log entry 24). After it, the kind's bit is set and no other bit of the enable register changes, for vblank
the display-status bit is set too, and the master flag is set. Through the block, after `init()`, a SETBITS of width 1 on
`EXT[1]` and on `EXT[0]` sets the same bits (R161), whatever the environment answers to the read (log entry 14; that no
register changes between the read and the write is log entry 29). That a kind other than vblank has no side configuration
(R161 "any per-type side configuration") is log entry 8. Bit numbers: log entry 10. -/
def Obligations.EnablingSetsTheBit : Prop :=
  (∀ (s : State) (rest : List Input) (handler : Wide), s.nextInput = some (.env (.init handler), rest) →
    (s.env.phase = .uninitialized →
      step s = .next { s with inputs := rest, env := { s.env with phase := .initialized, handler := handler } }) ∧
    (s.env.phase = .initialized → step s = .next { s with inputs := rest })) ∧
  (∀ (s : State) (rest : List Input) (k : IrqKind), s.nextInput = some (.env (.enableType k), rest) →
    s.env.phase = .initialized → ∃ m d,
      step s = .next { s with inputs := rest, env := { s.env with enabled := m, displayStatus := d } } ∧
      (∀ i, i < 16 → m.getLsbD i = (s.env.enabled.getLsbD i || i == k.index)) ∧
      (∀ i, i < 16 → d.getLsbD i = (s.env.displayStatus.getLsbD i || (k == .vblank && i == 3)))) ∧
  (∀ (s : State) (rest : List Input), s.nextInput = some (.env .enableGlobally, rest) →
    s.env.phase = .initialized → ∃ m,
      step s = .next { s with inputs := rest, env := { s.env with masterEnable := m } } ∧
      (∀ i, i < 16 → m.getLsbD i = (s.env.masterEnable.getLsbD i || i == 0))) ∧
  (∀ (s t : State) (k : IrqKind), s.halt = false → s.env.phase = .initialized →
    exec (.setbits 0x0211 1 1 (BitVec.ofNat 16 k.index)) s = .next t →
      inMask t.env.enabled k = true ∧ ∀ k', inMask s.env.enabled k' = true → inMask t.env.enabled k' = true) ∧
  (∀ s t : State, s.halt = false → exec (.setbits 0x0210 1 1 3) s = .next t → t.env.vblankRaised = true)

/-- The hang (R167): enabling or waiting before `init()` (R183) hangs the main flow and changes nothing else, also where it is a
SETBITS of `EXT[1]` or `EXT[3]` that enables (R161; the command answers `OK`, R156; log entry 26), and so does a wait with no
enabled vblank interrupt (R166 "a missed or never-enabled interrupt hangs forever"; what enabled is: log entry 11); nothing
but a reset (R180) ends a hang. That the master flag is bit 0 of `EXT[3]`, and the other bit numbers, are log entry 10. A
hang as a flow that stays as it is, not a fault, is log entry 22. -/
def Obligations.SkippedInitHangs : Prop :=
  (∀ (s : State) (rest : List Input), s.env.phase = .uninitialized →
    ((∃ k, s.nextInput = some (.env (.enableType k), rest)) ∨ s.nextInput = some (.env .enableGlobally, rest) ∨
      s.nextInput = some (.env .waitVblank, rest)) →
    step s = .next { s with inputs := rest, env := { s.env with flow := .hung } }) ∧
  (∀ (s : State) (rest : List Input), s.nextInput = some (.env .waitVblank, rest) →
    inMask s.env.enabled .vblank = false ∨ s.env.vblankRaised = false ∨ s.env.masterOn = false →
    step s = .next { s with inputs := rest, env := { s.env with flow := .hung } }) ∧
  (∀ (s : State) (k : IrqKind), s.halt = false → s.env.phase = .uninitialized →
    ∀ i ∈ [Instr.setbits 0x0211 1 1 (BitVec.ofNat 16 k.index), .wrcell 0x0211 k.bit, .setbits 0x0213 1 1 0,
        .wrcell 0x0213 1],
      ∃ t, exec i s = .next t ∧ t.lastResponse = some (.ok, 0) ∧ t.env = { s.env with flow := .hung }) ∧
  (∀ s t : State, s.env.flow = .hung → step s = .next t →
    t.env.flow = .hung ∨ ∃ x rest, s.nextInput = some (x, rest) ∧ Claims.resets x = true)

/-- Delivery and the dispatch routine (R163, R164, R165, R168). A delivery starts the routine, which reads what is both enabled
and asserted, and changes nothing else; where nothing enabled is asserted, the master flag is off, `init()` has installed no
routine, or the routine runs already (no nested interrupts), nothing happens. The end of the routine acknowledges the value
it read at its start (that this clears it is log entry 9), ORs it into the mirror and returns; nothing else of the state
changes, but for a main flow that waits and a vblank interrupt handled (R166). A kind other than vblank is "otherwise
ignored" (R168): while the routine runs on such kinds alone, the block, `MAP` and `OAM` stay, but for a reset. That a run of
the routine is a start and an end, its commands between them, is log entry 30. -/
def Obligations.DispatchAcknowledgesTheFiredKinds : Prop :=
  (∀ (s t : State) (fired : IrqMask), s.env.routine = some fired → inMask fired .vblank = false → step s = .next t →
    (t.shadow = s.shadow ∧ t.dispcnt = s.dispcnt ∧ t.bgcnt = s.bgcnt ∧ t.halt = s.halt ∧ t.mem = s.mem) ∨
    ∃ x rest, s.nextInput = some (x, rest) ∧ Claims.resets x = true) ∧
  ∀ (s : State) (rest : List Input),
    (s.nextInput = some (.env .dispatch, rest) →
      ((∀ i, (s.env.enabled.getLsbD i && s.env.asserted.getLsbD i) = false) ∨ s.env.masterOn = false ∨
          s.env.phase = .uninitialized ∨ s.env.routine ≠ none →
        step s = .next { s with inputs := rest }) ∧
      ((∃ i, (s.env.enabled.getLsbD i && s.env.asserted.getLsbD i) = true) → s.env.masterOn = true →
          s.env.phase = .initialized → s.env.routine = none →
        ∃ fired, step s = .next { s with inputs := rest, env := { s.env with routine := some fired } } ∧
          ∀ i, fired.getLsbD i = (s.env.enabled.getLsbD i && s.env.asserted.getLsbD i))) ∧
    (∀ fired, s.nextInput = some (.env .dispatchReturn, rest) → s.env.routine = some fired →
      ∃ asserted mirror flow safe,
        step s = .next { s with
          inputs := rest
          env := { s.env with
            asserted := asserted, mirror := mirror, flow := flow, oamSafe := safe, routine := none } } ∧
        (∀ i, asserted.getLsbD i = (s.env.asserted.getLsbD i && !fired.getLsbD i)) ∧
        (∀ i, mirror.getLsbD i = (s.env.mirror.getLsbD i || fired.getLsbD i)) ∧
        (s.env.flow ≠ .waiting ∨ inMask fired .vblank = false → flow = s.env.flow ∧ safe = s.env.oamSafe))

/-- What the hardware does by itself: it asserts an interrupt, vblank only where the display-status bit is set (R164 (b); bit
numbers: log entry 10), and it starts or stops scanning out the sprite layer (R136, R53). No state of the block changes. That of the
environment an assertion changes the asserted register only and a scanout `oam_safe` only, so that the display-status, the
interrupt-enable and the master-enable register stay, is log entry 31 (DESIGN CHOICE: R45 leaves open what the hardware
changes by itself). -/
def Obligations.HardwareAssertsAndScansOut : Prop :=
  ∀ (s : State) (rest : List Input),
    (∀ k, s.nextInput = some (.env (.assertIrq k), rest) → ∃ asserted,
      step s = .next { s with inputs := rest, env := { s.env with asserted := asserted } } ∧
      ∀ k', inMask asserted k' =
        (inMask s.env.asserted k' || (k' == k && (k != .vblank || s.env.displayStatus.getLsbD 3)))) ∧
    (∀ safe, s.nextInput = some (.env (.scanout safe), rest) →
      step s = .next { s with inputs := rest, env := { s.env with oamSafe := safe } })

/-- The vblank wait (R166, R136): with vblank enabled after `init()` it suspends the main flow; the dispatch routine that
handled a vblank interrupt ends it when it acknowledges it and returns, and the main flow goes on in the safe window, the
interrupt acknowledged into the mirror; nothing else but a reset ends it. "No state of the block changes during it", nor
during a wait that never ends. That vblank is no longer asserted at the return is log entry 9; what enabled is, the
suspended flow, the window and the commands the routine presents meanwhile are log entry 11. -/
def Obligations.VblankWaitReturnsInTheSafeWindow : Prop :=
  (∀ (s : State) (rest : List Input), s.nextInput = some (.env .waitVblank, rest) → s.env.phase = .initialized →
    inMask s.env.enabled .vblank = true → s.env.vblankRaised = true → s.env.masterOn = true →
    step s = .next { s with inputs := rest, env := { s.env with flow := .waiting } }) ∧
  (∀ (s : State) (rest : List Input) (fired : IrqMask), s.env.flow = .waiting →
    s.nextInput = some (.env .dispatchReturn, rest) → s.env.routine = some fired → inMask fired .vblank = true →
      ∃ e, step s = .next { s with inputs := rest, env := e } ∧ e.flow = .running ∧ e.routine = none ∧
        e.oamSafe = true ∧ inMask e.mirror .vblank = true ∧ inMask e.asserted .vblank = false) ∧
  (∀ s t : State, s.env.flow = .waiting → step s = .next t → t.env.flow = .running →
    ∃ x rest, s.nextInput = some (x, rest) ∧
      (Claims.resets x = true ∨
        x = .env .dispatchReturn ∧ ∃ fired, s.env.routine = some fired ∧ inMask fired .vblank = true)) ∧
  (∀ s t : State, s.env.flow ≠ .running → step s = .next t →
    (t.shadow = s.shadow ∧ t.dispcnt = s.dispcnt ∧ t.bgcnt = s.bgcnt ∧ t.halt = s.halt) ∨
    ∃ x rest, s.nextInput = some (x, rest) ∧ Claims.resets x = true)
end

