-- ==== Sys2Proof/Laws/Arith.lean ====
section
/-! SUPPORT. The bits of the field insert and of a field read back, and bounds of the resolver's functions. -/

namespace Sys2Proof.Machine

open Sys2Proof

/-- Bit `i` of the field mask (R84). -/
theorem getLsbD_fieldMask (width shift i : Nat) :
    (fieldMask width shift).getLsbD i = (decide (i < 16) && decide (shift ≤ i) && decide (i < shift + min width 16)) := by
  simp only [fieldMask, BitVec.getLsbD_ofNat, Nat.testBit_shiftLeft, Nat.testBit_two_pow_sub_one]
  rw [Bool.eq_iff_iff]
  simp only [Bool.and_eq_true, decide_eq_true_eq, ge_iff_le]
  omega

/-- Bit `i` of the masked value in place (R84). -/
theorem getLsbD_fieldValue (value : Word) (width shift i : Nat) :
    (fieldValue value width shift).getLsbD i =
      (decide (i < 16) && decide (shift ≤ i) && decide (i < shift + min width 16) && value.getLsbD (i - shift)) := by
  simp only [fieldValue, BitVec.getLsbD_ofNat, Nat.testBit_shiftLeft, Nat.testBit_mod_two_pow, BitVec.testBit_toNat]
  rw [Bool.eq_iff_iff]
  simp only [Bool.and_eq_true, decide_eq_true_eq, ge_iff_le]
  constructor
  · rintro ⟨h1, h2, h3, h4⟩
    exact ⟨⟨⟨h1, h2⟩, by omega⟩, h4⟩
  · rintro ⟨⟨⟨h1, h2⟩, h3⟩, h4⟩
    exact ⟨h1, h2, by omega, h4⟩

/-- Bit `i` of the field insert: the value's bit inside the field, the old bit outside (R84). -/
theorem getLsbD_bf (old value : Word) (width shift i : Nat) (hi : i < 16) :
    (bf old value width shift).getLsbD i =
      if shift ≤ i ∧ i < shift + min width 16 then value.getLsbD (i - shift) else old.getLsbD i := by
  simp only [bf, BitVec.getLsbD_or, BitVec.getLsbD_and, BitVec.getLsbD_not, getLsbD_fieldMask, getLsbD_fieldValue, hi,
    decide_true, Bool.true_and]
  by_cases h1 : shift ≤ i <;> by_cases h2 : i < shift + min width 16 <;> simp [h1, h2]

/-- The field insert inserts the field (R85): for a field that fits in the word. -/
theorem fieldInserted_bf {f : Field} (hf : f.width ≤ 16) (old value : Word) :
    FieldInserted f old value (bf old value f.width f.shift) := by
  intro i hi
  rw [getLsbD_bf _ _ _ _ _ hi, Nat.min_eq_left hf]

/-- Bit `i` of a field read back. -/
theorem testBit_getField (f : Field) (v : Word) (i : Nat) :
    (getField f v).testBit i = (decide (i < f.width) && v.getLsbD (i + f.shift)) := by
  simp [getField, Nat.testBit_mod_two_pow, Nat.testBit_div_two_pow, BitVec.getLsbD]

/-- A field inserted reads back as the value modulo the field size, for a field inside the word (R85). -/
theorem getField_of_inserted {f : Field} {old value new : Word} (hf : f.shift + f.width ≤ 16)
    (h : FieldInserted f old value new) : getField f new = value.toNat % 2 ^ f.width := by
  apply Nat.eq_of_testBit_eq
  intro i
  rw [testBit_getField, Nat.testBit_mod_two_pow]
  by_cases hi : i < f.width
  · rw [h (i + f.shift) (by omega), if_pos (by omega), Nat.add_sub_cancel]
    rfl
  · simp [hi]

/-- A field apart from the inserted one reads as before. -/
theorem getField_of_inserted_apart {f g : Field} {old value new : Word} (hg : g.shift + g.width ≤ 16)
    (hfg : f.shift + f.width ≤ g.shift ∨ g.shift + g.width ≤ f.shift) (h : FieldInserted f old value new) :
    getField g new = getField g old := by
  apply Nat.eq_of_testBit_eq
  intro i
  rw [testBit_getField, testBit_getField]
  by_cases hi : i < g.width
  · rw [h (i + g.shift) (by omega), if_neg (by omega)]
  · simp [hi]

/-- A field of `width` bits is below `2 ^ width`. -/
theorem getField_lt (f : Field) (v : Word) : getField f v < 2 ^ f.width := Nat.mod_lt _ (Nat.two_pow_pos _)

/-- The in-block offset is below 1024 (R102). -/
theorem off_lt (x y : Nat) : off x y < 1024 := by
  unfold off
  omega

/-- The block index of a valid coordinate is one of the size's blocks (R110). -/
theorem blk_lt {size : BgSize} {x y : Nat} (hx : x < (extent size).1) (hy : y < (extent size).2) :
    blk size x y < blocksForSize size := by
  cases size <;> simp only [extent, blk, blocksForSize] at * <;> (try split) <;> omega

end Sys2Proof.Machine
end

