-- ==== Sys2Proof/Laws/Decode.lean ====
section
/-! SUPPORT. The fields of a packed word, a word put together from its fields, and what each format's check says. -/

namespace Sys2Proof

/-- Bit `i` of a packed word (R60). -/
theorem getLsbD_pack (op p q r s : Word) (i : Nat) :
    (pack op p q r s).getLsbD i =
      if i < 16 then s.getLsbD i
      else if i < 32 then r.getLsbD (i - 16)
      else if i < 48 then q.getLsbD (i - 32)
      else if i < 64 then p.getLsbD (i - 48)
      else op.getLsbD (i - 64) := by
  have h1 : (pack op p q r s).getLsbD i = if i < 16 then s.getLsbD i else (op ++ p ++ q ++ r).getLsbD (i - 16) :=
    BitVec.getLsbD_append
  rw [h1, BitVec.getLsbD_append, BitVec.getLsbD_append, BitVec.getLsbD_append]
  simp only [Nat.sub_sub]
  by_cases c1 : i < 16
  · simp [c1]
  · by_cases c2 : i < 32
    · simp [c1, c2, show i - 16 < 16 by omega]
    · by_cases c3 : i < 48
      · simp [c1, c2, c3, show ¬ i - 16 < 16 by omega, show i - 32 < 16 by omega]
      · by_cases c4 : i < 64
        · simp [c1, c2, c3, c4, show ¬ i - 16 < 16 by omega, show ¬ i - 32 < 16 by omega, show i - 48 < 16 by omega]
        · simp [c1, c2, c3, c4, show ¬ i - 16 < 16 by omega, show ¬ i - 32 < 16 by omega, show ¬ i - 48 < 16 by omega]

theorem fieldS_pack (op p q r s : Word) : fieldS (pack op p q r s) = s := by
  apply BitVec.eq_of_getLsbD_eq
  intro i hi
  simp [fieldS, getLsbD_pack, hi]

theorem fieldR_pack (op p q r s : Word) : fieldR (pack op p q r s) = r := by
  apply BitVec.eq_of_getLsbD_eq
  intro i hi
  simp only [fieldR, BitVec.getLsbD_extractLsb', getLsbD_pack, hi, decide_true, Bool.true_and]
  rw [if_neg (by omega), if_pos (by omega), Nat.add_sub_cancel_left]

theorem fieldQ_pack (op p q r s : Word) : fieldQ (pack op p q r s) = q := by
  apply BitVec.eq_of_getLsbD_eq
  intro i hi
  simp only [fieldQ, BitVec.getLsbD_extractLsb', getLsbD_pack, hi, decide_true, Bool.true_and]
  rw [if_neg (by omega), if_neg (by omega), if_pos (by omega), Nat.add_sub_cancel_left]

theorem fieldP_pack (op p q r s : Word) : fieldP (pack op p q r s) = p := by
  apply BitVec.eq_of_getLsbD_eq
  intro i hi
  simp only [fieldP, BitVec.getLsbD_extractLsb', getLsbD_pack, hi, decide_true, Bool.true_and]
  rw [if_neg (by omega), if_neg (by omega), if_neg (by omega), if_pos (by omega), Nat.add_sub_cancel_left]

theorem fieldOp_pack (op p q r s : Word) : fieldOp (pack op p q r s) = op := by
  apply BitVec.eq_of_getLsbD_eq
  intro i hi
  simp only [fieldOp, BitVec.getLsbD_extractLsb', getLsbD_pack, hi, decide_true, Bool.true_and]
  rw [if_neg (by omega), if_neg (by omega), if_neg (by omega), if_neg (by omega), Nat.add_sub_cancel_left]

/-- A word is its five fields put together (R60). -/
theorem pack_fields (w : CommandWord) : pack (fieldOp w) (fieldP w) (fieldQ w) (fieldR w) (fieldS w) = w := by
  apply BitVec.eq_of_getLsbD_eq
  intro i hi
  simp only [getLsbD_pack, fieldOp, fieldP, fieldQ, fieldR, fieldS, BitVec.getLsbD_extractLsb']
  split
  · simp [*]
  · split
    · simp [show 16 + (i - 16) = i by omega, show i - 16 < 16 by omega]
    · split
      · simp [show 32 + (i - 32) = i by omega, show i - 32 < 16 by omega]
      · split
        · simp [show 48 + (i - 48) = i by omega, show i - 48 < 16 by omega]
        · simp [show 64 + (i - 64) = i by omega, show i - 64 < 16 by omega]

/-- An `op` field whose high byte is zero is its opcode byte. -/
theorem op_of_bytes {op : Word} {n : Nat} (hi : op.extractLsb' 8 8 = 0) (lo : (op.extractLsb' 0 8).toNat = n) :
    op = BitVec.ofNat 16 n := by
  apply BitVec.eq_of_toNat_eq
  have h : (op.extractLsb' 8 8).toNat = 0 := by simp [hi]
  simp only [BitVec.extractLsb'_toNat, Nat.shiftRight_eq_div_pow] at h lo
  have := op.isLt
  rw [BitVec.toNat_ofNat]
  omega

theorem formatF0_eq_ok {w : CommandWord} {i j : Instr} :
    formatF0 w i = .ok j ↔ (fieldP w = 0 ∧ fieldQ w = 0 ∧ fieldR w = 0 ∧ fieldS w = 0) ∧ i = j := by
  unfold formatF0
  split
  · next h => simp [h]
  · next h => exact ⟨fun he => by simp at he, fun he => absurd he.1 h⟩

theorem formatF1_eq_ok {w : CommandWord} {f : Word → Instr} {j : Instr} :
    formatF1 w f = .ok j ↔ (fieldQ w = 0 ∧ fieldR w = 0 ∧ fieldS w = 0) ∧ f (fieldP w) = j := by
  unfold formatF1
  split
  · next h => simp [h]
  · next h => exact ⟨fun he => by simp at he, fun he => absurd he.1 h⟩

theorem formatF2_eq_ok {w : CommandWord} {f : Word → Word → Instr} {j : Instr} :
    formatF2 w f = .ok j ↔ (fieldR w = 0 ∧ fieldS w = 0) ∧ f (fieldP w) (fieldQ w) = j := by
  unfold formatF2
  split
  · next h => simp [h]
  · next h => exact ⟨fun he => by simp at he, fun he => absurd he.1 h⟩

theorem formatF3_eq_ok {w : CommandWord} {f : Word → Word → Word → Instr} {j : Instr} :
    formatF3 w f = .ok j ↔ fieldS w = 0 ∧ f (fieldP w) (fieldQ w) (fieldR w) = j := by
  unfold formatF3
  split
  · next h => simp [h]
  · next h => exact ⟨fun he => by simp at he, fun he => absurd he.1 h⟩

theorem formatF4_eq_ok {w : CommandWord} {f : Word → Word → Word → Word → Instr} {j : Instr} :
    formatF4 w f = .ok j ↔ f (fieldP w) (fieldQ w) (fieldR w) (fieldS w) = j := by
  simp [formatF4]

end Sys2Proof
end

