-- ==== Sys2Proof/Laws/Env.lean ====
section
/-! SUPPORT. The laws of the interrupt masks and of what is done to the environment. -/

namespace Sys2Proof.Machine

open Sys2Proof

/-! ### Masks -/

/-- A kind's bit is set in its own one-bit mask only. -/
theorem inMask_bit (k k' : IrqKind) : inMask k.bit k' = (k' == k) := by
  cases k <;> cases k' <;> decide

theorem inMask_or (a b : IrqMask) (k : IrqKind) : inMask (a ||| b) k = (inMask a k || inMask b k) := by
  simp [inMask]

theorem inMask_and (a b : IrqMask) (k : IrqKind) : inMask (a &&& b) k = (inMask a k && inMask b k) := by
  simp [inMask]

theorem inMask_not (a : IrqMask) (k : IrqKind) : inMask (~~~ a) k = !inMask a k := by
  have hk : k.index < 16 := by cases k <;> decide
  simp [inMask, hk]

theorem inMask_zero (k : IrqKind) : inMask 0 k = false := by
  simp [inMask]

/-- A field of one bit inserted in a register whose bits are only set keeps every bit and sets its own (R161). -/
theorem inMask_bf (old : Word) (k k' : IrqKind) :
    inMask (bf old 1 1 k.index) k' = (inMask old k' || k' == k) := by
  have hk' : k'.index < 16 := by cases k' <;> decide
  unfold inMask
  rw [getLsbD_bf _ _ _ _ _ hk']
  by_cases h : k' = k
  · subst h
    rw [if_pos ⟨Nat.le_refl _, by omega⟩]
    simp
  · have hi : k'.index ≠ k.index := by revert h; cases k <;> cases k' <;> decide
    rw [if_neg (by omega)]
    simp [h]

namespace Environment

variable (e : Environment)

/-! ### What each operation can do -/

/-- `init()`, on an uninitialized controller and on an initialized one. -/
theorem init_eq (handler : Wide) :
    e.init handler =
      { e with phase := .initialized, handler := if e.phase = .uninitialized then handler else e.handler } := by
  unfold init
  split
  · next h => simp [h]
  · next h =>
    rw [if_neg (by simp [h])]
    cases e
    cases h
    rfl

/-- A write to an external cell changes at most one of the four registers, or hangs the main flow before `init()`. -/
theorem extWrite_eq (k : Nat) (v keep : Word) :
    e.extWrite k v keep =
      { e with
        displayStatus := if k = 0 then v ||| (e.displayStatus &&& keep) else e.displayStatus
        enabled := if k = 1 ∧ e.enablesTooSoon v = false then e.enabled ||| v else e.enabled
        asserted := if k = 2 then e.asserted &&& ~~~ v else e.asserted
        masterEnable := if k = 3 ∧ e.enablesTooSoon (v &&& masterBit) = false then v ||| (e.masterEnable &&& keep)
          else e.masterEnable
        flow := if k = 1 ∧ e.enablesTooSoon v = true ∨ k = 3 ∧ e.enablesTooSoon (v &&& masterBit) = true then .hung
          else e.flow } := by
  match k with
  | 0 => rfl
  | 1 => cases h : e.enablesTooSoon v <;> simp [extWrite, hang, h]
  | 2 => rfl
  | 3 => cases h : e.enablesTooSoon (v &&& masterBit) <;> simp [extWrite, hang, h]
  | _ + 4 => simp [extWrite]

theorem enablesTooSoon_initialized (h : e.phase = .initialized) (v : Word) : e.enablesTooSoon v = false := by
  simp [enablesTooSoon, h]

theorem enablesTooSoon_uninitialized (h : e.phase = .uninitialized) (v : Word) :
    e.enablesTooSoon v = true ↔ v ≠ 0 := by
  simp [enablesTooSoon, h]

/-- A write to an external cell changes the flow only where it enables before `init()` (R167). -/
theorem extWrite_flow (k : Nat) (v keep : Word) :
    (e.extWrite k v keep).flow = e.flow ∨
      ((e.extWrite k v keep).flow = .hung ∧ e.phase = .uninitialized ∧ (k = 1 ∨ k = 3)) := by
  rw [extWrite_eq]
  show (if _ then _ else _) = _ ∨ (if _ then _ else _) = _ ∧ _
  split
  · next h =>
    refine .inr ⟨rfl, ?_, h.imp And.left And.left⟩
    rcases h with h | h
    · exact (by simpa [enablesTooSoon] using h.2 : e.phase = .uninitialized ∧ _).1
    · exact (by simpa [enablesTooSoon] using h.2 : e.phase = .uninitialized ∧ _).1
  · exact .inl rfl

/-- Everything the wait can do: hang, or suspend the main flow. -/
theorem wait_cases :
    ((e.phase = .uninitialized ∨ e.vblankEnabled = false) ∧ e.wait = e.hang) ∨
    (e.phase = .initialized ∧ e.vblankEnabled = true ∧ e.wait = { e with flow := .waiting }) := by
  unfold wait
  split
  · next h => exact .inl ⟨.inl h, rfl⟩
  · next h =>
    split
    · next hv => exact .inr ⟨h, hv, rfl⟩
    · next hv => exact .inl ⟨.inr (by simpa using hv), rfl⟩

/-- A COMMIT touches `oam_safe` alone. -/
theorem duringCommit_eq (draw : Nat) :
    e.duringCommit draw =
      { e with oamSafe := if Config.windowHolds draw = true then e.oamSafe else Config.oamSafeAfter draw } := by
  unfold duringCommit
  split <;> rfl

/-- What the hardware asserting a kind can do: the kind's bit, and nothing where vblank is not raised (R164). -/
theorem assertIrq_eq (k : IrqKind) :
    e.assertIrq k = { e with
      asserted := if k = .vblank ∧ e.vblankRaised = false then e.asserted else e.asserted ||| k.bit } := by
  unfold assertIrq
  split <;> rfl

theorem wake_eq (m : IrqMask) :
    e.wake m = { e with
      flow := if e.flow = .waiting ∧ inMask m .vblank = true then .running else e.flow
      oamSafe := if e.flow = .waiting ∧ inMask m .vblank = true then true else e.oamSafe } := by
  unfold wake
  split <;> rfl

/-- What a delivery can do: start the dispatch routine where an interrupt reaches it, and else nothing (R164, R165). -/
theorem dispatch_eq :
    e.dispatch = { e with
      routine := if e.fired = 0 ∨ e.masterOn = false ∨ e.phase = .uninitialized ∨ e.routine ≠ none then e.routine
        else some e.fired } := by
  unfold dispatch
  split <;> rfl

/-- The end of the dispatch routine: the fired kinds acknowledged and mirrored, a waiting main flow woken by vblank (R163,
R165, R166). -/
theorem dispatchReturn_some {fired : IrqMask} (h : e.routine = some fired) :
    e.dispatchReturn = { e with
      asserted := e.asserted &&& ~~~ fired
      mirror := e.mirror ||| fired
      flow := if e.flow = .waiting ∧ inMask fired .vblank = true then .running else e.flow
      oamSafe := if e.flow = .waiting ∧ inMask fired .vblank = true then true else e.oamSafe
      routine := none } := by
  simp only [dispatchReturn, h, wake_eq, acknowledge]

theorem dispatchReturn_none (h : e.routine = none) : e.dispatchReturn = e := by
  simp only [dispatchReturn, h]

theorem inMask_fired (k : IrqKind) : inMask e.fired k = (inMask e.enabled k && inMask e.asserted k) :=
  inMask_and _ _ _

end Environment

/-! ### The invariant of the environment -/

namespace EnvironmentOk

variable {e : Environment}

theorem afterReset (draw : Nat) : EnvironmentOk (Environment.afterReset draw) :=
  ⟨fun h => (nomatch h), fun _ => ⟨rfl, rfl, rfl, by simp [Environment.masterOn, Environment.afterReset], rfl⟩,
    fun i h => by simp [Environment.afterReset] at h, fun _ h => (nomatch h)⟩

/-- A change that keeps the phase, the slot, the mirror and the routine, lets no main flow begin to wait, clears no enabled bit
and enables nothing before `init()`, keeps it. -/
theorem of_same {e' : Environment} (h : EnvironmentOk e) (hp : e'.phase = e.phase) (hh : e'.handler = e.handler)
    (hm : e'.mirror = e.mirror) (hr : e'.routine = e.routine) (hf : e'.flow = .waiting → e.flow = .waiting)
    (he : ∀ i, e.enabled.getLsbD i = true → e'.enabled.getLsbD i = true)
    (hu : e.phase = .uninitialized → e.enabled = 0 → e.masterOn = false → e'.enabled = 0 ∧ e'.masterOn = false) :
    EnvironmentOk e' where
  waits hw := ⟨by rw [hp]; exact (h.waits (hf hw)).1, he _ (h.waits (hf hw)).2⟩
  beforeInit hp' := by
    rw [hp] at hp'
    obtain ⟨h1, h2, h3, h4, h5⟩ := h.beforeInit hp'
    obtain ⟨h6, h7⟩ := hu hp' h3 h4
    exact ⟨by rw [hh, h1], by rw [hm, h2], h6, h7, by rw [hr, h5]⟩
  mirrored i hi := he i (h.mirrored i (by rwa [hm] at hi))
  handled fired hf' := by
    obtain ⟨h1, h2⟩ := h.handled fired (by rwa [hr] at hf')
    exact ⟨h1, fun i hi => he i (h2 i hi)⟩

/-- An initialized controller that changes so keeps it, whatever becomes enabled. -/
theorem of_initialized {e' : Environment} (h : EnvironmentOk e) (hi : e.phase = .initialized) (hp : e'.phase = e.phase)
    (hh : e'.handler = e.handler) (hm : e'.mirror = e.mirror) (hr : e'.routine = e.routine)
    (hf : e'.flow = .waiting → e.flow = .waiting)
    (he : ∀ i, e.enabled.getLsbD i = true → e'.enabled.getLsbD i = true) : EnvironmentOk e' :=
  h.of_same hp hh hm hr hf he fun h' => absurd (hi.symm.trans h') (by decide)

theorem extWrite (h : EnvironmentOk e) (k : Nat) (v keep : Word) : EnvironmentOk (e.extWrite k v keep) := by
  rw [Environment.extWrite_eq]
  refine h.of_same rfl rfl rfl rfl ?_ (fun i hi => ?_) fun hp he hm => ⟨?_, ?_⟩
  · show (if _ then _ else _) = _ → _
    split
    · exact fun h' => (nomatch h')
    · exact id
  · show (if _ then _ else _ : Word).getLsbD i = true
    split <;> simp [hi]
  · show (if _ then _ else _ : Word) = 0
    split
    · next hk => simpa [he, Environment.enablesTooSoon, hp] using hk.2
    · exact he
  · show ((if _ then _ else _) &&& masterBit != 0#16) = false
    split
    · next hk =>
      have hv : v &&& masterBit = 0 := by simpa [Environment.enablesTooSoon, hp] using hk.2
      have hm' : e.masterEnable &&& masterBit = 0 := by simpa [Environment.masterOn] using hm
      have : (v ||| e.masterEnable &&& keep) &&& masterBit =
          (v &&& masterBit) ||| ((e.masterEnable &&& masterBit) &&& keep) := by
        ext i
        simp only [BitVec.getElem_and, BitVec.getElem_or]
        cases v[i] <;> cases e.masterEnable[i] <;> cases keep[i] <;> cases masterBit[i] <;> rfl
      rw [this, hv, hm']
      simp
    · exact hm

theorem duringCommit (h : EnvironmentOk e) (draw : Nat) : EnvironmentOk (e.duringCommit draw) := by
  rw [Environment.duringCommit_eq]
  exact h.of_same rfl rfl rfl rfl id (fun _ hi => hi) fun _ h1 h2 => ⟨h1, h2⟩

theorem hang (h : EnvironmentOk e) : EnvironmentOk e.hang :=
  h.of_same rfl rfl rfl rfl (fun h' => (nomatch h')) (fun _ hi => hi) fun _ h1 h2 => ⟨h1, h2⟩

theorem dispatch (h : EnvironmentOk e) : EnvironmentOk e.dispatch := by
  unfold Environment.dispatch
  split
  · exact h
  · next hc =>
    simp only [not_or] at hc
    refine ⟨h.waits, fun h' => absurd h' hc.2.2.1, h.mirrored, fun fired hf => ?_⟩
    obtain rfl : e.fired = fired := Option.some.inj hf
    refine ⟨hc.1, fun i hi => ?_⟩
    have : e.enabled.getLsbD i = true ∧ e.asserted.getLsbD i = true := by simpa [Environment.fired] using hi
    exact this.1

theorem dispatchReturn (h : EnvironmentOk e) : EnvironmentOk e.dispatchReturn := by
  cases hr : e.routine with
  | none =>
    rw [e.dispatchReturn_none hr]
    exact h
  | some fired =>
    rw [e.dispatchReturn_some hr]
    obtain ⟨-, hf⟩ := h.handled fired hr
    refine ⟨fun hw => ?_, fun hp => ?_, fun i hi => ?_, fun _ h' => (nomatch h')⟩
    · refine h.waits ?_
      revert hw
      show (if _ then _ else _) = _ → _
      split
      · exact fun h' => (nomatch h')
      · exact id
    · have := (h.beforeInit hp).2.2.2.2
      rw [hr] at this
      cases this
    · have hi' : e.mirror.getLsbD i = true ∨ fired.getLsbD i = true := by simpa using hi
      exact hi'.elim (h.mirrored i) (hf i)

/-- Every action of the environment keeps it. -/
theorem act (h : EnvironmentOk e) (a : EnvAction) : EnvironmentOk (e.act a) := by
  cases a with
  | init handler =>
    show EnvironmentOk (e.init handler)
    rw [Environment.init_eq]
    exact ⟨fun hw => ⟨rfl, (h.waits hw).2⟩, fun h' => (nomatch h'), h.mirrored, h.handled⟩
  | enableType k =>
    show EnvironmentOk (e.enableType k)
    unfold Environment.enableType
    split
    · exact h.hang
    · next hp => exact h.of_initialized hp rfl rfl rfl rfl id fun i hi => by simp [hi]
  | enableGlobally =>
    show EnvironmentOk e.enableGlobally
    unfold Environment.enableGlobally
    split
    · exact h.hang
    · next hp => exact h.of_initialized hp rfl rfl rfl rfl id fun _ hi => hi
  | waitVblank =>
    show EnvironmentOk e.wait
    rcases e.wait_cases with ⟨-, h'⟩ | ⟨hp, hv, h'⟩
    · rw [h']
      exact h.hang
    · rw [h']
      have hv' : inMask e.enabled .vblank = true := by
        simp only [Environment.vblankEnabled, Bool.and_eq_true] at hv
        exact hv.1.1
      exact ⟨fun _ => ⟨hp, hv'⟩, h.beforeInit, h.mirrored, h.handled⟩
  | assertIrq k =>
    show EnvironmentOk (e.assertIrq k)
    rw [Environment.assertIrq_eq]
    exact h.of_same rfl rfl rfl rfl id (fun _ hi => hi) fun _ h1 h2 => ⟨h1, h2⟩
  | dispatch => exact h.dispatch
  | dispatchReturn => exact h.dispatchReturn
  | scanout safe => exact h.of_same rfl rfl rfl rfl id (fun _ hi => hi) fun _ h1 h2 => ⟨h1, h2⟩

end EnvironmentOk

end Sys2Proof.Machine
end

