-- ==== Sys2Proof/Laws/State.lean ====
section
/-! SUPPORT. One lemma per field per update of State, so that no later proof unfolds a record update. -/

namespace Sys2Proof.Machine.State

open Sys2Proof

variable (s : State)

@[simp] theorem setHalt_shadow : s.setHalt.shadow = s.shadow := rfl
@[simp] theorem setHalt_dispcnt : s.setHalt.dispcnt = s.dispcnt := rfl
@[simp] theorem setHalt_bgcnt : s.setHalt.bgcnt = s.bgcnt := rfl
@[simp] theorem setHalt_halt : s.setHalt.halt = true := rfl
@[simp] theorem setHalt_mem : s.setHalt.mem = s.mem := rfl
@[simp] theorem setHalt_env : s.setHalt.env = s.env := rfl
@[simp] theorem setHalt_inputs : s.setHalt.inputs = s.inputs := rfl
@[simp] theorem setHalt_trace : s.setHalt.trace = s.trace := rfl
@[simp] theorem setHalt_draws : s.setHalt.draws = s.draws := rfl
@[simp] theorem setHalt_resetDraw : s.setHalt.resetDraw = s.resetDraw := rfl

@[simp] theorem setShadow_shadow (i : Fin 512) (v : Word) : (s.setShadow i v).shadow = s.shadow.set i v := rfl
@[simp] theorem setShadow_dispcnt (i : Fin 512) (v : Word) : (s.setShadow i v).dispcnt = s.dispcnt := rfl
@[simp] theorem setShadow_bgcnt (i : Fin 512) (v : Word) : (s.setShadow i v).bgcnt = s.bgcnt := rfl
@[simp] theorem setShadow_halt (i : Fin 512) (v : Word) : (s.setShadow i v).halt = s.halt := rfl
@[simp] theorem setShadow_mem (i : Fin 512) (v : Word) : (s.setShadow i v).mem = s.mem := rfl
@[simp] theorem setShadow_env (i : Fin 512) (v : Word) : (s.setShadow i v).env = s.env := rfl
@[simp] theorem setShadow_inputs (i : Fin 512) (v : Word) : (s.setShadow i v).inputs = s.inputs := rfl
@[simp] theorem setShadow_trace (i : Fin 512) (v : Word) : (s.setShadow i v).trace = s.trace := rfl
@[simp] theorem setShadow_draws (i : Fin 512) (v : Word) : (s.setShadow i v).draws = s.draws := rfl
@[simp] theorem setShadow_resetDraw (i : Fin 512) (v : Word) : (s.setShadow i v).resetDraw = s.resetDraw := rfl

@[simp] theorem setDispcnt_shadow (v : Word) : (s.setDispcnt v).shadow = s.shadow := rfl
@[simp] theorem setDispcnt_dispcnt (v : Word) : (s.setDispcnt v).dispcnt = v := rfl
@[simp] theorem setDispcnt_bgcnt (v : Word) : (s.setDispcnt v).bgcnt = s.bgcnt := rfl
@[simp] theorem setDispcnt_halt (v : Word) : (s.setDispcnt v).halt = s.halt := rfl
@[simp] theorem setDispcnt_mem (v : Word) : (s.setDispcnt v).mem = s.mem := rfl
@[simp] theorem setDispcnt_env (v : Word) : (s.setDispcnt v).env = s.env := rfl
@[simp] theorem setDispcnt_inputs (v : Word) : (s.setDispcnt v).inputs = s.inputs := rfl
@[simp] theorem setDispcnt_trace (v : Word) : (s.setDispcnt v).trace = s.trace := rfl
@[simp] theorem setDispcnt_draws (v : Word) : (s.setDispcnt v).draws = s.draws := rfl
@[simp] theorem setDispcnt_resetDraw (v : Word) : (s.setDispcnt v).resetDraw = s.resetDraw := rfl

@[simp] theorem setBgcnt_shadow (n : Fin 4) (v : Word) : (s.setBgcnt n v).shadow = s.shadow := rfl
@[simp] theorem setBgcnt_dispcnt (n : Fin 4) (v : Word) : (s.setBgcnt n v).dispcnt = s.dispcnt := rfl
@[simp] theorem setBgcnt_bgcnt (n : Fin 4) (v : Word) : (s.setBgcnt n v).bgcnt = s.bgcnt.set n v := rfl
@[simp] theorem setBgcnt_halt (n : Fin 4) (v : Word) : (s.setBgcnt n v).halt = s.halt := rfl
@[simp] theorem setBgcnt_mem (n : Fin 4) (v : Word) : (s.setBgcnt n v).mem = s.mem := rfl
@[simp] theorem setBgcnt_env (n : Fin 4) (v : Word) : (s.setBgcnt n v).env = s.env := rfl
@[simp] theorem setBgcnt_inputs (n : Fin 4) (v : Word) : (s.setBgcnt n v).inputs = s.inputs := rfl
@[simp] theorem setBgcnt_trace (n : Fin 4) (v : Word) : (s.setBgcnt n v).trace = s.trace := rfl
@[simp] theorem setBgcnt_draws (n : Fin 4) (v : Word) : (s.setBgcnt n v).draws = s.draws := rfl
@[simp] theorem setBgcnt_resetDraw (n : Fin 4) (v : Word) : (s.setBgcnt n v).resetDraw = s.resetDraw := rfl

@[simp] theorem setMem_shadow (m : Memory) : (s.setMem m).shadow = s.shadow := rfl
@[simp] theorem setMem_dispcnt (m : Memory) : (s.setMem m).dispcnt = s.dispcnt := rfl
@[simp] theorem setMem_bgcnt (m : Memory) : (s.setMem m).bgcnt = s.bgcnt := rfl
@[simp] theorem setMem_halt (m : Memory) : (s.setMem m).halt = s.halt := rfl
@[simp] theorem setMem_mem (m : Memory) : (s.setMem m).mem = m := rfl
@[simp] theorem setMem_env (m : Memory) : (s.setMem m).env = s.env := rfl
@[simp] theorem setMem_inputs (m : Memory) : (s.setMem m).inputs = s.inputs := rfl
@[simp] theorem setMem_trace (m : Memory) : (s.setMem m).trace = s.trace := rfl
@[simp] theorem setMem_draws (m : Memory) : (s.setMem m).draws = s.draws := rfl
@[simp] theorem setMem_resetDraw (m : Memory) : (s.setMem m).resetDraw = s.resetDraw := rfl

@[simp] theorem record_shadow (e : Event) : (s.record e).shadow = s.shadow := rfl
@[simp] theorem record_dispcnt (e : Event) : (s.record e).dispcnt = s.dispcnt := rfl
@[simp] theorem record_bgcnt (e : Event) : (s.record e).bgcnt = s.bgcnt := rfl
@[simp] theorem record_halt (e : Event) : (s.record e).halt = s.halt := rfl
@[simp] theorem record_mem (e : Event) : (s.record e).mem = s.mem := rfl
@[simp] theorem record_env (e : Event) : (s.record e).env = s.env := rfl
@[simp] theorem record_inputs (e : Event) : (s.record e).inputs = s.inputs := rfl
@[simp] theorem record_trace (e : Event) : (s.record e).trace = e :: s.trace := rfl
@[simp] theorem record_draws (e : Event) : (s.record e).draws = s.draws := rfl
@[simp] theorem record_resetDraw (e : Event) : (s.record e).resetDraw = s.resetDraw := rfl

@[simp] theorem nextDraw_shadow : s.nextDraw.shadow = s.shadow := rfl
@[simp] theorem nextDraw_dispcnt : s.nextDraw.dispcnt = s.dispcnt := rfl
@[simp] theorem nextDraw_bgcnt : s.nextDraw.bgcnt = s.bgcnt := rfl
@[simp] theorem nextDraw_halt : s.nextDraw.halt = s.halt := rfl
@[simp] theorem nextDraw_mem : s.nextDraw.mem = s.mem := rfl
@[simp] theorem nextDraw_env : s.nextDraw.env = s.env := rfl
@[simp] theorem nextDraw_inputs : s.nextDraw.inputs = s.inputs := rfl
@[simp] theorem nextDraw_trace : s.nextDraw.trace = s.trace := rfl
@[simp] theorem nextDraw_draws : s.nextDraw.draws = s.draws + 1 := rfl
@[simp] theorem nextDraw_resetDraw : s.nextDraw.resetDraw = s.resetDraw := rfl

@[simp] theorem setEnv_shadow (e : Environment) : (s.setEnv e).shadow = s.shadow := rfl
@[simp] theorem setEnv_dispcnt (e : Environment) : (s.setEnv e).dispcnt = s.dispcnt := rfl
@[simp] theorem setEnv_bgcnt (e : Environment) : (s.setEnv e).bgcnt = s.bgcnt := rfl
@[simp] theorem setEnv_halt (e : Environment) : (s.setEnv e).halt = s.halt := rfl
@[simp] theorem setEnv_mem (e : Environment) : (s.setEnv e).mem = s.mem := rfl
@[simp] theorem setEnv_env (e : Environment) : (s.setEnv e).env = e := rfl
@[simp] theorem setEnv_inputs (e : Environment) : (s.setEnv e).inputs = s.inputs := rfl
@[simp] theorem setEnv_trace (e : Environment) : (s.setEnv e).trace = s.trace := rfl
@[simp] theorem setEnv_draws (e : Environment) : (s.setEnv e).draws = s.draws := rfl
@[simp] theorem setEnv_resetDraw (e : Environment) : (s.setEnv e).resetDraw = s.resetDraw := rfl

@[simp] theorem setInputs_shadow (l : List Input) : (s.setInputs l).shadow = s.shadow := rfl
@[simp] theorem setInputs_dispcnt (l : List Input) : (s.setInputs l).dispcnt = s.dispcnt := rfl
@[simp] theorem setInputs_bgcnt (l : List Input) : (s.setInputs l).bgcnt = s.bgcnt := rfl
@[simp] theorem setInputs_halt (l : List Input) : (s.setInputs l).halt = s.halt := rfl
@[simp] theorem setInputs_mem (l : List Input) : (s.setInputs l).mem = s.mem := rfl
@[simp] theorem setInputs_env (l : List Input) : (s.setInputs l).env = s.env := rfl
@[simp] theorem setInputs_inputs (l : List Input) : (s.setInputs l).inputs = l := rfl
@[simp] theorem setInputs_trace (l : List Input) : (s.setInputs l).trace = s.trace := rfl
@[simp] theorem setInputs_draws (l : List Input) : (s.setInputs l).draws = s.draws := rfl
@[simp] theorem setInputs_resetDraw (l : List Input) : (s.setInputs l).resetDraw = s.resetDraw := rfl

@[simp] theorem respond_shadow (status : Status) (result : Wide) : (s.respond status result).shadow = s.shadow := rfl
@[simp] theorem respond_dispcnt (status : Status) (result : Wide) : (s.respond status result).dispcnt = s.dispcnt := rfl
@[simp] theorem respond_bgcnt (status : Status) (result : Wide) : (s.respond status result).bgcnt = s.bgcnt := rfl
@[simp] theorem respond_halt (status : Status) (result : Wide) : (s.respond status result).halt = s.halt := rfl
@[simp] theorem respond_mem (status : Status) (result : Wide) : (s.respond status result).mem = s.mem := rfl
@[simp] theorem respond_env (status : Status) (result : Wide) : (s.respond status result).env = s.env := rfl
@[simp] theorem respond_inputs (status : Status) (result : Wide) : (s.respond status result).inputs = s.inputs := rfl
@[simp] theorem respond_trace (status : Status) (result : Wide) :
    (s.respond status result).trace = .respond status result :: s.trace := rfl
@[simp] theorem respond_draws (status : Status) (result : Wide) : (s.respond status result).draws = s.draws := rfl
@[simp] theorem respond_resetDraw (status : Status) (result : Wide) :
    (s.respond status result).resetDraw = s.resetDraw := rfl

@[simp] theorem recordAll_shadow (l : List Event) : (s.recordAll l).shadow = s.shadow := rfl
@[simp] theorem recordAll_dispcnt (l : List Event) : (s.recordAll l).dispcnt = s.dispcnt := rfl
@[simp] theorem recordAll_bgcnt (l : List Event) : (s.recordAll l).bgcnt = s.bgcnt := rfl
@[simp] theorem recordAll_halt (l : List Event) : (s.recordAll l).halt = s.halt := rfl
@[simp] theorem recordAll_mem (l : List Event) : (s.recordAll l).mem = s.mem := rfl
@[simp] theorem recordAll_env (l : List Event) : (s.recordAll l).env = s.env := rfl
@[simp] theorem recordAll_inputs (l : List Event) : (s.recordAll l).inputs = s.inputs := rfl
@[simp] theorem recordAll_trace (l : List Event) : (s.recordAll l).trace = l.reverse ++ s.trace := rfl
@[simp] theorem recordAll_draws (l : List Event) : (s.recordAll l).draws = s.draws := rfl
@[simp] theorem recordAll_resetDraw (l : List Event) : (s.recordAll l).resetDraw = s.resetDraw := rfl

end Sys2Proof.Machine.State
end

