-- ==== Sys2Proof/Laws/Memory.lean ====
section
/-! SUPPORT. The laws of memory: a byte read after a write, the canonical form kept, and words as pairs of bytes. -/

namespace Sys2Proof.Machine.Memory

open Sys2Proof

@[simp] theorem readByte_nil (k : Nat) : readByte [] k = none := rfl

theorem readByte_cons (a : Nat) (b : Byte) (m : Memory) (k : Nat) :
    readByte ((a, b) :: m) k = if k = a then some b else readByte m k := rfl

/-- A byte below every listed address has not been written. -/
theorem readByte_below {m : Memory} {k : Nat} (h : ∀ c ∈ m, k < c.1) : readByte m k = none := by
  induction m with
  | nil => rfl
  | cons c m ih =>
    obtain ⟨a, b⟩ := c
    have hk : k < a := h (a, b) (by simp)
    rw [readByte_cons, if_neg (by omega)]
    exact ih fun c hc => h c (by simp [hc])

/-- A byte written reads back as written; every other byte reads as before. -/
theorem readByte_writeByte (m : Memory) (k : Nat) (v : Byte) (j : Nat) :
    readByte (writeByte m k v) j = if j = k then some v else readByte m j := by
  induction m with
  | nil => rfl
  | cons c m ih =>
    obtain ⟨a, b⟩ := c
    unfold writeByte
    by_cases h1 : k < a
    · rw [if_pos h1, readByte_cons]
    · rw [if_neg h1]
      by_cases h2 : k = a
      · subst h2
        rw [if_pos rfl, readByte_cons, readByte_cons]
        by_cases h3 : j = k <;> simp [h3]
      · rw [if_neg h2, readByte_cons, readByte_cons, ih]
        by_cases h3 : j = a
        · have : j ≠ k := by omega
          simp [h3, Ne.symm h2]
        · simp [h3]

/-- The addresses listed after a write are the one written and those listed before. -/
theorem mem_writeByte {m : Memory} {k : Nat} {v : Byte} {c : Host.Cell} (h : c ∈ writeByte m k v) :
    c = (k, v) ∨ c ∈ m := by
  induction m with
  | nil => simpa [writeByte] using h
  | cons d m ih =>
    obtain ⟨a, b⟩ := d
    unfold writeByte at h
    split at h
    · simpa using h
    · split at h
      · rcases List.mem_cons.mp h with h | h
        · exact .inl h
        · exact .inr (List.mem_cons_of_mem _ h)
      · rcases List.mem_cons.mp h with h | h
        · exact .inr (by simp [h])
        · rcases ih h with h | h
          · exact .inl h
          · exact .inr (List.mem_cons_of_mem _ h)

/-- Writing a byte keeps the canonical form. -/
theorem writeByte_wf {m : Memory} (hm : m.wf) (k : Nat) (v : Byte) : (writeByte m k v).wf := by
  induction m with
  | nil => simp [writeByte, wf]
  | cons d m ih =>
    obtain ⟨a, b⟩ := d
    obtain ⟨hd, ht⟩ := List.pairwise_cons.mp hm
    unfold writeByte
    split
    · next h1 =>
      refine List.pairwise_cons.mpr ⟨fun c hc => ?_, hm⟩
      rcases List.mem_cons.mp hc with h | h
      · simpa [h] using h1
      · exact Nat.lt_trans h1 (hd c h)
    · next h1 =>
      split
      · next h2 => exact List.pairwise_cons.mpr ⟨fun c hc => by simpa [h2] using hd c hc, ht⟩
      · next h2 =>
        refine List.pairwise_cons.mpr ⟨fun c hc => ?_, ih ht⟩
        rcases mem_writeByte hc with h | h
        · simp only [h]
          omega
        · exact hd c h

/-- Two memories in canonical form that read alike are the same list. -/
theorem ext_of_readByte {m n : Memory} (hm : m.wf) (hn : n.wf) (h : ∀ k, readByte m k = readByte n k) : m = n := by
  induction m generalizing n with
  | nil =>
    cases n with
    | nil => rfl
    | cons c n =>
      obtain ⟨a, b⟩ := c
      exact absurd (h a) (by simp [readByte_cons])
  | cons c m ih =>
    obtain ⟨a, b⟩ := c
    obtain ⟨hmd, hmt⟩ := List.pairwise_cons.mp hm
    cases n with
    | nil => exact absurd (h a) (by simp [readByte_cons])
    | cons d n =>
      obtain ⟨a', b'⟩ := d
      obtain ⟨hnd, hnt⟩ := List.pairwise_cons.mp hn
      have below {l : Memory} {x y : Nat} (hl : ∀ c ∈ l, y < c.1) (hx : x ≤ y) : readByte l x = none :=
        readByte_below fun c hc => Nat.lt_of_le_of_lt hx (hl c hc)
      have haa : a = a' := by
        rcases Nat.lt_trichotomy a a' with hlt | heq | hgt
        · have := h a
          rw [readByte_cons, if_pos rfl, readByte_cons, if_neg (by omega), below hnd (by omega)] at this
          exact absurd this (by simp)
        · exact heq
        · have := h a'
          rw [readByte_cons, if_neg (by omega), readByte_cons, if_pos rfl, below hmd (by omega)] at this
          exact absurd this (by simp)
      subst haa
      have hbb : b = b' := by simpa [readByte_cons] using h a
      subst hbb
      rw [ih hmt hnt fun k => ?_]
      by_cases hk : k = a
      · rw [hk, below hmd (Nat.le_refl a), below hnd (Nat.le_refl a)]
      · simpa [readByte_cons, hk] using h k

/-- A byte after a word write: the two bytes of the word, and every other byte as before. -/
theorem readByte_writeWord (m : Memory) (u : Nat) (v : Word) (j : Nat) :
    readByte (writeWord m u v) j =
      if j = 2 * u then some (v.extractLsb' 0 8)
      else if j = 2 * u + 1 then some (v.extractLsb' 8 8)
      else readByte m j := by
  simp only [writeWord, readByte_writeByte]

/-- The low and the high byte put together are the word. -/
theorem bytes_append (v : Word) : v.extractLsb' 8 8 ++ v.extractLsb' 0 8 = v := by
  ext i hi
  simp only [BitVec.getElem_append, BitVec.getElem_extractLsb']
  by_cases h : i < 8
  · simp [h, ← BitVec.getLsbD_eq_getElem]
  · have : 8 + (i - 8) = i := by omega
    simp [h, this, ← BitVec.getLsbD_eq_getElem]

/-- A word written reads back as written; every other word reads as before. -/
theorem readWord_writeWord (m : Memory) (u : Nat) (v : Word) (j : Nat) :
    readWord (writeWord m u v) j = if j = u then some v else readWord m j := by
  simp only [readWord, readByte_writeWord]
  by_cases h : j = u
  · subst h
    simp [bytes_append]
  · rw [if_neg (show ¬ 2 * j = 2 * u by omega), if_neg (show ¬ 2 * j = 2 * u + 1 by omega),
      if_neg (show ¬ 2 * j + 1 = 2 * u by omega), if_neg (show ¬ 2 * j + 1 = 2 * u + 1 by omega), if_neg h]

/-- Writing a word keeps the canonical form. -/
theorem writeWord_wf {m : Memory} (hm : m.wf) (u : Nat) (v : Word) : (writeWord m u v).wf :=
  writeByte_wf (writeByte_wf hm _ _) _ _

/-- The addresses listed after a word write. -/
theorem mem_writeWord {m : Memory} {u : Nat} {v : Word} {c : Host.Cell} (h : c ∈ writeWord m u v) :
    c.1 = 2 * u ∨ c.1 = 2 * u + 1 ∨ c ∈ m := by
  rcases mem_writeByte h with h | h
  · exact .inl (by simp [h])
  · rcases mem_writeByte h with h | h
    · exact .inr (.inl (by simp [h]))
    · exact .inr (.inr h)

end Sys2Proof.Machine.Memory
end

