-- ==== Sys2Proof/Laws/Operands.lean ====
section
/-! SUPPORT. What the element-selecting operands select, and that they select something exactly when the command is well
formed (R41, R63 step 4). -/

namespace Sys2Proof.Machine

open Sys2Proof

theorem cellOf_shadow (P : Params) {sel : Word} (i : Fin 512) (h : sel.toNat = i.val) :
    cellOf P sel = some (.shadow i) := by
  have hi := i.isLt
  simp only [cellOf]
  rw [dif_pos (by omega)]
  simp [h]

theorem cellOf_dispcnt (P : Params) {sel : Word} (h : sel.toNat = 0x0200) : cellOf P sel = some .dispcnt := by
  simp only [cellOf]
  rw [dif_neg (by omega), if_pos h]

theorem cellOf_bgcnt (P : Params) {sel : Word} (n : Fin 4) (h : sel.toNat = 0x0201 + n.val) :
    cellOf P sel = some (.bgcnt n) := by
  have hn := n.isLt
  simp only [cellOf]
  rw [dif_neg (by omega), if_neg (by omega), dif_pos (by omega)]
  simp [h]

theorem cellOf_ext {P : Params} {sel : Word} {k : Nat} (hk : k < P.extN) (h : sel.toNat = 0x0210 + k) :
    cellOf P sel = some (.ext k) := by
  simp only [cellOf]
  rw [dif_neg (by omega), if_neg (by omega), dif_neg (by omega), if_pos (by omega), h, Nat.add_sub_cancel_left]

/-- A selector names no cell exactly outside the map (R41). -/
theorem cellOf_eq_none {P : Params} {sel : Word} :
    cellOf P sel = none ↔ (0x0205 ≤ sel.toNat ∧ sel.toNat ≤ 0x020F) ∨ 0x0210 + P.extN ≤ sel.toNat := by
  unfold cellOf
  split
  · simp; omega
  · split
    · simp; omega
    · split
      · simp; omega
      · split
        · simp; omega
        · simp; omega

theorem bgOf_eq {bg : Word} (n : Fin 4) (h : bg.toNat = n.val) : bgOf bg = some n := by
  have hn := n.isLt
  simp only [bgOf]
  rw [dif_pos (by omega)]
  simp [h]

theorem bgOf_eq_none {bg : Word} : bgOf bg = none ↔ 4 ≤ bg.toNat := by
  simp [bgOf]

theorem objOf_eq {idx : Word} (e : Fin 128) (h : idx.toNat = e.val) : objOf idx = some e := by
  have he := e.isLt
  simp only [objOf]
  rw [dif_pos (by omega)]
  simp [h]

theorem objOf_eq_none {idx : Word} : objOf idx = none ↔ 128 ≤ idx.toNat := by
  simp [objOf]

theorem coeffOf_eq {n k : Word} (i : Fin 512) (hn : n.toNat < 32) (hk : k.toNat < 4)
    (h : i.val = 16 * n.toNat + 4 * k.toNat + 3) : coeffOf n k = some i := by
  simp only [coeffOf]
  rw [dif_pos ⟨hn, hk⟩]
  simp [affineWord, Fin.ext_iff, h]

theorem coeffOf_eq_none {n k : Word} : coeffOf n k = none ↔ 32 ≤ n.toNat ∨ 4 ≤ k.toNat := by
  simp only [coeffOf]
  split
  · simp; omega
  · simp; omega

theorem cellOf_isSome (P : Params) (sel : Word) : (cellOf P sel).isSome = selectorNamesCell P sel := by
  rw [Bool.eq_iff_iff, ← not_iff_not]
  simp only [Bool.not_eq_true, Option.isSome_eq_false_iff, Option.isNone_iff_eq_none, cellOf_eq_none, selectorNamesCell,
    Bool.or_eq_false_iff, Bool.and_eq_false_iff, decide_eq_false_iff_not, beq_eq_false_iff_ne]
  omega

theorem bgOf_isSome (bg : Word) : (bgOf bg).isSome = bgInRange bg := by
  simp only [bgOf, bgInRange]
  split <;> simp [*]

theorem objOf_isSome (idx : Word) : (objOf idx).isSome = objInRange idx := by
  simp only [objOf, objInRange]
  split <;> simp [*]

theorem coeffOf_isSome (n k : Word) : (coeffOf n k).isSome = (affInRange n && coeffInRange k) := by
  simp only [coeffOf, affInRange, coeffInRange, ← Bool.decide_and]
  split <;> simp [*]

/-- The selectors of the external cells (R5, R41). -/
theorem cellOf_ext_iff {P : Params} {sel : Word} {k : Nat} :
    cellOf P sel = some (.ext k) ↔ k < P.extN ∧ sel.toNat = 0x0210 + k := by
  constructor
  · intro h
    unfold cellOf at h
    split at h
    · simp at h
    · split at h
      · simp at h
      · split at h
        · simp at h
        · split at h
          · simp only [Option.some.injEq, Cell.ext.injEq] at h
            omega
          · simp at h
  · rintro ⟨h1, h2⟩
    exact cellOf_ext h1 h2

/-- The selector of a cell names it (R41), at the default parameters. -/
theorem cellOf_selectorOf (c : Cell) (h : ∀ k, c = .ext k → k < params.extN) :
    cellOf params (selectorOf c) = some c := by
  cases c with
  | shadow i => exact cellOf_shadow _ i (by simp [selectorOf]; omega)
  | dispcnt => exact cellOf_dispcnt _ rfl
  | bgcnt n => exact cellOf_bgcnt _ n (by simp [selectorOf]; omega)
  | ext k =>
    have hk := h k rfl
    have he : params.extN = 16 := rfl
    exact cellOf_ext hk (by simp [selectorOf]; omega)

end Sys2Proof.Machine
end

