-- ==== Sys2Proof/Laws/Ops.lean ====
section
/-! SUPPORT. What the shared operations can do, said once: the checks before a command, the accesses to cells, the copy of
the shadow table. -/

namespace Sys2Proof.Machine.State

open Sys2Proof

variable {s t : State}

/-! ### The checks before a command (R63) -/

theorem start_halted (h : s.halt = true) (run : State → State) : s.start run = .next (s.respond .aborted 0) := by
  simp [State.start, h]

theorem start_running (h : s.halt = false) (run : State → State) : s.start run = .next (run s) := by
  simp [State.start, h]

theorem rejectWord_eq (s : State) : s.rejectWord = s.start fun s => s.raise .illegalCommand := rfl

theorem begin_none_eq {α : Type} (s : State) (run : α → State → State) : s.begin none run = s.rejectWord := rfl

theorem begin_some_eq {α : Type} (s : State) (a : α) (run : α → State → State) :
    s.begin (some a) run = s.start (run a) := rfl

/-- Everything `start` can do: answer `ABORTED`, or run. -/
theorem start_eq_next {run : State → State} (h : s.start run = .next t) :
    (s.halt = true ∧ t = s.respond .aborted 0) ∨ (s.halt = false ∧ t = run s) := by
  cases hh : s.halt with
  | true =>
    rw [start_halted hh] at h
    exact .inl ⟨rfl, (Host.Outcome.next.inj h).symm⟩
  | false =>
    rw [start_running hh] at h
    exact .inr ⟨rfl, (Host.Outcome.next.inj h).symm⟩

theorem rejectWord_halted (h : s.halt = true) : s.rejectWord = .next (s.respond .aborted 0) := by
  rw [rejectWord_eq, start_halted h]

theorem rejectWord_running (h : s.halt = false) : s.rejectWord = .next (s.respond .illegal 0) := by
  rw [rejectWord_eq, start_running h]
  rfl

theorem begin_halted {α : Type} (h : s.halt = true) (sel : Option α) (run : α → State → State) :
    s.begin sel run = .next (s.respond .aborted 0) := by
  cases sel with
  | none => rw [begin_none_eq, rejectWord_halted h]
  | some a => rw [begin_some_eq, start_halted h]

theorem begin_none {α : Type} (h : s.halt = false) (run : α → State → State) :
    s.begin none run = .next (s.respond .illegal 0) := by
  rw [begin_none_eq, rejectWord_running h]

theorem begin_some {α : Type} (h : s.halt = false) (a : α) (run : α → State → State) :
    s.begin (some a) run = .next (run a s) := by
  rw [begin_some_eq, start_running h]

/-- Everything `begin` can do: answer `ABORTED`, answer `ILLEGAL`, or run the command on what was selected. -/
theorem begin_eq_next {α : Type} {sel : Option α} {run : α → State → State} (h : s.begin sel run = .next t) :
    (s.halt = true ∧ t = s.respond .aborted 0) ∨
    (s.halt = false ∧ sel = none ∧ t = s.respond .illegal 0) ∨
    (∃ a, s.halt = false ∧ sel = some a ∧ t = run a s) := by
  cases sel with
  | none =>
    rw [begin_none_eq, rejectWord_eq] at h
    exact (start_eq_next h).imp_right fun ⟨h1, h2⟩ => .inl ⟨h1, rfl, h2⟩
  | some a =>
    rw [begin_some_eq] at h
    exact (start_eq_next h).imp_right fun ⟨h1, h2⟩ => .inr ⟨a, h1, rfl, h2⟩

/-- `start` and `begin` always answer a next state (R65). -/
theorem start_isNext (s : State) (run : State → State) : ∃ t, s.start run = .next t := by
  cases hh : s.halt with
  | true => exact ⟨_, start_halted hh run⟩
  | false => exact ⟨_, start_running hh run⟩

theorem begin_isNext {α : Type} (s : State) (sel : Option α) (run : α → State → State) :
    ∃ t, s.begin sel run = .next t := by
  cases sel with
  | none =>
    rw [begin_none_eq, rejectWord_eq]
    exact start_isNext s _
  | some a => exact start_isNext s _

/-! ### Accesses to cells (R80) -/

/-- What a read changes: one event, and one free draw for an external cell. -/
theorem afterRead_eq (s : State) (c : Cell) :
    s.afterRead c = { s with
      trace := .cellRead c (s.cellValue c) :: s.trace
      draws := match c with | .ext _ => s.draws + 1 | _ => s.draws } := by
  cases c <;> rfl

@[simp] theorem afterRead_shadow (c : Cell) : (s.afterRead c).shadow = s.shadow := by cases c <;> rfl
@[simp] theorem afterRead_dispcnt (c : Cell) : (s.afterRead c).dispcnt = s.dispcnt := by cases c <;> rfl
@[simp] theorem afterRead_bgcnt (c : Cell) : (s.afterRead c).bgcnt = s.bgcnt := by cases c <;> rfl
@[simp] theorem afterRead_halt (c : Cell) : (s.afterRead c).halt = s.halt := by cases c <;> rfl
@[simp] theorem afterRead_mem (c : Cell) : (s.afterRead c).mem = s.mem := by cases c <;> rfl
@[simp] theorem afterRead_env (c : Cell) : (s.afterRead c).env = s.env := by cases c <;> rfl
@[simp] theorem afterRead_inputs (c : Cell) : (s.afterRead c).inputs = s.inputs := by cases c <;> rfl
@[simp] theorem afterRead_resetDraw (c : Cell) : (s.afterRead c).resetDraw = s.resetDraw := by cases c <;> rfl
@[simp] theorem afterRead_trace (c : Cell) :
    (s.afterRead c).trace = .cellRead c (s.cellValue c) :: s.trace := by cases c <;> rfl

@[simp] theorem cellWrite_halt (c : Cell) (v : Word) : (s.cellWrite c v).halt = s.halt := by cases c <;> rfl
@[simp] theorem cellWrite_mem (c : Cell) (v : Word) : (s.cellWrite c v).mem = s.mem := by cases c <;> rfl
@[simp] theorem cellWrite_inputs (c : Cell) (v : Word) : (s.cellWrite c v).inputs = s.inputs := by cases c <;> rfl
@[simp] theorem cellWrite_resetDraw (c : Cell) (v : Word) : (s.cellWrite c v).resetDraw = s.resetDraw := by
  cases c <;> rfl
@[simp] theorem cellWrite_trace (c : Cell) (v : Word) :
    (s.cellWrite c v).trace = .cellWrite c v :: s.trace := by cases c <;> rfl

/-- What a write does to the environment: an external cell's register, and nothing for the other cells (R23, R158). -/
theorem cellWrite_env (c : Cell) (v : Word) :
    (s.cellWrite c v).env =
      match c with
      | .ext k => s.env.extWrite k v (Config.envKeep k s.draws)
      | _ => s.env := by cases c <;> rfl

/-- A write uses a free draw for an external cell only. -/
theorem cellWrite_draws (c : Cell) (v : Word) :
    (s.cellWrite c v).draws = match c with | .ext _ => s.draws + 1 | _ => s.draws := by cases c <;> rfl

theorem cellWrite_envOk (h : EnvironmentOk s.env) (c : Cell) (v : Word) : EnvironmentOk (s.cellWrite c v).env := by
  rw [cellWrite_env]
  cases c with
  | ext k => exact h.extWrite k v _
  | shadow i => exact h
  | dispcnt => exact h
  | bgcnt n => exact h

/-- A field insert is one read, then one write of the value `bf` computes from the value read (R81, R91, R120). -/
theorem insertField_eq (s : State) (c : Cell) (value : Word) (width shift : Nat) :
    s.insertField c value width shift = (s.afterRead c).cellWrite c (bf (s.cellValue c) value width shift) := rfl

@[simp] theorem insertField_halt (c : Cell) (v : Word) (w sh : Nat) : (s.insertField c v w sh).halt = s.halt := by
  simp [insertField_eq]
@[simp] theorem insertField_mem (c : Cell) (v : Word) (w sh : Nat) : (s.insertField c v w sh).mem = s.mem := by
  simp [insertField_eq]
@[simp] theorem insertField_resetDraw (c : Cell) (v : Word) (w sh : Nat) :
    (s.insertField c v w sh).resetDraw = s.resetDraw := by
  simp [insertField_eq]
@[simp] theorem insertField_inputs (c : Cell) (v : Word) (w sh : Nat) : (s.insertField c v w sh).inputs = s.inputs := by
  simp [insertField_eq]
@[simp] theorem insertField_trace (c : Cell) (v : Word) (w sh : Nat) :
    (s.insertField c v w sh).trace =
      .cellWrite c (bf (s.cellValue c) v w sh) :: .cellRead c (s.cellValue c) :: s.trace := by
  simp [insertField_eq]

/-- A field insert into a shadow word. -/
theorem insertField_shadowCell (s : State) (i : Fin 512) (v : Word) (w sh : Nat) :
    s.insertField (.shadow i) v w sh = { s with
      shadow := s.shadow.set i (bf s.shadow[i] v w sh)
      trace := .cellWrite (.shadow i) (bf s.shadow[i] v w sh) :: .cellRead (.shadow i) s.shadow[i] :: s.trace } := rfl

/-- A field insert into `BGCNT[n]`. -/
theorem insertField_bgcntCell (s : State) (n : Fin 4) (v : Word) (w sh : Nat) :
    s.insertField (.bgcnt n) v w sh = { s with
      bgcnt := s.bgcnt.set n (bf s.bgcnt[n] v w sh)
      trace := .cellWrite (.bgcnt n) (bf s.bgcnt[n] v w sh) :: .cellRead (.bgcnt n) s.bgcnt[n] :: s.trace } := rfl

/-- A field insert into `DISPCNT`. -/
theorem insertField_dispcntCell (s : State) (v : Word) (w sh : Nat) :
    s.insertField .dispcnt v w sh = { s with
      dispcnt := bf s.dispcnt v w sh
      trace := .cellWrite .dispcnt (bf s.dispcnt v w sh) :: .cellRead .dispcnt s.dispcnt :: s.trace } := rfl

/-- A field insert into an external cell changes nothing in the block but the free draws it uses; the value written is
handed to the environment (R23). -/
theorem insertField_extCell (s : State) (k : Nat) (v : Word) (w sh : Nat) :
    s.insertField (.ext k) v w sh = { s with
      env := s.env.extWrite k (bf (Config.envRead k s.draws) v w sh) (Config.envKeep k (s.draws + 1))
      draws := s.draws + 2
      trace := .cellWrite (.ext k) (bf (Config.envRead k s.draws) v w sh) ::
        .cellRead (.ext k) (Config.envRead k s.draws) :: s.trace } := rfl

theorem insertField_envOk (h : EnvironmentOk s.env) (c : Cell) (v : Word) (w sh : Nat) :
    EnvironmentOk (s.insertField c v w sh).env := by
  rw [insertField_eq]
  exact cellWrite_envOk (by simpa using h) c _

/-! ### The tile map (R109) -/

/-- Everything a tile-map write can do: one write on the memory port, and the word stored where the map has the element. -/
theorem mapWrite_eq (P : Params) (s : State) (i : Nat) (v : Word) :
    s.mapWrite P i v = { s with
      mem := if i < 32768 then s.mem.writeWord (mapAddress P i).toNat v else s.mem
      trace := .portWrite (mapAddress P i) v :: s.trace } := by
  unfold State.mapWrite
  split <;> rfl

/-! ### The copy of the shadow table (R135) -/

/-- Everything the copy does: the 512 writes, and whatever becomes of `oam_safe` meanwhile. -/
theorem copyShadow_eq (P : Params) (s : State) :
    s.copyShadow P = { s with
      mem := copyInOrder P (List.finRange 512).reverse s.shadow s.mem
      trace := (copyWrites P (commitOrder s.draws) s.shadow).reverse ++ s.trace
      env := s.env.duringCommit s.draws
      draws := s.draws + 1 } := by
  simp only [State.copyShadow, State.recordAll, State.setMem, State.setEnv, State.nextDraw]

end Sys2Proof.Machine.State

namespace Sys2Proof.Machine

open Sys2Proof

/-- The addresses of `OAM` do not wrap at the default `OAM_BASE`. -/
theorem oamAddress_toNat {i : Nat} (h : i < 512) : (oamAddress params i).toNat = params.oamBase + i := by
  simp only [oamAddress, params, BitVec.toNat_ofNat]
  omega

/-- The addresses of the tile map do not wrap at the default `TILEMAP_BASE`. -/
theorem mapAddress_toNat {i : Nat} (h : i < 32768) : (mapAddress params i).toNat = params.tilemapBase + i := by
  simp only [mapAddress, params, BitVec.toNat_ofNat]
  omega

theorem copyInOrder_cons (i : Fin 512) (order : List (Fin 512)) (shadow : Vector Word 512) (m : Memory) :
    copyInOrder params (i :: order) shadow m =
      copyInOrder params order shadow (m.writeWord (oamAddress params i.val).toNat shadow[i]) := rfl

/-- A byte outside the words a copy writes reads as before. -/
theorem readByte_copyInOrder_outside {order : List (Fin 512)} {shadow : Vector Word 512} {m : Memory} {a : Nat}
    (h : ∀ i ∈ order, a / 2 ≠ params.oamBase + i.val) :
    (copyInOrder params order shadow m).readByte a = m.readByte a := by
  induction order generalizing m with
  | nil => rfl
  | cons i order ih =>
    have hi := h i (by simp)
    rw [copyInOrder_cons, ih fun j hj => h j (by simp [hj]), Memory.readByte_writeWord, oamAddress_toNat i.isLt,
      if_neg (by omega), if_neg (by omega)]

/-- A byte of a word the copy writes is the shadow word's byte, whatever the order. -/
theorem readByte_copyInOrder_inside {order : List (Fin 512)} {shadow : Vector Word 512} {m : Memory} {a : Nat} {i : Fin 512}
    (hi : i ∈ order) (h : a / 2 = params.oamBase + i.val) :
    (copyInOrder params order shadow m).readByte a =
      some (if a % 2 = 0 then shadow[i].extractLsb' 0 8 else shadow[i].extractLsb' 8 8) := by
  induction order generalizing m with
  | nil => simp at hi
  | cons j order ih =>
    rw [copyInOrder_cons]
    by_cases hmem : i ∈ order
    · exact ih hmem
    · have hij : i = j := by simpa [hmem] using hi
      subst hij
      have hout : ∀ k ∈ order, a / 2 ≠ params.oamBase + k.val := fun k hk he => hmem (by
        have : k = i := Fin.ext (by omega)
        rwa [← this])
      rw [readByte_copyInOrder_outside hout, Memory.readByte_writeWord, oamAddress_toNat i.isLt]
      by_cases hpar : a % 2 = 0
      · rw [if_pos (by omega), if_pos hpar]
      · rw [if_neg (by omega), if_pos (by omega), if_neg hpar]

/-- A copy keeps the canonical form. -/
theorem copyInOrder_wf {m : Memory} (hm : m.wf) (order : List (Fin 512)) (shadow : Vector Word 512) :
    (copyInOrder params order shadow m).wf := by
  induction order generalizing m with
  | nil => exact hm
  | cons i order ih => exact ih (Memory.writeWord_wf hm _ _)

/-- A copy's result does not depend on the order of its writes (R135): two orders naming the same indices. -/
theorem copyInOrder_congr {o o' : List (Fin 512)} (h : ∀ i, i ∈ o ↔ i ∈ o') (shadow : Vector Word 512) {m : Memory}
    (hm : m.wf) : copyInOrder params o shadow m = copyInOrder params o' shadow m := by
  refine Memory.ext_of_readByte (copyInOrder_wf hm _ _) (copyInOrder_wf hm _ _) fun a => ?_
  by_cases ha : ∃ i ∈ o, a / 2 = params.oamBase + i.val
  · obtain ⟨i, hi, hai⟩ := ha
    rw [readByte_copyInOrder_inside hi hai, readByte_copyInOrder_inside ((h i).mp hi) hai]
  · have hout : ∀ i ∈ o, a / 2 ≠ params.oamBase + i.val := fun i hi he => ha ⟨i, hi, he⟩
    rw [readByte_copyInOrder_outside hout, readByte_copyInOrder_outside fun i hi => hout i ((h i).mpr hi)]

/-- A word a copy writes reads back as the shadow word. -/
theorem readWord_copyInOrder {order : List (Fin 512)} (shadow : Vector Word 512) (m : Memory) {i : Fin 512}
    (hi : i ∈ order) : (copyInOrder params order shadow m).readWord (params.oamBase + i.val) = some shadow[i] := by
  simp only [Memory.readWord]
  rw [readByte_copyInOrder_inside hi (by omega), readByte_copyInOrder_inside hi (by omega)]
  rw [if_pos (by omega), if_neg (by omega)]
  simp only [Memory.bytes_append]

/-- The bytes listed after a copy are bytes of `OAM` or were listed before. -/
theorem mem_copyInOrder {m : Memory} {order : List (Fin 512)} {shadow : Vector Word 512} {c : Host.Cell}
    (h : c ∈ copyInOrder params order shadow m) : inOamBytes c.1 ∨ c ∈ m := by
  induction order generalizing m with
  | nil => exact .inr h
  | cons i order ih =>
    have hi := i.isLt
    rcases ih h with h | h
    · exact .inl h
    · rcases Memory.mem_writeWord h with h | h | h
      · rw [oamAddress_toNat hi] at h
        exact .inl (by unfold inOamBytes; omega)
      · rw [oamAddress_toNat hi] at h
        exact .inl (by unfold inOamBytes; omega)
      · exact .inr h

/-- A tile-map write keeps the canonical form. -/
theorem State.mapWrite_wf {s : State} (h : s.mem.wf) (i : Nat) (v : Word) :
    (s.mapWrite params i v).mem.wf := by
  rw [State.mapWrite_eq]
  show Memory.wf (if i < 32768 then _ else _)
  split
  · exact Memory.writeWord_wf h _ _
  · exact h

/-- The copy of the shadow table keeps the canonical form. -/
theorem State.copyShadow_wf {s : State} (h : s.mem.wf) : (s.copyShadow params).mem.wf := by
  have e : (s.copyShadow params).mem = copyInOrder params (List.finRange 512).reverse s.shadow s.mem := by
    rw [State.copyShadow_eq]
  rw [e]
  exact copyInOrder_wf h _ _

/-- The order of a COMMIT names each index exactly once (R135). -/
theorem commitOrder_perm (draw : Nat) : (commitOrder draw).Perm (List.finRange 512) := by
  rw [List.perm_ext_iff_of_nodup]
  · intro i
    simp only [commitOrder, List.mem_map, List.mem_finRange, true_and, iff_true]
    exact (Config.commitOrder draw).surjective i
  · exact (List.nodup_finRange 512).map (Config.commitOrder draw).injective
  · exact List.nodup_finRange 512

end Sys2Proof.Machine
end

