-- ==== Sys2Proof/Laws/Exec.lean ====
section
/-! SUPPORT. What `exec` is, command by command: the checks of R63 on what the operand selects, then the command's effect;
and what every command can do, whatever it is. -/

namespace Sys2Proof.Machine

open Sys2Proof

theorem exec_setbits (sel value width shift : Word) (s : State) :
    exec (.setbits sel value width shift) s = s.begin (cellOf params sel) (setbitsOn value width shift) := rfl

theorem exec_rdcell (sel : Word) (s : State) :
    exec (.rdcell sel) s = s.begin (cellOf params sel) rdcellOn := rfl

theorem exec_wrcell (sel value : Word) (s : State) :
    exec (.wrcell sel value) s = s.begin (cellOf params sel) (wrcellOn value) := rfl

theorem exec_dispset (value : Word) (s : State) :
    exec (.dispset value) s = s.start (dispsetRun value) := rfl

theorem exec_bgprio (bg value : Word) (s : State) :
    exec (.bgprio bg value) s = s.begin (bgOf bg) (bgField params.layout.bgcnt.prio value) := rfl

theorem exec_bgtbank (bg value : Word) (s : State) :
    exec (.bgtbank bg value) s = s.begin (bgOf bg) (bgField params.layout.bgcnt.tbank value) := rfl

theorem exec_bgcdepth (bg value : Word) (s : State) :
    exec (.bgcdepth bg value) s = s.begin (bgOf bg) (bgField params.layout.bgcnt.cdepth value) := rfl

theorem exec_bgsize (bg value : Word) (s : State) :
    exec (.bgsize bg value) s = s.begin (bgOf bg) (bgField params.layout.bgcnt.size value) := rfl

theorem exec_bgsbb (bg value : Word) (s : State) :
    exec (.bgsbb bg value) s = s.begin (bgOf bg) (bgsbbRun params value) := rfl

theorem exec_bgsbbu (bg value : Word) (s : State) :
    exec (.bgsbbu bg value) s = s.begin (bgOf bg) (bgField params.layout.bgcnt.sbb value) := rfl

theorem exec_rblk (size x y : Word) (s : State) :
    exec (.rblk size x y) s = s.start (rblkRun params size x y) := rfl

theorem exec_roff (x y : Word) (s : State) :
    exec (.roff x y) s = s.start (roffRun x y) := rfl

theorem exec_encse (tileId hflip vflip paletteBank : Word) (s : State) :
    exec (.encse tileId hflip vflip paletteBank) s = s.start (encseRun params tileId hflip vflip paletteBank) := rfl

theorem exec_taddr (bg x y : Word) (s : State) :
    exec (.taddr bg x y) s = s.begin (bgOf bg) (taddrRun params x y) := rfl

theorem exec_mapwr (bg x y entry : Word) (s : State) :
    exec (.mapwr bg x y entry) s = s.begin (bgOf bg) (mapwrRun params x y entry) := rfl

theorem exec_objpos (idx x y : Word) (s : State) :
    exec (.objpos idx x y) s = s.begin (objOf idx) (objposRun params x y) := rfl

theorem exec_objmode (idx value : Word) (s : State) :
    exec (.objmode idx value) s = s.begin (objOf idx) (objSetter 0 params.layout.attr0.dmode value) := rfl

theorem exec_objgfx (idx value : Word) (s : State) :
    exec (.objgfx idx value) s = s.begin (objOf idx) (objSetter 0 params.layout.attr0.gmode value) := rfl

theorem exec_objmosaic (idx flag : Word) (s : State) :
    exec (.objmosaic idx flag) s = s.begin (objOf idx) (objSetter 0 params.layout.attr0.mosaic flag) := rfl

theorem exec_objcdepth (idx flag : Word) (s : State) :
    exec (.objcdepth idx flag) s = s.begin (objOf idx) (objSetter 0 params.layout.attr0.cdepth flag) := rfl

theorem exec_objshape (idx value : Word) (s : State) :
    exec (.objshape idx value) s = s.begin (objOf idx) (objSetter 0 params.layout.attr0.shape value) := rfl

theorem exec_objsize (idx value : Word) (s : State) :
    exec (.objsize idx value) s = s.begin (objOf idx) (objSetter 1 params.layout.attr1.size value) := rfl

theorem exec_objaffidx (idx value : Word) (s : State) :
    exec (.objaffidx idx value) s = s.begin (objOf idx) (objSetter 1 params.layout.attr1.affidx value) := rfl

theorem exec_objhflip (idx flag : Word) (s : State) :
    exec (.objhflip idx flag) s = s.begin (objOf idx) (objSetter 1 params.layout.attr1.hflip flag) := rfl

theorem exec_objvflip (idx flag : Word) (s : State) :
    exec (.objvflip idx flag) s = s.begin (objOf idx) (objSetter 1 params.layout.attr1.vflip flag) := rfl

theorem exec_objtile (idx value : Word) (s : State) :
    exec (.objtile idx value) s = s.begin (objOf idx) (objSetter 2 params.layout.attr2.tile value) := rfl

theorem exec_objprio (idx value : Word) (s : State) :
    exec (.objprio idx value) s = s.begin (objOf idx) (objSetter 2 params.layout.attr2.prio value) := rfl

theorem exec_objpal (idx value : Word) (s : State) :
    exec (.objpal idx value) s = s.begin (objOf idx) (objSetter 2 params.layout.attr2.palbank value) := rfl

theorem exec_affset (n k value : Word) (s : State) :
    exec (.affset n k value) s = s.begin (coeffOf n k) (affsetRun value) := rfl

theorem exec_commit (s : State) :
    exec (.commit) s = s.start (commitRun params) := rfl

/-- Every command answers a next state (R65). -/
theorem exec_next (i : Instr) (s : State) : ∃ t, exec i s = .next t := by
  cases i
  case setbits => exact State.begin_isNext s _ _
  case rdcell => exact State.begin_isNext s _ _
  case wrcell => exact State.begin_isNext s _ _
  case dispset => exact State.start_isNext s _
  case bgprio => exact State.begin_isNext s _ _
  case bgtbank => exact State.begin_isNext s _ _
  case bgcdepth => exact State.begin_isNext s _ _
  case bgsize => exact State.begin_isNext s _ _
  case bgsbb => exact State.begin_isNext s _ _
  case bgsbbu => exact State.begin_isNext s _ _
  case rblk => exact State.start_isNext s _
  case roff => exact State.start_isNext s _
  case encse => exact State.start_isNext s _
  case taddr => exact State.begin_isNext s _ _
  case mapwr => exact State.begin_isNext s _ _
  case objpos => exact State.begin_isNext s _ _
  case objmode => exact State.begin_isNext s _ _
  case objgfx => exact State.begin_isNext s _ _
  case objmosaic => exact State.begin_isNext s _ _
  case objcdepth => exact State.begin_isNext s _ _
  case objshape => exact State.begin_isNext s _ _
  case objsize => exact State.begin_isNext s _ _
  case objaffidx => exact State.begin_isNext s _ _
  case objhflip => exact State.begin_isNext s _ _
  case objvflip => exact State.begin_isNext s _ _
  case objtile => exact State.begin_isNext s _ _
  case objprio => exact State.begin_isNext s _ _
  case objpal => exact State.begin_isNext s _ _
  case affset => exact State.begin_isNext s _ _
  case commit => exact State.start_isNext s _

/-- A halted block answers `ABORTED` to every command and changes nothing (R151). -/
theorem exec_halted (i : Instr) {s : State} (h : s.halt = true) : exec i s = .next (s.respond .aborted 0) := by
  cases i
  case setbits => exact State.begin_halted h _ _
  case rdcell => exact State.begin_halted h _ _
  case wrcell => exact State.begin_halted h _ _
  case dispset => exact State.start_halted h _
  case bgprio => exact State.begin_halted h _ _
  case bgtbank => exact State.begin_halted h _ _
  case bgcdepth => exact State.begin_halted h _ _
  case bgsize => exact State.begin_halted h _ _
  case bgsbb => exact State.begin_halted h _ _
  case bgsbbu => exact State.begin_halted h _ _
  case rblk => exact State.start_halted h _
  case roff => exact State.start_halted h _
  case encse => exact State.start_halted h _
  case taddr => exact State.begin_halted h _ _
  case mapwr => exact State.begin_halted h _ _
  case objpos => exact State.begin_halted h _ _
  case objmode => exact State.begin_halted h _ _
  case objgfx => exact State.begin_halted h _ _
  case objmosaic => exact State.begin_halted h _ _
  case objcdepth => exact State.begin_halted h _ _
  case objshape => exact State.begin_halted h _ _
  case objsize => exact State.begin_halted h _ _
  case objaffidx => exact State.begin_halted h _ _
  case objhflip => exact State.begin_halted h _ _
  case objvflip => exact State.begin_halted h _ _
  case objtile => exact State.begin_halted h _ _
  case objprio => exact State.begin_halted h _ _
  case objpal => exact State.begin_halted h _ _
  case affset => exact State.begin_halted h _ _
  case commit => exact State.start_halted h _

/-- A selector out of range answers `ILLEGAL` and changes nothing (R153). -/
theorem exec_illFormed (i : Instr) {s : State} (h : s.halt = false) (hw : i.wellFormed params = false) :
    exec i s = .next (s.respond .illegal 0) := by
  have none_of {α : Type} {o : Option α} {b : Bool} (hs : o.isSome = b) (hb : b = false) : o = none :=
    Option.isSome_eq_false_iff.mp (hs.trans hb) |> Option.isNone_iff_eq_none.mp
  cases i
  case setbits => rw [exec_setbits, none_of (cellOf_isSome _ _) hw, State.begin_none h]
  case rdcell => rw [exec_rdcell, none_of (cellOf_isSome _ _) hw, State.begin_none h]
  case wrcell => rw [exec_wrcell, none_of (cellOf_isSome _ _) hw, State.begin_none h]
  case dispset => exact absurd hw (by simp [Instr.wellFormed])
  case bgprio => rw [exec_bgprio, none_of (bgOf_isSome _) hw, State.begin_none h]
  case bgtbank => rw [exec_bgtbank, none_of (bgOf_isSome _) hw, State.begin_none h]
  case bgcdepth => rw [exec_bgcdepth, none_of (bgOf_isSome _) hw, State.begin_none h]
  case bgsize => rw [exec_bgsize, none_of (bgOf_isSome _) hw, State.begin_none h]
  case bgsbb => rw [exec_bgsbb, none_of (bgOf_isSome _) hw, State.begin_none h]
  case bgsbbu => rw [exec_bgsbbu, none_of (bgOf_isSome _) hw, State.begin_none h]
  case rblk => exact absurd hw (by simp [Instr.wellFormed])
  case roff => exact absurd hw (by simp [Instr.wellFormed])
  case encse => exact absurd hw (by simp [Instr.wellFormed])
  case taddr => rw [exec_taddr, none_of (bgOf_isSome _) hw, State.begin_none h]
  case mapwr => rw [exec_mapwr, none_of (bgOf_isSome _) hw, State.begin_none h]
  case objpos => rw [exec_objpos, none_of (objOf_isSome _) hw, State.begin_none h]
  case objmode => rw [exec_objmode, none_of (objOf_isSome _) hw, State.begin_none h]
  case objgfx => rw [exec_objgfx, none_of (objOf_isSome _) hw, State.begin_none h]
  case objmosaic => rw [exec_objmosaic, none_of (objOf_isSome _) hw, State.begin_none h]
  case objcdepth => rw [exec_objcdepth, none_of (objOf_isSome _) hw, State.begin_none h]
  case objshape => rw [exec_objshape, none_of (objOf_isSome _) hw, State.begin_none h]
  case objsize => rw [exec_objsize, none_of (objOf_isSome _) hw, State.begin_none h]
  case objaffidx => rw [exec_objaffidx, none_of (objOf_isSome _) hw, State.begin_none h]
  case objhflip => rw [exec_objhflip, none_of (objOf_isSome _) hw, State.begin_none h]
  case objvflip => rw [exec_objvflip, none_of (objOf_isSome _) hw, State.begin_none h]
  case objtile => rw [exec_objtile, none_of (objOf_isSome _) hw, State.begin_none h]
  case objprio => rw [exec_objprio, none_of (objOf_isSome _) hw, State.begin_none h]
  case objpal => rw [exec_objpal, none_of (objOf_isSome _) hw, State.begin_none h]
  case affset => rw [exec_affset, none_of (coeffOf_isSome _ _) hw, State.begin_none h]
  case commit => exact absurd hw (by simp [Instr.wellFormed])

/-- Everything a command can do: answer `ABORTED` when halted, answer `ILLEGAL` when its selector is out of range, or run. -/
theorem exec_cases {i : Instr} {s t : State} (h : exec i s = .next t) :
    (s.halt = true ∧ t = s.respond .aborted 0) ∨
    (s.halt = false ∧ i.wellFormed params = false ∧ t = s.respond .illegal 0) ∨
    (s.halt = false ∧ i.wellFormed params = true) := by
  cases hh : s.halt with
  | true =>
    rw [exec_halted i hh] at h
    exact .inl ⟨rfl, (Host.Outcome.next.inj h).symm⟩
  | false =>
    cases hw : i.wellFormed params with
    | true => exact .inr (.inr ⟨rfl, rfl⟩)
    | false =>
      rw [exec_illFormed i hh hw] at h
      exact .inr (.inl ⟨rfl, rfl, (Host.Outcome.next.inj h).symm⟩)

/-- A relation that holds of the two rejections, and of the effect of every command, holds of every command. -/
theorem exec_rel {R : State → State → Prop} (s : State)
    (halted : s.halt = true → R s (s.respond .aborted 0))
    (illegal : s.halt = false → R s (s.respond .illegal 0))
    (setbits : ∀ v w sh c, s.halt = false → R s (setbitsOn v w sh c s))
    (rdcell : ∀ c, s.halt = false → R s (rdcellOn c s))
    (wrcell : ∀ v c, s.halt = false → R s (wrcellOn v c s))
    (dispset : ∀ v, s.halt = false → R s (dispsetRun v s))
    (bg : ∀ f v n, s.halt = false → R s (bgField f v n s))
    (rejected : s.halt = false → R s (s.respond .rejected 0))
    (rblk : ∀ z x y, s.halt = false → R s (rblkRun params z x y s))
    (roff : ∀ x y, s.halt = false → R s (roffRun x y s))
    (encse : ∀ t h v b, s.halt = false → R s (encseRun params t h v b s))
    (taddr : ∀ x y n, s.halt = false → R s (taddrRun params x y n s))
    (mapwr : ∀ x y e n, s.halt = false → R s (mapwrRun params x y e n s))
    (objpos : ∀ x y e, s.halt = false → R s (objposRun params x y e s))
    (objset : ∀ w f v e, s.halt = false → R s (objSetter w f v e s))
    (affset : ∀ v i, s.halt = false → R s (affsetRun v i s))
    (commit : s.halt = false → R s (commitRun params s))
    (i : Instr) {t : State} (h : exec i s = .next t) : R s t := by
  have run {α : Type} {sel : Option α} {f : α → State → State} (hf : ∀ a, s.halt = false → R s (f a s))
      (hb : s.begin sel f = .next t) : R s t := by
    obtain ⟨h1, rfl⟩ | ⟨h1, -, rfl⟩ | ⟨a, h1, -, rfl⟩ := State.begin_eq_next hb
    · exact halted h1
    · exact illegal h1
    · exact hf a h1
  have run0 {f : State → State} (hf : s.halt = false → R s (f s)) (hb : s.start f = .next t) : R s t := by
    obtain ⟨h1, rfl⟩ | ⟨h1, rfl⟩ := State.start_eq_next hb
    · exact halted h1
    · exact hf h1
  cases i
  case setbits => exact run (fun c => setbits _ _ _ c) h
  case rdcell => exact run (fun c => rdcell c) h
  case wrcell => exact run (fun c => wrcell _ c) h
  case dispset => exact run0 (dispset _) h
  case bgprio => exact run (fun n => bg _ _ n) h
  case bgtbank => exact run (fun n => bg _ _ n) h
  case bgcdepth => exact run (fun n => bg _ _ n) h
  case bgsize => exact run (fun n => bg _ _ n) h
  case bgsbb =>
    refine run (fun n hs => ?_) h
    unfold bgsbbRun
    split
    · exact rejected hs
    · exact bg _ _ n hs
  case bgsbbu => exact run (fun n => bg _ _ n) h
  case rblk => exact run0 (rblk _ _ _) h
  case roff => exact run0 (roff _ _) h
  case encse => exact run0 (encse _ _ _ _) h
  case taddr => exact run (fun n => taddr _ _ n) h
  case mapwr => exact run (fun n => mapwr _ _ _ n) h
  case objpos => exact run (fun e => objpos _ _ e) h
  case objmode => exact run (fun e => objset _ _ _ e) h
  case objgfx => exact run (fun e => objset _ _ _ e) h
  case objmosaic => exact run (fun e => objset _ _ _ e) h
  case objcdepth => exact run (fun e => objset _ _ _ e) h
  case objshape => exact run (fun e => objset _ _ _ e) h
  case objsize => exact run (fun e => objset _ _ _ e) h
  case objaffidx => exact run (fun e => objset _ _ _ e) h
  case objhflip => exact run (fun e => objset _ _ _ e) h
  case objvflip => exact run (fun e => objset _ _ _ e) h
  case objtile => exact run (fun e => objset _ _ _ e) h
  case objprio => exact run (fun e => objset _ _ _ e) h
  case objpal => exact run (fun e => objset _ _ _ e) h
  case affset => exact run (fun i => affset _ i) h
  case commit => exact run0 (commit) h

end Sys2Proof.Machine
end

