-- ==== Sys2Proof/Laws/PerInstr.lean ====
section
/-! SUPPORT. The encoding of each command, command by command (R60 to R62): the opcode number stands in `op`, the operands
in order in the fields after it, zeros in the reserved fields. -/

namespace Sys2Proof.Laws

open Sys2Proof

/-- The opcode number of a command (R62). -/
def opcodeOf : Instr → Word
  | .setbits _ _ _ _ => 0x0001
  | .rdcell _ => 0x0002
  | .wrcell _ _ => 0x0003
  | .dispset _ => 0x0010
  | .bgprio _ _ => 0x0011
  | .bgtbank _ _ => 0x0012
  | .bgcdepth _ _ => 0x0013
  | .bgsize _ _ => 0x0014
  | .bgsbb _ _ => 0x0015
  | .bgsbbu _ _ => 0x0016
  | .rblk _ _ _ => 0x0020
  | .roff _ _ => 0x0021
  | .encse _ _ _ _ => 0x0022
  | .taddr _ _ _ => 0x0023
  | .mapwr _ _ _ _ => 0x0024
  | .objpos _ _ _ => 0x0030
  | .objmode _ _ => 0x0031
  | .objgfx _ _ => 0x0032
  | .objmosaic _ _ => 0x0033
  | .objcdepth _ _ => 0x0034
  | .objshape _ _ => 0x0035
  | .objsize _ _ => 0x0036
  | .objaffidx _ _ => 0x0037
  | .objhflip _ _ => 0x0038
  | .objvflip _ _ => 0x0039
  | .objtile _ _ => 0x003A
  | .objprio _ _ => 0x003B
  | .objpal _ _ => 0x003C
  | .affset _ _ _ => 0x003D
  | .commit => 0x003E

/-- The five fields of a command's word: its opcode number, its operands, zeros. -/
def Opcode.Statement (i : Instr) : Prop :=
  fieldOp (encode i) = opcodeOf i ∧
  [fieldP (encode i), fieldQ (encode i), fieldR (encode i), fieldS (encode i)] =
    i.operands ++ List.replicate (4 - i.operands.length) 0

/-- The fields of a packed word. -/
theorem pack_statement (op p q r s : Word) :
    fieldOp (pack op p q r s) = op ∧
    [fieldP (pack op p q r s), fieldQ (pack op p q r s), fieldR (pack op p q r s), fieldS (pack op p q r s)] =
      [p, q, r, s] :=
  ⟨fieldOp_pack op p q r s, by rw [fieldP_pack, fieldQ_pack, fieldR_pack, fieldS_pack]⟩

theorem Opcode.setbits (sel value width shift : Word) : Opcode.Statement (.setbits sel value width shift) :=
  pack_statement 0x0001 sel value width shift

theorem Opcode.rdcell (sel : Word) : Opcode.Statement (.rdcell sel) :=
  pack_statement 0x0002 sel 0 0 0

theorem Opcode.wrcell (sel value : Word) : Opcode.Statement (.wrcell sel value) :=
  pack_statement 0x0003 sel value 0 0

theorem Opcode.dispset (value : Word) : Opcode.Statement (.dispset value) :=
  pack_statement 0x0010 value 0 0 0

theorem Opcode.bgprio (bg value : Word) : Opcode.Statement (.bgprio bg value) :=
  pack_statement 0x0011 bg value 0 0

theorem Opcode.bgtbank (bg value : Word) : Opcode.Statement (.bgtbank bg value) :=
  pack_statement 0x0012 bg value 0 0

theorem Opcode.bgcdepth (bg value : Word) : Opcode.Statement (.bgcdepth bg value) :=
  pack_statement 0x0013 bg value 0 0

theorem Opcode.bgsize (bg value : Word) : Opcode.Statement (.bgsize bg value) :=
  pack_statement 0x0014 bg value 0 0

theorem Opcode.bgsbb (bg value : Word) : Opcode.Statement (.bgsbb bg value) :=
  pack_statement 0x0015 bg value 0 0

theorem Opcode.bgsbbu (bg value : Word) : Opcode.Statement (.bgsbbu bg value) :=
  pack_statement 0x0016 bg value 0 0

theorem Opcode.rblk (size x y : Word) : Opcode.Statement (.rblk size x y) :=
  pack_statement 0x0020 size x y 0

theorem Opcode.roff (x y : Word) : Opcode.Statement (.roff x y) :=
  pack_statement 0x0021 x y 0 0

theorem Opcode.encse (tileId hflip vflip paletteBank : Word) : Opcode.Statement (.encse tileId hflip vflip paletteBank) :=
  pack_statement 0x0022 tileId hflip vflip paletteBank

theorem Opcode.taddr (bg x y : Word) : Opcode.Statement (.taddr bg x y) :=
  pack_statement 0x0023 bg x y 0

theorem Opcode.mapwr (bg x y entry : Word) : Opcode.Statement (.mapwr bg x y entry) :=
  pack_statement 0x0024 bg x y entry

theorem Opcode.objpos (idx x y : Word) : Opcode.Statement (.objpos idx x y) :=
  pack_statement 0x0030 idx x y 0

theorem Opcode.objmode (idx value : Word) : Opcode.Statement (.objmode idx value) :=
  pack_statement 0x0031 idx value 0 0

theorem Opcode.objgfx (idx value : Word) : Opcode.Statement (.objgfx idx value) :=
  pack_statement 0x0032 idx value 0 0

theorem Opcode.objmosaic (idx flag : Word) : Opcode.Statement (.objmosaic idx flag) :=
  pack_statement 0x0033 idx flag 0 0

theorem Opcode.objcdepth (idx flag : Word) : Opcode.Statement (.objcdepth idx flag) :=
  pack_statement 0x0034 idx flag 0 0

theorem Opcode.objshape (idx value : Word) : Opcode.Statement (.objshape idx value) :=
  pack_statement 0x0035 idx value 0 0

theorem Opcode.objsize (idx value : Word) : Opcode.Statement (.objsize idx value) :=
  pack_statement 0x0036 idx value 0 0

theorem Opcode.objaffidx (idx value : Word) : Opcode.Statement (.objaffidx idx value) :=
  pack_statement 0x0037 idx value 0 0

theorem Opcode.objhflip (idx flag : Word) : Opcode.Statement (.objhflip idx flag) :=
  pack_statement 0x0038 idx flag 0 0

theorem Opcode.objvflip (idx flag : Word) : Opcode.Statement (.objvflip idx flag) :=
  pack_statement 0x0039 idx flag 0 0

theorem Opcode.objtile (idx value : Word) : Opcode.Statement (.objtile idx value) :=
  pack_statement 0x003A idx value 0 0

theorem Opcode.objprio (idx value : Word) : Opcode.Statement (.objprio idx value) :=
  pack_statement 0x003B idx value 0 0

theorem Opcode.objpal (idx value : Word) : Opcode.Statement (.objpal idx value) :=
  pack_statement 0x003C idx value 0 0

theorem Opcode.affset (n k value : Word) : Opcode.Statement (.affset n k value) :=
  pack_statement 0x003D n k value 0

theorem Opcode.commit : Opcode.Statement .commit :=
  pack_statement 0x003E 0 0 0 0

end Sys2Proof.Laws
end

