-- ==== Sys2Proof/Laws/Port.lean ====
section
/-! SUPPORT. Which input comes next (R165 to R167), what a step does with each kind of input, and that the machine of any
parameters is the same at the default record. -/

namespace Sys2Proof.Machine

open Sys2Proof

/-! ### The next input -/

/-- What the search finds: an input that can come, with none such before it; the others stay in order, but for those before it
that never come. -/
theorem firstAdmitted_eq_some {admits excludes : Input → Bool} {l rest : List Input} {x : Input} :
    firstAdmitted admits excludes l = some (x, rest) ↔
      ∃ pre post, l = pre ++ x :: post ∧ rest = pre.filter (fun y => !excludes y) ++ post ∧ admits x = true ∧
        ∀ y ∈ pre, admits y = false := by
  induction l generalizing rest with
  | nil => simp [firstAdmitted]
  | cons a l ih =>
    unfold firstAdmitted
    cases ha : admits a with
    | false =>
      have hk (r post : List Input) (pre : List Input) (h : r = pre.filter (fun y => !excludes y) ++ post) :
          (if excludes a then r else a :: r) = (a :: pre).filter (fun y => !excludes y) ++ post := by
        cases he : excludes a <;> simp [he, h]
      rw [if_neg (by simp), Option.map_eq_some_iff]
      constructor
      · rintro ⟨⟨x', r⟩, hr, h⟩
        obtain ⟨rfl, rfl⟩ := Prod.mk.inj h
        obtain ⟨pre, post, rfl, h2, h3, h4⟩ := ih.mp hr
        exact ⟨a :: pre, post, rfl, hk r post pre h2, h3, by simpa [ha] using h4⟩
      · rintro ⟨pre, post, h1, h2, h3, h4⟩
        cases pre with
        | nil =>
          obtain ⟨rfl, -⟩ := List.cons.inj h1
          simp [ha] at h3
        | cons b pre =>
          obtain ⟨rfl, rfl⟩ := List.cons.inj h1
          exact ⟨(x, pre.filter (fun y => !excludes y) ++ post),
            ih.mpr ⟨pre, post, rfl, rfl, h3, fun y hy => h4 y (by simp [hy])⟩, by rw [h2, ← hk _ post pre rfl]⟩
    | true =>
      rw [if_pos rfl, Option.some.injEq, Prod.mk.injEq]
      constructor
      · rintro ⟨rfl, rfl⟩
        exact ⟨[], l, rfl, rfl, ha, by simp⟩
      · rintro ⟨pre, post, h1, h2, -, h4⟩
        cases pre with
        | nil =>
          obtain ⟨rfl, rfl⟩ := List.cons.inj h1
          exact ⟨rfl, h2.symm⟩
        | cons b pre =>
          obtain ⟨rfl, -⟩ := List.cons.inj h1
          have := h4 a (by simp)
          simp [ha] at this

/-- It finds nothing exactly where no pending input can come. -/
theorem firstAdmitted_eq_none {admits excludes : Input → Bool} {l : List Input} :
    firstAdmitted admits excludes l = none ↔ ∀ y ∈ l, admits y = false := by
  induction l with
  | nil => simp [firstAdmitted]
  | cons a l ih =>
    unfold firstAdmitted
    cases ha : admits a with
    | true => simp [ha]
    | false => simp [ih, ha]

namespace State

variable {s : State} {x : Input} {rest : List Input} {run : Instr → State → Result}

/-- The next input is pending and can come. -/
theorem admits_of_nextInput (h : s.nextInput run = some (x, rest)) : s.admits x run = true := by
  obtain ⟨_, _, -, -, h, -⟩ := firstAdmitted_eq_some.mp h
  exact h

/-- Whoever gives it can act. -/
theorem lets_of_nextInput (h : s.nextInput run = some (x, rest)) : s.env.lets x.source = true := by
  have := admits_of_nextInput h
  simp only [State.admits, Bool.and_eq_true] at this
  exact this.1

/-- An input of the main flow or of the hardware that can act, first in the list, is the next. -/
theorem nextInput_cons (h : s.admits x run = true) (hi : s.inputs = x :: rest) : s.nextInput run = some (x, rest) := by
  rw [State.nextInput, hi, firstAdmitted, if_pos h]

theorem nextInput_nil (h : s.inputs = []) : s.nextInput run = none := by
  rw [State.nextInput, h, firstAdmitted]

end State

namespace Environment

variable {e : Environment}

/-- The main flow acts exactly where it runs and no dispatch routine preempts it (R165). -/
theorem lets_mainFlow : e.lets .mainFlow = true ↔ e.flow = .running ∧ e.routine = none := by
  simp [lets]

/-- The dispatch routine acts exactly where it runs (R165). -/
theorem lets_routine : e.lets .routine = true ↔ e.routine ≠ none := by
  simp [lets]

/-- The routine handles vblank exactly where it runs and read the vblank bit at its start (R163). -/
theorem handlesVblank_iff : e.handlesVblank = true ↔ ∃ fired, e.routine = some fired ∧ inMask fired .vblank = true := by
  unfold handlesVblank
  cases e.routine <;> simp

theorem lets_routine_of_handlesVblank (h : e.handlesVblank = true) : e.lets .routine = true := by
  obtain ⟨fired, hr, -⟩ := handlesVblank_iff.mp h
  simp [lets, hr]

end Environment

/-! ### The step -/

variable {s : State}

theorem step_idle (h : s.nextInput = none) : step s = .next s := by
  unfold step stepOf
  rw [h]

theorem step_input {x : Input} {rest : List Input} (h : s.nextInput = some (x, rest)) :
    step s = takeInput x (s.setInputs rest) := by
  unfold step stepOf
  rw [h]

/-! ### The parameters (R5) -/

/-- The default record gives the meanings of `exec`. -/
theorem execWith_params : execWith params = exec := by
  funext i s
  cases i <;> rfl

/-- The default record gives the machine's step. -/
theorem stepWith_params : stepWith params = step := by
  funext s
  rw [stepWith, execWith_params]
  rfl

/-- The machine of the default record is the package's core. -/
theorem machine_params : machine params = Sys2Proof.core := by
  rw [machine, stepWith_params]
  rfl

theorem runWord_ok {w : CommandWord} {i : Instr} (h : decode w = .ok i) (s : State) : runWord w s = exec i s := by
  unfold runWord
  rw [h]

theorem runWord_error {w : CommandWord} {e : DecodeError} (h : decode w = .error e) (s : State) :
    runWord w s = s.rejectWord := by
  unfold runWord
  rw [h]

/-- Everything a command word can do: run the command it decodes to, or be rejected. -/
theorem runWord_cases (w : CommandWord) (s : State) :
    (∃ i, decode w = .ok i ∧ runWord w s = exec i s) ∨ (∃ e, decode w = .error e ∧ runWord w s = s.rejectWord) := by
  cases hd : decode w with
  | ok i => exact .inl ⟨i, rfl, runWord_ok hd s⟩
  | error e => exact .inr ⟨e, rfl, runWord_error hd s⟩

/-- A command word always has its response, whatever it is (R65). -/
theorem runWord_next (w : CommandWord) (s : State) : ∃ t, runWord w s = .next t := by
  obtain ⟨i, -, h⟩ | ⟨e, -, h⟩ := runWord_cases w s
  · rw [h]
    exact exec_next i s
  · rw [h]
    exact State.start_isNext s _

theorem runWordCut_eq {w : CommandWord} {n : Nat} {s t : State} (h : runWord w s = .next t) :
    runWordCut w n s = .next (s.cutShort t n) := by
  unfold runWordCut
  rw [h]

/-! ### The pending inputs are not read by a command -/

/-- The checks and the effect of a command are the same whatever inputs are pending. -/
theorem State.start_setInputs {run : State → State} {s t : State} {l : List Input}
    (hr : run (s.setInputs l) = (run s).setInputs l) (h : s.start run = .next t) :
    (s.setInputs l).start run = .next (t.setInputs l) := by
  obtain ⟨hh, rfl⟩ | ⟨hh, rfl⟩ := State.start_eq_next h
  · exact State.start_halted (s := s.setInputs l) hh _
  · rw [State.start_running (s := s.setInputs l) hh, hr]

theorem State.begin_setInputs {α : Type} {sel : Option α} {run : α → State → State} {s t : State} {l : List Input}
    (hr : ∀ a, run a (s.setInputs l) = (run a s).setInputs l) (h : s.begin sel run = .next t) :
    (s.setInputs l).begin sel run = .next (t.setInputs l) := by
  cases sel with
  | none => exact State.start_setInputs (run := fun s => s.raise .illegalCommand) rfl h
  | some a => exact State.start_setInputs (hr a) h

/-- A command does the same whatever inputs are pending, and leaves them pending. -/
theorem exec_setInputs {i : Instr} {s t : State} (l : List Input) (h : exec i s = .next t) :
    exec i (s.setInputs l) = .next (t.setInputs l) := by
  cases i
  case setbits => exact State.begin_setInputs (fun c => by cases c <;> rfl) h
  case rdcell => exact State.begin_setInputs (fun c => by cases c <;> rfl) h
  case wrcell => exact State.begin_setInputs (fun c => by cases c <;> rfl) h
  case bgsbb => exact State.begin_setInputs (fun n => by unfold bgsbbRun; split <;> rfl) h
  case mapwr => exact State.begin_setInputs (fun n => by simp only [mapwrRun, State.cellRead, State.mapWrite_eq]; rfl) h
  case rblk => exact State.start_setInputs (by unfold rblkRun; split <;> rfl) h
  case commit => exact State.start_setInputs (by simp only [commitRun, State.copyShadow_eq, State.setInputs, State.respond,
    State.record]) h
  case dispset => exact State.start_setInputs rfl h
  case roff => exact State.start_setInputs rfl h
  case encse => exact State.start_setInputs rfl h
  all_goals exact State.begin_setInputs (fun _ => rfl) h

/-- The same of a command word. -/
theorem runWord_setInputs {w : CommandWord} {s t : State} (l : List Input) (h : runWord w s = .next t) :
    runWord w (s.setInputs l) = .next (t.setInputs l) := by
  obtain ⟨i, hd, hi⟩ | ⟨e, hd, hi⟩ := runWord_cases w s
  · rw [runWord_ok hd]
    rw [hi] at h
    exact exec_setInputs l h
  · rw [runWord_error hd]
    rw [hi] at h
    exact State.start_setInputs rfl h

/-- Which commands the dispatch routine presents: those of its handling of vblank that preempt a running main flow or leave the
state of the block (R165, R166, R168). -/
theorem State.routinePresents_iff {w : CommandWord} {s t : State} (h : runWord w s = .next t) :
    s.routinePresents w = true ↔
      s.env.handlesVblank = true ∧ (s.env.flow = .running ∨
        t.shadow = s.shadow ∧ t.dispcnt = s.dispcnt ∧ t.bgcnt = s.bgcnt ∧ t.halt = s.halt) := by
  simp only [State.routinePresents, h, State.keepsBlock, Bool.and_eq_true, Bool.or_eq_true, beq_iff_eq, and_assoc]

/-- A command of the dispatch routine comes exactly where the routine presents it. -/
theorem State.admits_handlerCommand {w : CommandWord} {s : State} :
    s.admits (.handlerCommand w) = true ↔ s.routinePresents w = true := by
  simp only [State.admits, Bool.and_eq_true, and_iff_right_iff_imp]
  intro h
  simp only [State.routinePresents, Bool.and_eq_true] at h
  exact Environment.lets_routine_of_handlesVblank h.1

/-- While the main flow does not run, a command the dispatch routine presents leaves the state of the block (R166). -/
theorem State.block_kept {w : CommandWord} {s t : State} {l : List Input} (hf : s.env.flow ≠ .running)
    (ha : s.admits (.handlerCommand w) = true) (h : runWord w (s.setInputs l) = .next t) :
    t.shadow = s.shadow ∧ t.dispcnt = s.dispcnt ∧ t.bgcnt = s.bgcnt ∧ t.halt = s.halt := by
  have hr := runWord_setInputs s.inputs h
  change runWord w s = _ at hr
  exact ((State.routinePresents_iff hr).mp (State.admits_handlerCommand.mp ha)).2.resolve_left hf

/-! ### A command cut short -/

/-- The record of a command cut short: of its accesses the first `n`, no response, then the reset (R180). -/
theorem cutShort_eq {s t : State} {status : Status} {result : Wide} {accesses : List Event}
    (h : t.trace = .respond status result :: (accesses ++ s.trace)) (n : Nat) :
    s.cutShort t n = { State.afterReset t.draws with
      inputs := t.inputs
      trace := .reset :: (accesses.drop (accesses.length - n) ++ s.trace) } := by
  have hl : t.trace.length - s.trace.length = accesses.length + 1 := by
    rw [h]
    simp only [List.length_cons, List.length_append]
    omega
  have ht : (t.trace.take (t.trace.length - s.trace.length)).drop 1 = accesses := by
    rw [hl, h]
    simp
  simp only [State.cutShort, ht]
  rfl

end Sys2Proof.Machine
end

