-- ==== Sys2Proof/Laws/Safety.lean ====
section
/-! SUPPORT. The parts of the invariant under the shared operations: memory writes keep `MemoryOk`, and the record of a copy
holds no response. -/

namespace Sys2Proof.Machine

open Sys2Proof

/-- A word written in the tile map or in `OAM` keeps the memory sound. -/
theorem MemoryOk.writeWord {m : Memory} (h : MemoryOk m) {u : Nat}
    (hu : ∀ a, a = 2 * u ∨ a = 2 * u + 1 → inMapBytes a ∨ inOamBytes a) (v : Word) : MemoryOk (m.writeWord u v) where
  canonical := Memory.writeWord_wf h.canonical u v
  inSpaces c hc := by
    rcases Memory.mem_writeWord hc with h' | h' | h'
    · exact hu _ (.inl h')
    · exact hu _ (.inr h')
    · exact h.inSpaces c h'
  wholeWords x := by
    have := h.wholeWords x
    simp only [Memory.readByte_writeWord]
    by_cases hx : x = u
    · simp [hx]
    · rw [if_neg (by omega), if_neg (by omega), if_neg (by omega), if_neg (by omega)]
      exact this

/-- A copy of the shadow table keeps the memory sound, whatever its order. -/
theorem MemoryOk.copyInOrder {m : Memory} (h : MemoryOk m) (order : List (Fin 512)) (shadow : Vector Word 512) :
    MemoryOk (copyInOrder params order shadow m) := by
  induction order generalizing m with
  | nil => exact h
  | cons i order ih =>
    rw [copyInOrder_cons]
    refine ih (h.writeWord (fun a ha => .inr ?_) _)
    have hi := i.isLt
    rw [oamAddress_toNat hi] at ha
    unfold inOamBytes
    omega

/-- A tile-map write keeps the memory sound: it stores inside the map only. -/
theorem MemoryOk.mapWrite {s : State} (h : MemoryOk s.mem) (i : Nat) (v : Word) : MemoryOk (s.mapWrite params i v).mem := by
  rw [State.mapWrite_eq]
  show MemoryOk (if i < 32768 then _ else _)
  split
  · next hi =>
    refine h.writeWord (fun a ha => .inl ?_) v
    rw [mapAddress_toNat hi] at ha
    unfold inMapBytes
    omega
  · exact h

/-- The record of a copy holds no response and no reset. -/
theorem abortedSinceReset_copyWrites (order : List (Fin 512)) (shadow : Vector Word 512) (t : List Event) :
    abortedSinceReset ((copyWrites params order shadow).reverse ++ t) = abortedSinceReset t := by
  induction order generalizing t with
  | nil => rfl
  | cons i order ih =>
    have hc : copyWrites params (i :: order) shadow =
        .portWrite (oamAddress params i.val) shadow[i] :: copyWrites params order shadow := rfl
    rw [hc, List.reverse_cons, List.append_assoc, ih]
    rfl

/-- The memory of the reset state is in canonical form: it lists nothing. -/
theorem reset_mem_wf : State.reset.mem.wf := List.Pairwise.nil

end Sys2Proof.Machine
end

