-- ==== Sys2Proof/Tests/Slice0.lean ====
section
/-! SUPPORT. Tests: the decoding of one word of every command, the well-formedness checks, one or two steps per command with
results taken from spec/95_test_vectors.md or the rules' examples, and for every statement that has hypotheses a state and
operands that meet them. -/

namespace Sys2Proof.Tests

open Sys2Proof Sys2Proof.Machine

/-! ### Decoding: words written out from the encodings (R60, R62), from the rules' examples or 95_test_vectors.md -/

/-- R81. -/
theorem test_decode_setbits : decode 0x0001020100020002000E#80 = .ok (.setbits 0x0201 2 2 14) := by decide

/-- V2 row 2. -/
theorem test_decode_rdcell : decode 0x00020201000000000000#80 = .ok (.rdcell 0x0201) := by decide

/-- R83. -/
theorem test_decode_wrcell : decode 0x00030003010000000000#80 = .ok (.wrcell 3 0x0100) := by decide

/-- R90. -/
theorem test_decode_dispset : decode 0x00101100000000000000#80 = .ok (.dispset 0x1100) := by decide

/-- R92. -/
theorem test_decode_bgprio : decode 0x00110001000200000000#80 = .ok (.bgprio 1 2) := by decide

/-- R93. -/
theorem test_decode_bgtbank : decode 0x00120000000300000000#80 = .ok (.bgtbank 0 3) := by decide

/-- R94. -/
theorem test_decode_bgcdepth : decode 0x00130002000100000000#80 = .ok (.bgcdepth 2 1) := by decide

/-- R95. -/
theorem test_decode_bgsize : decode 0x00140000000300000000#80 = .ok (.bgsize 0 3) := by decide

/-- R96. -/
theorem test_decode_bgsbb : decode 0x00150000000800000000#80 = .ok (.bgsbb 0 8) := by decide

/-- R97. -/
theorem test_decode_bgsbbu : decode 0x00160003002100000000#80 = .ok (.bgsbbu 3 33) := by decide

/-- R104. -/
theorem test_decode_rblk : decode 0x00200003002100410000#80 = .ok (.rblk 3 33 65) := by decide

/-- R105. -/
theorem test_decode_roff : decode 0x00210021004100000000#80 = .ok (.roff 33 65) := by decide

/-- R106. -/
theorem test_decode_encse : decode 0x00220123000100000005#80 = .ok (.encse 0x123 1 0 5) := by decide

/-- V6. -/
theorem test_decode_taddr : decode 0x00230000002100410000#80 = .ok (.taddr 0 33 65) := by decide

/-- R60, R62. -/
theorem test_decode_mapwr : decode 0x002400000021001F5523#80 = .ok (.mapwr 0 33 31 0x5523) := by decide

/-- R121. -/
theorem test_decode_objpos : decode 0x00300000012CFFFB0000#80 = .ok (.objpos 0 300 0xFFFB) := by decide

/-- R122. -/
theorem test_decode_objmode : decode 0x00310005000200000000#80 = .ok (.objmode 5 2) := by decide

/-- V7 row 8. -/
theorem test_decode_objgfx : decode 0x00320005000100000000#80 = .ok (.objgfx 5 1) := by decide

/-- V7 row 9. -/
theorem test_decode_objmosaic : decode 0x00330005000100000000#80 = .ok (.objmosaic 5 1) := by decide

/-- V7 row 10. -/
theorem test_decode_objcdepth : decode 0x00340005000100000000#80 = .ok (.objcdepth 5 1) := by decide

/-- V7 row 11. -/
theorem test_decode_objshape : decode 0x00350005000200000000#80 = .ok (.objshape 5 2) := by decide

/-- V7 row 13. -/
theorem test_decode_objsize : decode 0x00360005000300000000#80 = .ok (.objsize 5 3) := by decide

/-- V7 row 14. -/
theorem test_decode_objaffidx : decode 0x00370005001F00000000#80 = .ok (.objaffidx 5 31) := by decide

/-- V7 row 15. -/
theorem test_decode_objhflip : decode 0x00380005000000000000#80 = .ok (.objhflip 5 0) := by decide

/-- V7 row 19. -/
theorem test_decode_objvflip : decode 0x00390005000300000000#80 = .ok (.objvflip 5 3) := by decide

/-- R131. -/
theorem test_decode_objtile : decode 0x003A0001047F00000000#80 = .ok (.objtile 1 0x047F) := by decide

/-- V7 row 21. -/
theorem test_decode_objprio : decode 0x003B0005000300000000#80 = .ok (.objprio 5 3) := by decide

/-- V7 row 22. -/
theorem test_decode_objpal : decode 0x003C0005001A00000000#80 = .ok (.objpal 5 26) := by decide

/-- R134. -/
theorem test_decode_affset : decode 0x003D0001000201000000#80 = .ok (.affset 1 2 0x0100) := by decide

/-- R135. -/
theorem test_decode_commit : decode 0x003E0000000000000000#80 = .ok (.commit) := by decide

/-- V8: words that are no command, with the check they fail. -/
theorem test_decode_rejects :
    decode 0#80 = .error .unknownOpcode ∧ decode 0x00040000000000000000#80 = .error .unknownOpcode ∧
    decode 0x003F0000000000000000#80 = .error .unknownOpcode ∧ decode 0x00FF0000000000000000#80 = .error .unknownOpcode ∧
    decode 0x010102010002000E0003#80 = .error .highOpByte ∧ decode 0x003E0000000000000001#80 = .error .reservedField ∧
    decode 0x00020201000100000000#80 = .error .reservedField ∧ decode 0x00210001000100010000#80 = .error .reservedField ∧
    decode 0x00200004000000000001#80 = .error .reservedField := by decide

/-- V8, "Encode/decode": one instance per format. -/
theorem test_encode_formats :
    encode .commit = 0x003E0000000000000000#80 ∧ encode (.dispset 0x1100) = 0x00101100000000000000#80 ∧
    encode (.bgsize 0 3) = 0x00140000000300000000#80 ∧ encode (.objpos 1 2 3) = 0x00300001000200030000#80 ∧
    encode (.encse 1 1 1 1) = 0x00220001000100010001#80 := by decide

/-- The assembler line of R68, its numbers in decimal. -/
theorem test_asm : (Instr.mapwr 0 33 31 0x5523).asm = "MAPWR 0, 33, 31, 21795" := by decide +kernel

/-! ### Well-formedness: each check of R63 step 4 refuses an ill-formed command -/

theorem test_wf_selector :
    (Instr.rdcell 0x0205).wellFormed params = false ∧ (Instr.wrcell 0x020F 0).wellFormed params = false ∧
    (Instr.setbits 0x0220 0 0 0).wellFormed params = false ∧ (Instr.rdcell 0xFFFF).wellFormed params = false ∧
    (Instr.rdcell 0x01FF).wellFormed params = true ∧ (Instr.rdcell 0x0204).wellFormed params = true ∧
    (Instr.rdcell 0x0210).wellFormed params = true ∧ (Instr.rdcell 0x021F).wellFormed params = true := by decide

theorem test_wf_bg :
    (Instr.bgprio 4 0).wellFormed params = false ∧ (Instr.taddr 4 0 0).wellFormed params = false ∧ (Instr.bgsbb 3 99).wellFormed params = true := by
  decide

theorem test_wf_idx : (Instr.objpos 128 0 0).wellFormed params = false ∧ (Instr.objpos 127 0 0).wellFormed params = true := by decide

theorem test_wf_aff :
    (Instr.affset 32 0 0).wellFormed params = false ∧ (Instr.affset 0 4 0).wellFormed params = false ∧
    (Instr.affset 31 3 0).wellFormed params = true := by decide

/-! ### Steps -/

/-- The reset state with the display registers at chosen draws. -/
def running (bgcnt : Word := 0) : State := { State.reset with dispcnt := 0, bgcnt := Vector.replicate 4 bgcnt }

/-- `running` with a chosen word at a place of the shadow table. -/
def withShadow (i : Fin 512) (v : Word) : State := { running with shadow := running.shadow.set i v }

/-- The state after the step that takes the word `w`. -/
def afterWord (w : CommandWord) (s : State) : State :=
  match step { s with inputs := [.command w] } with
  | .next t => t
  | .fault _ => s
  | .refused _ => s

/-- V2 row 1, the accesses with their order. -/
theorem test_setbits :
    (afterWord 0x0001020100020002000E#80 (running 0xFFFF)).bgcnt[0] = 0xBFFF ∧
    (afterWord 0x0001020100020002000E#80 (running 0xFFFF)).bgcnt[1] = 0xFFFF ∧
    (afterWord 0x0001020100020002000E#80 (running 0xFFFF)).trace = [.respond .ok 0, .cellWrite (.bgcnt 0) 0xBFFF, .cellRead (.bgcnt 0) 0xFFFF] := by decide

/-- V2 row 12: the precondition violated. -/
theorem test_setbits_runs_past_the_word :
    (afterWord 0x0001020100FF0008000C#80 (running 0x1234)).bgcnt[0] = 0xF234 ∧
    (afterWord 0x0001020100FF0008000C#80 (running 0x1234)).lastResponse = some (.ok, 0) := by decide

/-- V2 row 2. -/
theorem test_rdcell :
    (afterWord 0x00020201000000000000#80 (running 0xBFFF)).lastResponse = some (.ok, 0xBFFF) := by decide

/-- V2 row 10. -/
theorem test_rdcell_no_cell :
    (afterWord 0x00020205000000000000#80 running).trace = [.respond .illegal 0] := by decide

/-- V2 row 7. -/
theorem test_wrcell :
    (afterWord 0x000301FFBEEF00000000#80 running).shadow[511] = 0xBEEF ∧
    (afterWord 0x000301FFBEEF00000000#80 running).shadow[510] = 0 ∧
    (afterWord 0x000301FFBEEF00000000#80 running).lastResponse = some (.ok, 0) := by decide +kernel

/-- V2 row 11. -/
theorem test_wrcell_no_cell :
    (afterWord 0x00030220000100000000#80 running).trace = [.respond .illegal 0] := by decide

/-- V3 row 1. -/
theorem test_dispset :
    (afterWord 0x00101100000000000000#80 running).dispcnt = 0x1100 ∧
    (afterWord 0x00101100000000000000#80 running).trace = [.respond .ok 0, .cellWrite .dispcnt 0x1100] := by decide

/-- V3 row 4. -/
theorem test_bgprio :
    (afterWord 0x00110001000700000000#80 running).bgcnt[1] = 0x0003 ∧
    (afterWord 0x00110001000700000000#80 running).bgcnt[0] = 0 ∧
    (afterWord 0x00110001000700000000#80 running).lastResponse = some (.ok, 0) := by decide

/-- V3 row 5. -/
theorem test_bgtbank :
    (afterWord 0x00120001000200000000#80 (running 0x0003)).bgcnt[1] = 0x000B ∧
    (afterWord 0x00120001000200000000#80 (running 0x0003)).lastResponse = some (.ok, 0) := by decide

/-- V3 row 7. -/
theorem test_bgcdepth :
    (afterWord 0x00130000FFFE00000000#80 (running 0xFFFE)).bgcnt[0] = 0xFF7E ∧
    (afterWord 0x00130000FFFE00000000#80 (running 0xFFFE)).lastResponse = some (.ok, 0) := by decide

/-- V3 row 9. -/
theorem test_bgsize :
    (afterWord 0x00140003000100000000#80 (running 0xFFFF)).bgcnt[3] = 0x7FFF ∧
    (afterWord 0x00140003000100000000#80 (running 0xFFFF)).lastResponse = some (.ok, 0) := by decide

/-- V3 row 10. -/
theorem test_bgsbb :
    (afterWord 0x00150001001F00000000#80 (running 0xC08B)).bgcnt[1] = 0xDF8B ∧
    (afterWord 0x00150001001F00000000#80 (running 0xC08B)).lastResponse = some (.ok, 0) := by decide

/-- V3 row 11. -/
theorem test_bgsbb_rejects :
    (afterWord 0x00150001002000000000#80 (running 0xDF8B)).bgcnt[1] = 0xDF8B ∧
    (afterWord 0x00150001002000000000#80 (running 0xDF8B)).trace = [.respond .rejected 0] := by decide

/-- V3 row 13. -/
theorem test_bgsbbu :
    (afterWord 0x00160001002100000000#80 (running 0xDF8B)).bgcnt[1] = 0xC18B ∧
    (afterWord 0x00160001002100000000#80 (running 0xDF8B)).lastResponse = some (.ok, 0) := by decide

/-- R113, V4: `(33, 65)` of a 64×64 background. -/
theorem test_rblk :
    (afterWord 0x00200003002100410000#80 running).lastResponse = some (.ok, 5) := by decide

/-- R151: `RBLK 4, 0, 0`. -/
theorem test_rblk_aborts :
    (afterWord 0x00200004000000000000#80 running).halt = true ∧
    (afterWord 0x00200004000000000000#80 running).trace = [.respond .aborted 0] := by decide

/-- V4: `(65535, 0)`. -/
theorem test_roff :
    (afterWord 0x0021FFFF000000000000#80 running).lastResponse = some (.ok, 31) := by decide

/-- V4: `(0, 65535)`. -/
theorem test_roff_swapped :
    (afterWord 0x00210000FFFF00000000#80 running).lastResponse = some (.ok, 992) := by decide

/-- V5 row 3. -/
theorem test_encse :
    (afterWord 0x00220123000100000005#80 running).lastResponse = some (.ok, 0x5523) := by decide

/-- V5 row 7. -/
theorem test_encse_masks :
    (afterWord 0x0022000500020003001A#80 running).lastResponse = some (.ok, 0xA805) := by decide

/-- V6: `BGCNT = 0xC8FF`, `(33, 33)`. -/
theorem test_taddr :
    (afterWord 0x00230000002100210000#80 (running 0xC8FF)).trace = [.respond .ok 0x03002C21, .cellRead (.bgcnt 0) 0xC8FF] := by decide

/-- V6: `BGCNT = 0xDF00`, `(32, 0)`, outside the region. -/
theorem test_taddr_outside :
    (afterWord 0x00230000002000000000#80 (running 0xDF00)).lastResponse = some (.ok, 0x03008000) := by decide

/-- V6 row 5: the last element of the map; the byte view of R42. -/
theorem test_mapwr :
    (afterWord 0x00240001001F001FABCD#80 (running 0x1F00)).mem.readWord 0x03007FFF = some 0xABCD ∧
    (afterWord 0x00240001001F001FABCD#80 (running 0x1F00)).mem.readWord 0x03007FFE = none ∧
    (afterWord 0x00240001001F001FABCD#80 (running 0x1F00)).mem = [(0x0600FFFE, 0xCD), (0x0600FFFF, 0xAB)] ∧
    (afterWord 0x00240001001F001FABCD#80 (running 0x1F00)).trace = [.respond .ok 0, .portWrite 0x03007FFF 0xABCD, .cellRead (.bgcnt 1) 0x1F00] := by decide

/-- V6 row 6: the write appears on the memory port only. -/
theorem test_mapwr_outside :
    (afterWord 0x00240002002000001111#80 (running 0xDF00)).mem = [] ∧
    (afterWord 0x00240002002000001111#80 (running 0xDF00)).trace = [.respond .ok 0, .portWrite 0x03008000 0x1111, .cellRead (.bgcnt 2) 0xDF00] := by decide

/-- V7 row 1. -/
theorem test_objpos :
    (afterWord 0x00300000012CFFFB0000#80 running).shadow[0] = 0x00FB ∧
    (afterWord 0x00300000012CFFFB0000#80 running).shadow[1] = 0x012C ∧
    (afterWord 0x00300000012CFFFB0000#80 running).trace = [.respond .ok 0, .cellWrite (.shadow 1) 0x012C, .cellRead (.shadow 1) 0, .cellWrite (.shadow 0) 0x00FB,
      .cellRead (.shadow 0) 0] := by decide

/-- V7 row 2. -/
theorem test_objpos_wraps :
    (afterWord 0x00300000022C01000000#80 (withShadow 0 0x00FB)).shadow[0] = 0x0000 ∧
    (afterWord 0x00300000022C01000000#80 (withShadow 0 0x00FB)).shadow[1] = 0x002C := by decide

/-- V7 row 7. -/
theorem test_objmode :
    (afterWord 0x00310005000500000000#80 (withShadow 20 0x0200)).shadow[20] = 0x0100 ∧
    (afterWord 0x00310005000500000000#80 (withShadow 20 0x0200)).lastResponse = some (.ok, 0) := by decide +kernel

/-- V7 row 8. -/
theorem test_objgfx :
    (afterWord 0x00320005000100000000#80 (withShadow 20 0x0100)).shadow[20] = 0x0500 ∧
    (afterWord 0x00320005000100000000#80 (withShadow 20 0x0100)).lastResponse = some (.ok, 0) := by decide +kernel

/-- V7 row 9. -/
theorem test_objmosaic :
    (afterWord 0x00330005000100000000#80 (withShadow 20 0x0500)).shadow[20] = 0x1500 ∧
    (afterWord 0x00330005000100000000#80 (withShadow 20 0x0500)).lastResponse = some (.ok, 0) := by decide +kernel

/-- V7 row 10. -/
theorem test_objcdepth :
    (afterWord 0x00340005000100000000#80 (withShadow 20 0x1500)).shadow[20] = 0x3500 ∧
    (afterWord 0x00340005000100000000#80 (withShadow 20 0x1500)).lastResponse = some (.ok, 0) := by decide +kernel

/-- V7 row 11. -/
theorem test_objshape :
    (afterWord 0x00350005000200000000#80 (withShadow 20 0x3500)).shadow[20] = 0xB500 ∧
    (afterWord 0x00350005000200000000#80 (withShadow 20 0x3500)).lastResponse = some (.ok, 0) := by decide +kernel

/-- V7 row 13. -/
theorem test_objsize :
    (afterWord 0x00360005000300000000#80 (withShadow 21 0x0010)).shadow[21] = 0xC010 ∧
    (afterWord 0x00360005000300000000#80 (withShadow 21 0x0010)).lastResponse = some (.ok, 0) := by decide +kernel

/-- V7 row 14. -/
theorem test_objaffidx :
    (afterWord 0x00370005001F00000000#80 (withShadow 21 0xC010)).shadow[21] = 0xFE10 ∧
    (afterWord 0x00370005001F00000000#80 (withShadow 21 0xC010)).lastResponse = some (.ok, 0) := by decide +kernel

/-- V7 row 15. -/
theorem test_objhflip :
    (afterWord 0x00380005000000000000#80 (withShadow 21 0xFE10)).shadow[21] = 0xEE10 ∧
    (afterWord 0x00380005000000000000#80 (withShadow 21 0xFE10)).lastResponse = some (.ok, 0) := by decide +kernel

/-- V7 row 19. -/
theorem test_objvflip :
    (afterWord 0x00390005000300000000#80 (withShadow 21 0xD010)).shadow[21] = 0xF010 ∧
    (afterWord 0x00390005000300000000#80 (withShadow 21 0xD010)).lastResponse = some (.ok, 0) := by decide +kernel

/-- V7 row 20. -/
theorem test_objtile :
    (afterWord 0x003A0005047F00000000#80 (withShadow 22 0x0000)).shadow[22] = 0x007F ∧
    (afterWord 0x003A0005047F00000000#80 (withShadow 22 0x0000)).lastResponse = some (.ok, 0) := by decide +kernel

/-- V7 row 21. -/
theorem test_objprio :
    (afterWord 0x003B0005000300000000#80 (withShadow 22 0x007F)).shadow[22] = 0x0C7F ∧
    (afterWord 0x003B0005000300000000#80 (withShadow 22 0x007F)).lastResponse = some (.ok, 0) := by decide +kernel

/-- V7 row 22. -/
theorem test_objpal :
    (afterWord 0x003C0005001A00000000#80 (withShadow 22 0x0C7F)).shadow[22] = 0xAC7F ∧
    (afterWord 0x003C0005001A00000000#80 (withShadow 22 0x0C7F)).lastResponse = some (.ok, 0) := by decide +kernel

/-- V7 row 23. -/
theorem test_affset :
    (afterWord 0x003D0001000201000000#80 running).shadow[27] = 0x0100 ∧
    (afterWord 0x003D0001000201000000#80 running).shadow[19] = 0 ∧
    (afterWord 0x003D0001000201000000#80 running).trace = [.respond .ok 0, .cellWrite (.shadow 27) 0x0100] := by decide +kernel

/-- V7 row 27. -/
theorem test_affset_illegal :
    (afterWord 0x003D0000000400000000#80 running).trace = [.respond .illegal 0] := by decide

/-- V7 row 29: the words of `OAM`, the first, a middle and the last, and none after it. -/
theorem test_commit :
    (afterWord 0x003E0000000000000000#80 (withShadow 27 0x0100)).mem.readWord (0x03800000 + 27) = some 0x0100 ∧
    (afterWord 0x003E0000000000000000#80 (withShadow 27 0x0100)).mem.readWord (0x03800000 + 0) = some 0 ∧
    (afterWord 0x003E0000000000000000#80 (withShadow 27 0x0100)).mem.readWord (0x03800000 + 511) = some 0 ∧
    (afterWord 0x003E0000000000000000#80 (withShadow 27 0x0100)).mem.readWord (0x03800000 + 512) = none := by decide +kernel

/-- V8: the order of the checks. -/
theorem test_priority :
    (afterWord 0x00150004006300000000#80 running).lastResponse = some (.illegal, 0) ∧
    (afterWord 0x00150003006300000000#80 running).lastResponse = some (.rejected, 0) ∧
    (afterWord 0x00200004000000000001#80 running).halt = false ∧
    (afterWord 0#80 { running with halt := true }).lastResponse = some (.aborted, 0) := by decide

/-- V9 rows 5 to 7: a reset clears `HALT`, and commands run again. -/
theorem test_reset_clears_halt :
    (match step { running with halt := true, inputs := [.reset, .command 0x00210001000100000000#80] } with
      | .next t => (afterWord 0x00210001000100000000#80 t).lastResponse
      | .fault _ => none
      | .refused _ => none) = some (.ok, 33) := by decide

/-- V1: the field insert. -/
theorem test_bf :
    bf 0xFFFF 0x0002 2 14 = 0xBFFF ∧ bf 0x8001 0x03FF 10 3 = 0x9FF9 ∧ bf 0 0x00FF 8 12 = 0xF000 ∧
    bf 0x1234 0xFFFF 4 200 = 0x1234 ∧ bf 0x1234 0xABCD 65535 0 = 0xABCD ∧ bf 0x00FF 0xABCD 20 8 = 0xCDFF := by
  decide +kernel

/-- R12, R15, R20: the positions of the default `Layout`. -/
theorem test_layout :
    [params.layout.bgcnt.prio, params.layout.bgcnt.tbank, params.layout.bgcnt.cdepth, params.layout.bgcnt.sbb, params.layout.bgcnt.size] =
      [⟨0, 2⟩, ⟨2, 2⟩, ⟨7, 1⟩, ⟨8, 5⟩, ⟨14, 2⟩] ∧
    [params.layout.attr0.y, params.layout.attr0.dmode, params.layout.attr0.gmode, params.layout.attr0.mosaic, params.layout.attr0.cdepth,
      params.layout.attr0.shape] = [⟨0, 8⟩, ⟨8, 2⟩, ⟨10, 2⟩, ⟨12, 1⟩, ⟨13, 1⟩, ⟨14, 2⟩] ∧
    [params.layout.attr1.x, params.layout.attr1.affidx, params.layout.attr1.hflip, params.layout.attr1.vflip, params.layout.attr1.size] =
      [⟨0, 9⟩, ⟨9, 5⟩, ⟨12, 1⟩, ⟨13, 1⟩, ⟨14, 2⟩] ∧
    [params.layout.attr2.tile, params.layout.attr2.prio, params.layout.attr2.palbank] = [⟨0, 10⟩, ⟨10, 2⟩, ⟨12, 4⟩] ∧
    [params.layout.entry.tile, params.layout.entry.hflip, params.layout.entry.vflip, params.layout.entry.palbank] =
      [⟨0, 10⟩, ⟨10, 1⟩, ⟨11, 1⟩, ⟨12, 4⟩] := by decide

/-- The host's two fixed names: the word is decoded, and the very next step runs it. -/
theorem test_withFetchWord :
    decodeTableWord 80 0x00210021004100000000 = some (.roff 33 65) ∧
    decodeTableWord 80 0 = none ∧
    (match step (State.reset.withFetchWord 80 0x00210021004100000000) with
      | .next t => t.lastResponse
      | .fault _ => none
      | .refused _ => none) = some (.ok, 33) := by decide

/-- The state after an action of the environment. -/
def afterEnv (a : EnvAction) (s : State) : State :=
  match step { s with inputs := [.env a] } with
  | .next t => t
  | .fault _ => s
  | .refused _ => s

/-- The environment after `init()`, `enableType(vblank)` and `enableGlobally()` (R183). -/
def ready : State := afterEnv .enableGlobally (afterEnv (.enableType .vblank) (afterEnv (.init 0x03007FFC) running))

/-- `ready`, its main flow in the vblank wait. -/
def suspended : State := afterEnv .waitVblank ready

/-- A state in which the dispatch routine has been invoked by a vblank interrupt. -/
def handling (s : State) : State := afterEnv .dispatch (afterEnv (.assertIrq .vblank) s)

/-- R183, R161, R162: the order of the start, and its effect; a second `init()` leaves the slot. -/
theorem test_env_start :
    ready.env.phase = .initialized ∧ ready.env.handler = 0x03007FFC ∧ inMask ready.env.enabled .vblank = true ∧
    inMask ready.env.enabled .hblank = false ∧ ready.env.vblankRaised = true ∧ ready.env.masterOn = true ∧
    (afterEnv (.init 4) ready).env.handler = 0x03007FFC := by decide

/-- R163: an asserted kind that is enabled is acknowledged and mirrored at the end of the routine, one that is not enabled is
neither. -/
theorem test_env_dispatch :
    (handling (afterEnv (.assertIrq .timer0) ready)).env.routine = some IrqKind.vblank.bit ∧
    (afterEnv .dispatchReturn (handling (afterEnv (.assertIrq .timer0) ready))).env.mirror = IrqKind.vblank.bit ∧
    (afterEnv .dispatchReturn (handling (afterEnv (.assertIrq .timer0) ready))).env.asserted = IrqKind.timer0.bit := by
  decide

/-- R165: the routine presents commands only while it runs; the main flow's wait for its return, and it is not nested. -/
theorem test_routine_preempts :
    ({ ready with inputs := [.handlerCommand 1#80, .command 0#80] } : State).nextInput =
      some (.command 0#80, [.handlerCommand 1#80]) ∧
    ({ handling ready with inputs := [.command 0#80, .handlerCommand 1#80] } : State).nextInput =
      some (.handlerCommand 1#80, [.command 0#80]) ∧
    (handling (handling ready)).env.routine = (handling ready).env.routine := by decide

/-- A command of the dispatch routine during the wait: RDCELL of `EXT[0]`, pending. -/
def reading : State := { handling suspended with inputs := [.handlerCommand 0x00020210000000000000#80] }

/-- R166: during the wait a command of the main flow stays pending; of the dispatch routine, RDCELL of `EXT[0]` comes, OBJMODE,
which would change the shadow table, does not. -/
theorem test_wait_suspends :
    suspended.env.flow = .waiting ∧
    (afterWord 0x00210021004100000000#80 suspended).trace = [] ∧
    reading.admits (.handlerCommand 0x00020210000000000000#80) = true ∧
    reading.admits (.handlerCommand 0x00310000000200000000#80) = false := by
  have read : runWord 0x00020210000000000000#80 reading = .next (rdcellOn (.ext 0) reading) := rfl
  have mode : runWord 0x00310000000200000000#80 reading =
      .next (objSetter 0 params.layout.attr0.dmode 2 0 reading) := rfl
  refine ⟨by decide, by decide, State.admits_handlerCommand.mpr
    ((State.routinePresents_iff read).mpr ⟨by decide, .inr ⟨rfl, rfl, rfl, rfl⟩⟩), Bool.eq_false_iff.mpr fun h => ?_⟩
  obtain ⟨-, hf | hs⟩ := (State.routinePresents_iff mode).mp (State.admits_handlerCommand.mp h)
  · exact absurd hf (by decide)
  · exact absurd (congrArg (fun v : Vector Word 512 => v[0]) hs.1) (by decide)

/-- The dispatch routine invoked by an hblank interrupt alone, a command and its return pending. -/
def ignoring : State :=
  { afterEnv .dispatch (afterEnv (.assertIrq .hblank) (afterEnv (.enableType .hblank) ready)) with
    inputs := [.command 0#80, .handlerCommand 1#80, .env .dispatchReturn, .handlerCommand 2#80] }

/-- R168: for a kind other than vblank the routine presents no command; a command listed for its run is no part of it, and one
after its return stays for a later run (R49). -/
theorem test_other_kinds_ignored :
    ignoring.env.routine = some IrqKind.hblank.bit ∧ ignoring.excludes (.handlerCommand 1#80) = true ∧
    ignoring.nextInput = some (.env .dispatchReturn, [.command 0#80, .handlerCommand 2#80]) := by decide

/-- R166, R136: the acknowledged vblank interrupt ends the wait, in the safe window. -/
theorem test_vblank_wakes :
    (handling suspended).env.flow = .waiting ∧
    (afterEnv .dispatchReturn (handling suspended)).env.flow = .running ∧
    (afterEnv .dispatchReturn (handling suspended)).env.oamSafe = true := by decide

/-- R166, R167: a wait with vblank not enabled never ends. -/
theorem test_dead_wait_hangs :
    (afterEnv .waitVblank (afterEnv .enableGlobally (afterEnv (.init 4) running))).env.flow = .hung := by decide

/-- R167: enabling before `init()` hangs the main flow; a reset ends that (R180). -/
theorem test_skipped_init_hangs :
    (afterEnv .enableGlobally running).env.flow = .hung ∧ (afterEnv (.init 4) (afterEnv .enableGlobally running)).env.phase =
      .uninitialized ∧
    (match step { afterEnv .enableGlobally running with inputs := [.command 0#80, .reset] } with
      | .next t => decide (t.env.flow = .running ∧ t.inputs = [.command 0#80])
      | .fault _ => false
      | .refused _ => false) = true := by decide

/-- R180: `OBJPOS 0, 300, 65531` cut after its first two accesses: they are in the record, there is no response, and the shadow
table is zero. -/
theorem test_command_cut_short :
    (match step { running with inputs := [.commandCut 0x00300000012CFFFB0000#80 2] } with
      | .next t => decide (t.trace = [.reset, .cellWrite (.shadow 0) 0x00FB, .cellRead (.shadow 0) 0] ∧ t.shadow[0] = 0)
      | .fault _ => false
      | .refused _ => false) = true := by decide

/-- R180: a command of the dispatch routine is cut as well. -/
theorem test_handler_command_cut_short :
    (match step { handling ready with inputs := [.handlerCommandCut 0x00020001000000000000#80 0] } with
      | .next t => decide (t.trace = [.reset] ∧ t.env.routine = none ∧ t.env.flow = .running)
      | .fault _ => false
      | .refused _ => false) = true := by decide

/-- R167, R161, R156: enabling by a cell write before `init()` answers `OK`, and the main flow hangs. -/
theorem test_external_write_hangs :
    (afterWord 0x00030213000100000000#80 running).env.flow = .hung ∧
    (afterWord 0x00030213000100000000#80 running).lastResponse = some (.ok, 0) := by decide

/-- R161: `WRCELL` of `EXT[1]` sets the bits written and clears none. -/
theorem test_external_write_enables :
    (afterWord 0x00030211000200000000#80 ready).env.enabled = 0x0003 ∧
    (afterWord 0x00030211000200000000#80 ready).trace = [.respond .ok 0, .cellWrite (.ext 1) 2] := by decide

/-! ### The hypotheses of the statements are met -/

/-- A state with one command word pending. -/
def pending (w : CommandWord) (s : State := running) : State := { s with inputs := [.command w] }

/-- A state with one action of the environment pending. -/
def pendingEnv (a : EnvAction) (s : State) : State := { s with inputs := [.env a] }

/-- A halted state. -/
def dead : State := { running with halt := true }

theorem witness_EncodingADecodedWordGivesItBack : decode 0x003D001F00037FFF0000#80 = .ok (.affset 31 3 0x7FFF) := by decide

theorem witness_ReservedWordsEndIllegal :
    Claims.presented (pending 0x003E0000000000000001#80) 0x003E0000000000000001#80 [] ∧
    (pending 0x003E0000000000000001#80).halt = false ∧ ¬ Claims.legalWord 0x003E0000000000000001#80 ∧
    Claims.legalWord 0x003E0000000000000000#80 := by
  unfold Claims.legalWord
  exact ⟨.inl rfl, rfl, by decide +kernel, by decide +kernel⟩

/-- A word of the main flow, and one of the dispatch routine. -/
theorem witness_StepRunsTheDecodedCommand :
    Claims.presented (pending 0x00210021004100000000#80) 0x00210021004100000000#80 [] ∧
    Claims.presented { handling ready with inputs := [.handlerCommand 0x00210021004100000000#80] }
      0x00210021004100000000#80 [] ∧
    decode 0x00210021004100000000#80 = .ok (.roff 33 65) := ⟨.inl rfl, .inr (by decide), by decide⟩

/-- One witness for each clause: halted, no command, a selector out of range, a command that runs. -/
theorem witness_ChecksBeforeACommandRuns :
    Claims.presented (pending 0#80 dead) 0#80 [] ∧ dead.halt = true ∧
    Claims.presented (pending 0x00FF0000000000000000#80) 0x00FF0000000000000000#80 [] ∧ running.halt = false ∧
    ¬ Claims.legalWord 0x00FF0000000000000000#80 ∧
    encode (.bgprio 4 0) = 0x00110004000000000000#80 ∧ (Instr.bgprio 4 0).wellFormed params = false ∧
    encode (.bgprio 3 0) = 0x00110003000000000000#80 ∧ (Instr.bgprio 3 0).wellFormed params = true := by
  unfold Claims.legalWord
  exact ⟨.inl rfl, rfl, .inl rfl, rfl, by decide +kernel, by decide, by decide, by decide, by decide⟩

theorem witness_IdleStepChangesNothing : running.inputs = [] := by decide

/-- A flow that runs, one that is preempted, a suspended and a hung one, and inputs that cannot come. -/
theorem witness_InputsComeWhenTheirSourceCanAct :
    running.env.flow = .running ∧ running.env.routine = none ∧ (handling ready).env.routine ≠ none ∧
    (handling ready).env.flow = .running ∧ suspended.env.flow ≠ .running ∧
    (afterEnv .enableGlobally running).env.flow ≠ .running ∧
    (∀ y ∈ [Input.command 0#80, .env .waitVblank, .handlerCommand 0#80], suspended.admits y = false) ∧
    (handling ready).env.routine = some IrqKind.vblank.bit ∧ inMask IrqKind.vblank.bit .vblank = true ∧
    ignoring.admits (.env .dispatchReturn) = true ∧
    (Input.handlerCommand 1#80).source = (Input.env .dispatchReturn).source ∧
    ignoring.admits (.handlerCommand 1#80) = false := by decide

/-- A halted block, and a hung main flow. -/
theorem witness_ResetRestoresTheResetState :
    ({ dead with inputs := [.reset] } : State).nextInput = some (.reset, []) ∧
    ({ afterEnv .enableGlobally running with inputs := [.command 0#80, .reset] } : State).nextInput =
      some (.reset, [.command 0#80]) := by decide

theorem witness_ResetInsideACommandDropsIt :
    ({ running with inputs := [.commandCut 0x003E0000000000000000#80 7] } : State).nextInput =
      some (.commandCut 0x003E0000000000000000#80 7, []) ∧
    ({ handling ready with inputs := [.handlerCommandCut 0x003E0000000000000000#80 7] } : State).nextInput =
      some (.handlerCommandCut 0x003E0000000000000000#80 7, []) := by decide

theorem witness_SizeAbortHaltsTheBlock :
    running.halt = false ∧ 3 < (4 : Word).toNat ∧ 3 < (0xFFFF : Word).toNat ∧ dead.halt = true ∧
    (∃ t, exec (.rblk 4 0 0) running = .next t ∧ t.halt = true) ∧
    Claims.presented (pending 0#80 dead) 0#80 [] ∧
    ∃ t, step { dead with inputs := [.reset] } = .next t ∧ t.halt = false :=
  ⟨rfl, by decide, by decide, rfl, ⟨_, rfl, rfl⟩, .inl rfl, _, rfl, rfl⟩

theorem witness_SelectorOutOfRangeIsIllegal :
    running.halt = false ∧ (Instr.rdcell 0x0205).wellFormed params = false ∧ (Instr.bgprio 4 0).wellFormed params = false ∧
    (Instr.objpos 128 0 0).wellFormed params = false ∧ (Instr.affset 32 0 0).wellFormed params = false ∧
    (Instr.affset 0 4 0).wellFormed params = false := by decide

theorem witness_ChecksHavePriority :
    running.halt = false ∧ 3 < (4 : Word).toNat ∧ dead.halt = true ∧
    Claims.presented (pending 0x00200004000000000001#80) 0x00200004000000000001#80 [] ∧
    (0x00200004000000000001#80).extractLsb' 64 16 = 0x0020#16 ∧
    (0x00200004000000000001#80).extractLsb' 0 16 ≠ 0#16 :=
  ⟨rfl, by decide, rfl, .inl rfl, by decide, by decide⟩

/-- One witness for each status other than `OK`. -/
theorem witness_ExceptionsArePrecise :
    (∃ t, exec (.bgsbb 0 32) running = .next t ∧ t.lastResponse = some (.rejected, 0)) ∧
    (∃ t, exec (.bgsbb 4 32) running = .next t ∧ t.lastResponse = some (.illegal, 0)) ∧
    (∃ t, exec (.rblk 4 0 0) running = .next t ∧ t.lastResponse = some (.aborted, 0)) ∧
    (∃ t, exec (.roff 1 1) dead = .next t ∧ t.lastResponse = some (.aborted, 0)) :=
  ⟨⟨_, rfl, rfl⟩, ⟨_, rfl, rfl⟩, ⟨_, rfl, rfl⟩, ⟨_, rfl, rfl⟩⟩

/-- Steps after which the main flow hangs: too early a call, too early a write, and a wait with vblank not enabled. -/
theorem witness_NothingStopsAndOnlyEarlyEnablingOrWaitingHangs :
    (∃ t, step (pendingEnv .enableGlobally running) = .next t ∧ t.env.flow = .hung) ∧
    (∃ t, step (pending 0x00030211000100000000#80) = .next t ∧ t.env.flow = .hung) ∧
    ∃ t, step (pendingEnv .waitVblank (afterEnv (.init 4) running)) = .next t ∧ t.env.flow = .hung :=
  ⟨⟨_, rfl, rfl⟩, ⟨_, rfl, rfl⟩, _, rfl, rfl⟩

/-- A command that touches no environment, and one that writes an external cell. -/
theorem witness_CommandsDoNotSeeTheEnvironment :
    (∃ t, exec (.bgprio 0 1) ready = .next t) ∧ ¬ Claims.writesExternalCell (.bgprio 0 1) ∧ Instr.bgprio 0 1 ≠ .commit ∧
    (∃ t, exec .commit ready = .next t) ∧ (∃ t, exec (.wrcell 0x0211 1) ready = .next t) ∧
    Claims.writesExternalCell (.wrcell 0x0211 1) :=
  ⟨⟨_, rfl⟩, by simp [Claims.writesExternalCell], by decide, exec_next _ _, ⟨_, rfl⟩, 0x0211, 1, by decide, .inr ⟨_, rfl⟩⟩

theorem witness_CommandsDoNotReadMapOrOam : ∃ t, exec (.mapwr 0 1 2 3) running = .next t := ⟨_, rfl⟩

/-- For each clause a command that its list of writers leaves out. -/
theorem witness_EachSpaceHasItsWriters :
    (∃ t, exec (.bgprio 0 1) running = .next t) ∧
    (Instr.bgprio 0 1).mnemonic ∉ ["DISPSET", "SETBITS", "WRCELL"] ∧
    (∃ t, exec (.dispset 1) running = .next t) ∧
    (Instr.dispset 1).mnemonic ∉ ["BGPRIO", "BGTBANK", "BGCDEPTH", "BGSIZE", "BGSBB", "BGSBBU", "SETBITS", "WRCELL"] ∧
    (Instr.dispset 1).mnemonic ∉ ["OBJPOS", "OBJMODE", "OBJGFX", "OBJMOSAIC", "OBJCDEPTH", "OBJSHAPE", "OBJSIZE",
      "OBJAFFIDX", "OBJHFLIP", "OBJVFLIP", "OBJTILE", "OBJPRIO", "OBJPAL", "AFFSET", "SETBITS", "WRCELL"] ∧
    (Instr.dispset 1).mnemonic ∉ ["MAPWR", "COMMIT"] ∧ (∃ t, exec (.mapwr 0 0 0 1) running = .next t) ∧
    (Instr.mapwr 0 0 0 1).mnemonic ≠ "COMMIT" ∧ (∃ t, exec .commit running = .next t) ∧
    Instr.commit.mnemonic ≠ "MAPWR" ∧ inMapBytes 0x0600FFFF ∧ inOamBytes 0x070003FF :=
  ⟨⟨_, rfl⟩, by decide, ⟨_, rfl⟩, by decide, by decide, by decide, ⟨_, rfl⟩, by decide, exec_next _ _, by decide,
    ⟨by decide, by decide⟩, ⟨by decide, by decide⟩⟩

/-- A SETBITS of a cell that is not external, and of one that is. -/
theorem witness_FreeValuesAreUsedOnlyWhereTheSpecHasThem :
    (∃ t, exec (.setbits 0x0200 1 1 0) running = .next t) ∧ ¬ Claims.accessesExternalCell (.setbits 0x0200 1 1 0) ∧
    Instr.setbits 0x0200 1 1 0 ≠ .commit ∧ (∃ t, exec (.setbits 0x0210 1 1 0) running = .next t) ∧
    (Instr.setbits 0x0210 1 1 0).mnemonic = "SETBITS" ∧ (Instr.roff 0 0).mnemonic ≠ "SETBITS" := by
  refine ⟨⟨_, rfl⟩, ?_, by decide, ⟨_, rfl⟩, by decide, by decide⟩
  rintro (⟨sel, k, h, ⟨v, w, sh, hi⟩ | ⟨v, hi⟩⟩ | ⟨sel, k, h, hi⟩)
  · cases hi
    revert h
    simp [cellOf_ext_iff]
    omega
  · cases hi
  · cases hi

/-- A state with a tile-map entry written, halted by an abort, and the environment initialized. -/
def soundState : State :=
  { ready with
    halt := true
    mem := [(0x06000000, 0x23), (0x06000001, 0x55)]
    trace := [.respond .aborted 0]
    inputs := [.command 0#80] }

theorem witness_EveryStepKeepsTheInvariantOfTheMachine : soundState.Inv ∧ ∃ t, step soundState = .next t := by
  refine ⟨⟨⟨by decide, ?_, fun u => ?_⟩, ⟨by decide, by decide, fun i h => ?_, fun _ h => (nomatch h)⟩, rfl, ?_, by decide⟩,
    _, rfl⟩
  · intro c hc
    have hm : c = (0x06000000, 0x23) ∨ c = (0x06000001, 0x55) := by simpa [soundState] using hc
    refine .inl ?_
    rcases hm with rfl | rfl <;> exact ⟨by decide, by decide⟩
  · simp only [soundState, Memory.readByte_cons, Memory.readByte_nil]
    by_cases h : u = 0x03000000
    · subst h
      rfl
    · rw [if_neg (by omega), if_neg (by omega), if_neg (by omega), if_neg (by omega)]
  · have hm : soundState.env.mirror = 0 := by decide
    rw [hm] at h
    simp at h
  · intro status result h
    have : status = .aborted ∧ result = 0 := by simpa [soundState] using h
    exact fun _ => this.2

/-- A shift past the word, and two fields apart. -/
theorem witness_FieldInsertComputesTheFormula : 16 ≤ 16 ∧ (11 + 4 ≤ 15 ∨ 15 + 1 ≤ 11) := by decide

/-- The field at the top of the word, and bits on each side of a field. -/
theorem witness_FieldInsertPreservesOtherBits :
    11 + 5 ≤ 16 ∧ 3 + 10 ≤ 16 ∧ (2 < 3 ∨ 3 + 10 ≤ 2) ∧ (13 < 3 ∨ 3 + 10 ≤ 13) := by decide

/-- The first and the last cell of each kind, for SETBITS, RDCELL and WRCELL. -/
theorem witness_cell_commands :
    running.halt = false ∧ (0 : Word).toNat = (0 : Fin 512).val ∧ (0x01FF : Word).toNat = (511 : Fin 512).val ∧
    (0x0200 : Word).toNat = 0x0200 ∧ (0x0201 : Word).toNat = 0x0201 + (0 : Fin 4).val ∧
    (0x0204 : Word).toNat = 0x0201 + (3 : Fin 4).val ∧ (0x0210 : Word).toNat = 0x0210 + 0 ∧
    0 < params.extN ∧ (0x021F : Word).toNat = 0x0210 + 15 ∧ 15 < params.extN := by decide

/-- The ends of the two ranges of selectors that name no cell. -/
theorem witness_SelectorsNameTheirCells :
    running.halt = false ∧ (0x0205 ≤ (0x0205 : Word).toNat ∧ (0x0205 : Word).toNat ≤ 0x020F) ∧
    (0x0205 ≤ (0x020F : Word).toNat ∧ (0x020F : Word).toNat ≤ 0x020F) ∧ 0x0210 + params.extN ≤ (0x0220 : Word).toNat ∧
    0x0210 + params.extN ≤ (0xFFFF : Word).toNat ∧ (∀ k, Cell.dispcnt = .ext k → k < params.extN) :=
  ⟨by decide, by decide, by decide, by decide, by decide, fun k h => nomatch h⟩

theorem witness_DispsetOverwritesTheRegister : running.halt = false := by decide

/-- The ends of the ranges of `bg` and of the checked value, for the setters of `BGCNT`, TADDR and MAPWR. -/
theorem witness_background_commands :
    running.halt = false ∧ (0 : Word).toNat = (0 : Fin 4).val ∧ (3 : Word).toNat = (3 : Fin 4).val ∧
    4 ≤ (4 : Word).toNat ∧ (31 : Word).toNat ≤ 31 ∧ 31 < (32 : Word).toNat ∧ (3 : Word).toNat < 4 := by decide

theorem witness_UncheckedScreenBaseSetterMasks :
    (31 : Word).toNat ≤ 31 ∧ running.halt = false ∧ (3 : Word).toNat = (3 : Fin 4).val ∧
    ∃ t, exec (.bgsbbu 3 33) running = .next t :=
  ⟨by decide, rfl, rfl, _, rfl⟩

/-- Each size code, and the first and the last size outside them. -/
theorem witness_RblkAnswersTheBlockIndex :
    running.halt = false ∧ (0 : Word).toNat = 0 ∧ (1 : Word).toNat = 1 ∧ (2 : Word).toNat = 2 ∧ (3 : Word).toNat = 3 ∧
    3 < (4 : Word).toNat ∧ 3 < (0xFFFF : Word).toNat := by decide

/-- ROFF and ENCSE ask only that the block is not halted. -/
theorem witness_pure_commands : running.halt = false := by decide

/-- A target in the map and one outside it (V6). -/
theorem witness_MapwrWritesTheTargetEntry :
    running.halt = false ∧ (0 : Word).toNat = (0 : Fin 4).val ∧ 4 ≤ (4 : Word).toNat ∧
    Claims.targetIndex 0x1F00 31 31 = 32767 ∧ Claims.targetIndex 0xDF00 32 0 = 32768 := by decide

/-- The last tile of the largest background, and the last index of its four blocks. -/
theorem witness_ResolverIsABijection :
    63 < (extent .s64x64).1 ∧ 63 < (extent .s64x64).2 ∧ 3 < blocksForSize .s64x64 ∧ 1023 < 1024 ∧
    4095 < 1024 * blocksForSize .s64x64 := by decide

theorem witness_OutOfRangeCoordinatesFollowTheFormula : 64 ≤ 64 ∧ 31 ≤ 31 := by decide

/-- The first and the last entry, and the first number that names none, for OBJPOS and the setters; the word of the field. -/
theorem witness_object_commands :
    running.halt = false ∧ (0 : Word).toNat = (0 : Fin 128).val ∧ (127 : Word).toNat = (127 : Fin 128).val ∧
    128 ≤ (128 : Word).toNat ∧ (510 : Fin 512).val = 4 * (127 : Fin 128).val + (2 : Fin 4).val ∧
    (0 : Fin 512).val = 4 * (0 : Fin 128).val + (0 : Fin 4).val := by decide

theorem witness_FlipFlagsOverlapTheAffineIndex :
    running.halt = false ∧ (127 : Word).toNat = (127 : Fin 128).val ∧
    (∃ t, exec (.objaffidx 127 31) running = .next t) ∧ (∃ t, exec (.objhflip 127 1) running = .next t) ∧
    ∃ t, exec (.objvflip 127 1) running = .next t :=
  ⟨rfl, rfl, ⟨_, rfl⟩, ⟨_, rfl⟩, _, rfl⟩

/-- The last coefficient, the word it lies in, and the first numbers out of range. -/
theorem witness_AffsetWritesTheAliasedFiller :
    running.halt = false ∧ (31 : Word).toNat < 32 ∧ (3 : Word).toNat < 4 ∧
    (511 : Fin 512).val = 16 * (31 : Word).toNat + 4 * (3 : Word).toNat + 3 ∧ (0x01FF : Word).toNat = (511 : Fin 512).val ∧
    32 ≤ (32 : Word).toNat ∧ 4 ≤ (4 : Word).toNat ∧ ∃ t, exec (.affset 31 3 1) running = .next t :=
  ⟨rfl, by decide, by decide, by decide, by decide, by decide, by decide, _, rfl⟩

theorem witness_SettersKeepTheAffineCoefficients :
    (Instr.objpal 0 1).mnemonic ∉ ["AFFSET", "SETBITS", "WRCELL"] ∧ (3 : Fin 512).val % 4 = 3 ∧
    ∃ t, exec (.objpal 0 1) running = .next t :=
  ⟨by decide, by decide, _, rfl⟩

theorem witness_SettersKeepTheOtherEntries :
    (4 : Fin 512).val / 4 ≠ (0 : Word).toNat ∧ ∃ t, exec (.objpos 0 1 2) running = .next t :=
  ⟨by decide, _, rfl⟩

/-- A block that is not halted; whether the window holds is free, so it is a premise of its clause alone (R197). -/
theorem witness_CommitCopiesTheShadow :
    running.halt = false ∧ (Config.windowHolds ({ running with env := { running.env with oamSafe := true } } : State).draws =
      true → CommitInWindow { running with env := { running.env with oamSafe := true } }) :=
  ⟨rfl, fun h => ⟨rfl, h⟩⟩

theorem witness_CommitOrderDoesNotMatter :
    running.mem.wf ∧ running.halt = false ∧ (List.finRange 512).reverse.Perm (List.finRange 512) ∧
    ∃ t, exec .commit running = .next t :=
  ⟨List.Pairwise.nil, rfl, List.reverse_perm _, exec_next _ _⟩

theorem witness_CommitTwiceIsCommitOnce :
    running.mem.wf ∧ running.halt = false ∧
    ∃ t, exec .commit running = .next t ∧ ∃ u, exec .commit t = .next u := by
  obtain ⟨t, ht⟩ := exec_next .commit running
  exact ⟨List.Pairwise.nil, rfl, t, ht, exec_next .commit t⟩

theorem witness_CommandsThatStoreNothingKeepMemory :
    (∃ t, exec (.taddr 0 0 0) running = .next t) ∧ (∀ bg x y entry, Instr.taddr 0 0 0 ≠ .mapwr bg x y entry) ∧
    Instr.taddr 0 0 0 ≠ .commit ∧ ¬ Claims.writesExternalCell (.taddr 0 0 0) :=
  ⟨⟨_, rfl⟩, by simp, by decide, by simp [Claims.writesExternalCell]⟩

theorem witness_MapwrKeepsEverythingElse :
    (∃ t, exec (.mapwr 3 31 31 7) (running 0x1F00) = .next t) ∧ (3 : Word).toNat = (3 : Fin 4).val ∧
    mapIndexOf params 0x1F00 31 31 = 32767 :=
  ⟨⟨_, rfl⟩, rfl, by decide⟩

/-- Other parameters: a command presented, an external cell in their range and one outside it, fields, a background, an entry,
a map index inside the map and one outside it. -/
theorem witness_TheMachineFollowsItsParameters :
    (pending 0x00210021004100000000#80).nextInput (execWith { params with extN := 2 }) =
      some (.command 0x00210021004100000000#80, []) ∧
    ({ handling ready with inputs := [.handlerCommand 0#80] } : State).nextInput (execWith { params with extN := 2 }) =
      some (.handlerCommand 0#80, []) ∧
    running.halt = false ∧ (3 : Word).toNat = (3 : Fin 4).val ∧ (127 : Word).toNat = (127 : Fin 128).val ∧
    (31 : Word).toNat ≤ 31 ∧
    (0x0211 : Word).toNat = 0x0210 + 1 ∧ 1 < ({ params with extN := 2 } : Params).extN ∧
    ({ params with extN := 1 } : Params).extN ≤ 1 ∧ ({ params with extN := 2 } : Params).layout.bgcnt.prio.width ≤ 16 ∧
    ({ params with extN := 2 } : Params).layout.attr1.x.width ≤ 16 ∧
    ({ params with extN := 2 } : Params).layout.entry.tile.width ≤ 16 ∧
    mapidx 31 .s32x32 31 31 < 32768 ∧ 32768 ≤ mapidx 31 .s64x32 32 0 := by
  decide

/-- Other parameters: with one external cell the selector 0x0211 names none. -/
theorem test_ext_n :
    (match stepWith { params with extN := 1 } (pending 0x00030211000700000000#80) with
      | .next t => t.lastResponse
      | .fault _ => none
      | .refused _ => none) = some (.illegal, 0) := by decide

theorem witness_InterruptEnablesAreSetOnly :
    (∃ t, step (pendingEnv .dispatch ready) = .next t) ∧
    (∀ x rest, (pendingEnv .dispatch ready).nextInput = some (x, rest) → Claims.resets x = false) ∧
    ready.env.phase = .initialized ∧ ready.env.enabled.getLsbD 0 = true ∧ ready.env.masterOn = true := by
  refine ⟨⟨_, rfl⟩, fun x rest h => ?_, by decide, by decide, by decide⟩
  have hi : (pendingEnv .dispatch ready).nextInput = some (.env .dispatch, []) := by decide
  rw [hi] at h
  cases h
  rfl

theorem witness_EnablingSetsTheBit :
    (pendingEnv (.init 4) running).nextInput = some (.env (.init 4), []) ∧ running.env.phase = .uninitialized ∧
    (pendingEnv (.init 4) ready).nextInput = some (.env (.init 4), []) ∧
    (pendingEnv (.enableType .cartridge) ready).nextInput = some (.env (.enableType .cartridge), []) ∧
    (pendingEnv .enableGlobally ready).nextInput = some (.env .enableGlobally, []) ∧ ready.env.phase = .initialized ∧
    running.halt = false ∧
    ready.halt = false ∧ (∃ t, exec (.setbits 0x0211 1 1 (BitVec.ofNat 16 IrqKind.cartridge.index)) ready = .next t) ∧
    ∃ t, exec (.setbits 0x0210 1 1 3) running = .next t :=
  ⟨by decide, by decide, by decide, by decide, by decide, by decide, rfl, by decide, ⟨_, rfl⟩, _, rfl⟩

/-- Before `init()`; after it, a wait without the enable or without the master flag; a hung flow. -/
theorem witness_SkippedInitHangs :
    running.env.phase = .uninitialized ∧ running.halt = false ∧
    (pendingEnv (.enableType .hblank) running).nextInput = some (.env (.enableType .hblank), []) ∧
    (pendingEnv .enableGlobally running).nextInput = some (.env .enableGlobally, []) ∧
    (pendingEnv .waitVblank running).nextInput = some (.env .waitVblank, []) ∧
    (pendingEnv .waitVblank (afterEnv (.init 4) running)).nextInput = some (.env .waitVblank, []) ∧
    inMask (afterEnv (.init 4) running).env.enabled .vblank = false ∧
    (afterEnv (.init 4) running).env.vblankRaised = false ∧
    (afterEnv (.enableType .vblank) (afterEnv (.init 4) running)).env.masterOn = false ∧
    (afterEnv .waitVblank running).env.flow = .hung := by
  decide

/-- Ready with nothing asserted, before `init()`, ready with vblank asserted, and the routine at work. -/
theorem witness_DispatchAcknowledgesTheFiredKinds :
    (pendingEnv .dispatch ready).nextInput = some (.env .dispatch, []) ∧ ready.env.masterOn = true ∧
    ready.env.phase = .initialized ∧ ready.env.routine = none ∧ ready.env.asserted = 0 ∧
    running.env.phase = .uninitialized ∧ running.env.masterOn = false ∧
    ((afterEnv (.assertIrq .vblank) ready).env.enabled.getLsbD 0 &&
      (afterEnv (.assertIrq .vblank) ready).env.asserted.getLsbD 0) = true ∧
    (pendingEnv .dispatch (handling ready)).nextInput = some (.env .dispatch, []) ∧
    (pendingEnv .dispatchReturn (handling ready)).nextInput = some (.env .dispatchReturn, []) ∧
    (handling ready).env.routine = some IrqKind.vblank.bit ∧ (handling ready).env.flow ≠ .waiting ∧
    ignoring.env.routine = some IrqKind.hblank.bit ∧ inMask IrqKind.hblank.bit .vblank = false := by
  decide

theorem witness_HardwareAssertsAndScansOut :
    (pendingEnv (.assertIrq .vblank) ready).nextInput = some (.env (.assertIrq .vblank), []) ∧
    (pendingEnv (.scanout false) ready).nextInput = some (.env (.scanout false), []) := by decide

theorem witness_VblankWaitReturnsInTheSafeWindow :
    (pendingEnv .waitVblank ready).nextInput = some (.env .waitVblank, []) ∧ ready.env.phase = .initialized ∧
    inMask ready.env.enabled .vblank = true ∧ ready.env.vblankRaised = true ∧ ready.env.masterOn = true ∧
    (handling suspended).env.flow = .waiting ∧
    (pendingEnv .dispatchReturn (handling suspended)).nextInput = some (.env .dispatchReturn, []) ∧
    (handling suspended).env.routine = some IrqKind.vblank.bit ∧ inMask IrqKind.vblank.bit .vblank = true ∧
    (afterEnv .dispatchReturn (handling suspended)).env.flow = .running ∧
    reading.env.flow ≠ .running ∧ reading.nextInput = some (.handlerCommand 0x00020210000000000000#80, []) :=
  ⟨by decide, by decide, by decide, by decide, by decide, by decide, by decide, by decide, by decide, by decide, by decide,
    State.nextInput_cons test_wait_suspends.2.2.1 rfl⟩

end Sys2Proof.Tests
end

section
/-! PROOFS. The scope and the parameters (R5, R6, R41): coordinates outside the background, the selector map, and the commands
under any record of parameters. -/

namespace Sys2Proof.Machine

open Sys2Proof

/-! ### The resolver on any coordinates (R6, R101, R102, R107) -/

/-- The in-block offset sees a column modulo 32 only (R102). -/
theorem off_mod_left (x y : Nat) : off (x % 32) y = off x y := by simp [off]

/-- The in-block offset sees a row modulo 32 only (R102). -/
theorem off_mod_right (x y : Nat) : off x (y % 32) = off x y := by simp [off]

/-- A column 64 further right lies two blocks further on, whatever the row (R101). -/
theorem blk_s64x64_of_column {x : Nat} (hx : 64 ≤ x) (y : Nat) : blk .s64x64 x y = 2 + blk .s64x64 (x - 64) y := by
  simp only [blk]
  omega

/-- A block index is at most 6141 for coordinates of 16 bits (R6). -/
theorem blk_le (size : BgSize) {x y : Nat} (hx : x < 2 ^ 16) (hy : y < 2 ^ 16) : blk size x y ≤ 6141 := by
  cases size with
  | s32x32 => exact Nat.zero_le _
  | s64x32 => simp only [blk]; split <;> omega
  | s32x64 => simp only [blk]; split <;> omega
  | s64x64 => simp only [blk]; omega

/-- A map index is at most 6321151 for a screen base of 5 bits and coordinates of 16 bits (R6). -/
theorem mapidx_le (size : BgSize) {sbb x y : Nat} (hs : sbb ≤ 31) (hx : x < 2 ^ 16) (hy : y < 2 ^ 16) :
    mapidx sbb size x y ≤ 6321151 := by
  have hb := blk_le size hx hy
  have ho := off_lt x y
  unfold mapidx
  omega

/-- Settles O42: outside the background the block index and the offset are R101's and R102's formulas, bounded by R6. -/
theorem outOfRangeCoordinatesFollowTheFormula : Obligations.OutOfRangeCoordinatesFollowTheFormula := by
  refine ⟨fun _ _ => rfl, fun x y hx => ⟨if_pos (by omega), (off_mod_left x y).symm⟩,
    fun x y => ⟨(off_mod_right x y).symm, rfl⟩, fun x y hy => if_pos (by omega),
    fun x y => ⟨(off_mod_left x y).symm, rfl⟩, fun x y hy => ?_, fun x y hx => blk_s64x64_of_column hx y, rfl,
    fun size x y sbb hs => ⟨blk_le size x.isLt y.isLt, mapidx_le size hs x.isLt y.isLt⟩⟩
  simp only [blk]
  omega

section AnyParameters

/-! ### The step under any parameters -/

variable {P : Params} {s : State}

/-- A step runs the command presented, by the main flow or by the dispatch routine, under the record (R5, R49, R165). -/
theorem stepWith_presented {w : CommandWord} {i : Instr} {rest : List Input}
    (h : s.nextInput (execWith P) = some (.command w, rest) ∨ s.nextInput (execWith P) = some (.handlerCommand w, rest))
    (hd : decode w = .ok i) : stepWith P s = execWith P i { s with inputs := rest } := by
  have hrun : runWord w (s.setInputs rest) (execWith P) = execWith P i { s with inputs := rest } := by
    rw [runWord, hd]
    rfl
  obtain h | h := h
  · rw [stepWith, stepOf, h]
    exact hrun
  · rw [stepWith, stepOf, h]
    exact hrun

/-! ### The cell commands (R41, R81 to R83) -/

/-- The commands on the cell a selector names. -/
def cellCommands (sel value width shift : Word) : List Instr :=
  [.setbits sel value width shift, .rdcell sel, .wrcell sel value]

/-- A cell command makes the checks on the cell its selector names, and answers `OK` once it runs. -/
theorem execWith_cellCommand {sel value width shift : Word} {i : Instr} (hi : i ∈ cellCommands sel value width shift)
    (P : Params) (s : State) :
    ∃ run, execWith P i s = s.begin (cellOf P sel) run ∧
      ∀ c, ∃ result, (run c s).lastResponse = some (.ok, result) := by
  revert i
  simp only [cellCommands, List.forall_mem_cons]
  exact ⟨⟨setbitsOn value width shift, rfl, fun _ => ⟨_, rfl⟩⟩, ⟨rdcellOn, rfl, fun _ => ⟨_, rfl⟩⟩,
    ⟨wrcellOn value, rfl, fun _ => ⟨_, rfl⟩⟩, nofun⟩

/-- On a selector that names no cell it answers `ILLEGAL` with no access. -/
theorem execWith_cellCommand_illegal {sel value width shift : Word} {i : Instr}
    (hi : i ∈ cellCommands sel value width shift) (h : s.halt = false) (hc : cellOf P sel = none) :
    execWith P i s = .next (Claims.answered s .illegal 0) := by
  obtain ⟨run, hrun, -⟩ := execWith_cellCommand hi P s
  rw [hrun, hc, State.begin_none h]
  rfl

/-- On a selector that names a cell it answers `OK`. -/
theorem execWith_cellCommand_ok {sel value width shift : Word} {i : Instr} {c : Cell}
    (hi : i ∈ cellCommands sel value width shift) (h : s.halt = false) (hc : cellOf P sel = some c) :
    ∃ t result, execWith P i s = .next t ∧ t.lastResponse = some (.ok, result) := by
  obtain ⟨run, hrun, hok⟩ := execWith_cellCommand hi P s
  obtain ⟨result, hr⟩ := hok c
  exact ⟨run c s, result, by rw [hrun, hc, State.begin_some h], hr⟩

/-! ### The display setters (R91 to R97) -/

/-- The setters of one field of a background's control register, each with its field. -/
def bgSetters (L : Layout) (bg value : Word) : List (Instr × Field) :=
  [(.bgprio bg value, L.bgcnt.prio), (.bgtbank bg value, L.bgcnt.tbank), (.bgcdepth bg value, L.bgcnt.cdepth),
    (.bgsize bg value, L.bgcnt.size), (.bgsbbu bg value, L.bgcnt.sbb)]

theorem execWith_bgSetter {bg value : Word} {p : Instr × Field} (hp : p ∈ bgSetters P.layout bg value) (s : State) :
    execWith P p.1 s = s.begin (bgOf bg) (bgField p.2 value) := by
  revert p
  simp only [bgSetters, List.forall_mem_cons]
  exact ⟨rfl, rfl, rfl, rfl, rfl, nofun⟩

/-- A display setter inserts its field of the record's `Layout` and keeps every other bit. -/
theorem execWith_bgSetter_inserts {bg value : Word} {n : Fin 4} {p : Instr × Field}
    (hp : p ∈ bgSetters P.layout bg value) (h : s.halt = false) (hn : bg.toNat = n.val) (hw : p.2.width ≤ 16) :
    ∃ new, FieldInserted p.2 s.bgcnt[n] value new ∧ execWith P p.1 s = .next (Claims.bgcntUpdated s n new) := by
  refine ⟨_, fieldInserted_bf hw s.bgcnt[n] value, ?_⟩
  rw [execWith_bgSetter hp, bgOf_eq n hn, State.begin_some h]
  rfl

/-- The checked screen-base setter is the unchecked one on a value in its range (R96). -/
theorem execWith_bgsbb_eq_bgsbbu {bg value : Word} {n : Fin 4} (h : s.halt = false) (hn : bg.toNat = n.val)
    (hv : value.toNat ≤ 31) : execWith P (.bgsbb bg value) s = execWith P (.bgsbbu bg value) s := by
  have hrun : bgsbbRun P value n s = bgField P.layout.bgcnt.sbb value n s := if_neg (by omega)
  simp only [execWith, execBgsbb, execBgsbbu, bgOf_eq n hn, State.begin_some h, hrun]

/-! ### The object setters (R120 to R133) -/

/-- The setters of one field of an object entry, each with the word it writes (0 to 2) and the field. -/
def objSetters (L : Layout) (idx value : Word) : List (Instr × Fin 4 × Field) :=
  [(.objmode idx value, 0, L.attr0.dmode), (.objgfx idx value, 0, L.attr0.gmode),
    (.objmosaic idx value, 0, L.attr0.mosaic), (.objcdepth idx value, 0, L.attr0.cdepth),
    (.objshape idx value, 0, L.attr0.shape), (.objsize idx value, 1, L.attr1.size),
    (.objaffidx idx value, 1, L.attr1.affidx), (.objhflip idx value, 1, L.attr1.hflip),
    (.objvflip idx value, 1, L.attr1.vflip), (.objtile idx value, 2, L.attr2.tile),
    (.objprio idx value, 2, L.attr2.prio), (.objpal idx value, 2, L.attr2.palbank)]

theorem execWith_objSetter {idx value : Word} {p : Instr × Fin 4 × Field} (hp : p ∈ objSetters P.layout idx value)
    (s : State) : execWith P p.1 s = s.begin (objOf idx) (objSetter p.2.1 p.2.2 value) := by
  revert p
  simp only [objSetters, List.forall_mem_cons]
  exact ⟨rfl, rfl, rfl, rfl, rfl, rfl, rfl, rfl, rfl, rfl, rfl, rfl, nofun⟩

/-- An object setter inserts its field of the record's `Layout` and keeps every other bit. -/
theorem execWith_objSetter_inserts {idx value : Word} {e : Fin 128} {p : Instr × Fin 4 × Field}
    (hp : p ∈ objSetters P.layout idx value) (h : s.halt = false) (he : idx.toNat = e.val) (hw : p.2.2.width ≤ 16) :
    ∃ new, FieldInserted p.2.2 s.shadow[attrWord e p.2.1] value new ∧
      execWith P p.1 s = .next (Claims.shadowUpdated s (attrWord e p.2.1) new) := by
  refine ⟨_, fieldInserted_bf hw s.shadow[attrWord e p.2.1] value, ?_⟩
  rw [execWith_objSetter hp, objOf_eq e he, State.begin_some h]
  rfl

/-- The two words of a position are apart: the first insert leaves the second word. -/
theorem getElem_set_attrWord_one (shadow : Vector Word 512) (e : Fin 128) (v : Word) :
    (shadow.set (attrWord e 0) v)[attrWord e 1] = shadow[attrWord e 1] :=
  Vector.getElem_set_ne _ _ (by simp [attrWord])

/-- OBJPOS inserts `y` in attr0 and `x` in attr1, each in its field of the record's `Layout` (R121). -/
theorem execWith_objpos_inserts {idx x y : Word} {e : Fin 128} (h : s.halt = false) (he : idx.toNat = e.val)
    (hy : P.layout.attr0.y.width ≤ 16) (hx : P.layout.attr1.x.width ≤ 16) :
    ∃ new0 new1 t, FieldInserted P.layout.attr0.y s.shadow[attrWord e 0] y new0 ∧
      FieldInserted P.layout.attr1.x s.shadow[attrWord e 1] x new1 ∧ execWith P (.objpos idx x y) s = .next t ∧
      t.shadow = (s.shadow.set (attrWord e 0) new0).set (attrWord e 1) new1 := by
  refine ⟨_, _, objposRun P x y e s, fieldInserted_bf hy _ y, fieldInserted_bf hx _ x, ?_, ?_⟩
  · rw [execWith, execObjpos, objOf_eq e he, State.begin_some h]
  · simp only [objposRun, objSetter, objField, State.insertField_shadowCell, State.respond_shadow,
      getElem_set_attrWord_one]

/-! ### The resolver's commands (R103 to R109) -/

/-- RBLK answers the block index of the size its code names in the record (R104). -/
theorem execWith_rblk {size : Word} {code : Fin 4} (h : s.halt = false) (hc : size.toNat = code.val) (x y : Word) :
    ∃ r : Wide, r.toNat = blk P.sizeCode[code] x.toNat y.toNat ∧
      execWith P (.rblk size x y) s = .next (Claims.answered s .ok r) := by
  have hsize : sizeOfCode P size.toNat = P.sizeCode[code] := by
    simp only [sizeOfCode, hc, Nat.mod_eq_of_lt code.isLt]
    rfl
  have hb := blk_le P.sizeCode[code] x.isLt y.isLt
  refine ⟨BitVec.ofNat 32 (blk P.sizeCode[code] x.toNat y.toNat), ?_, ?_⟩
  · rw [BitVec.toNat_ofNat, Nat.mod_eq_of_lt (by omega)]
  · have hlt : size.toNat < nSizeCodes := hc ▸ code.isLt
    rw [execWith, execRblk, State.start_running h, rblkRun, if_pos hlt, hsize]
    rfl

/-- A value put in a field that fits in the word: its low bits at the field's place (R84). -/
theorem getLsbD_fieldValue_of_width_le {f : Field} (hf : f.width ≤ 16) (v : Word) (i : Nat) :
    (fieldValue v f.width f.shift).getLsbD i =
      (decide (i < 16) && (decide (f.shift ≤ i ∧ i < f.shift + f.width) && v.getLsbD (i - f.shift))) := by
  rw [getLsbD_fieldValue, Nat.min_eq_left hf, Bool.decide_and]
  simp only [Bool.and_assoc]

/-- The fields of a screen entry, each with the argument ENCSE puts in it (R103). -/
def entryFields (L : EntryLayout) (tileId hflip vflip paletteBank : Word) : List (Field × Word) :=
  [(L.tile, tileId), (L.hflip, hflip), (L.vflip, vflip), (L.palbank, paletteBank)]

/-- Bit `i` of the screen-entry word: set by one of the arguments, in its field (R103). -/
theorem getLsbD_enc {tileId hflip vflip paletteBank : Word} (ht : P.layout.entry.tile.width ≤ 16)
    (hh : P.layout.entry.hflip.width ≤ 16) (hv : P.layout.entry.vflip.width ≤ 16)
    (hp : P.layout.entry.palbank.width ≤ 16) (i : Nat) :
    (enc P tileId hflip vflip paletteBank).getLsbD i = (decide (i < 16) &&
      (entryFields P.layout.entry tileId hflip vflip paletteBank).any fun f =>
        decide (f.1.shift ≤ i ∧ i < f.1.shift + f.1.width) && f.2.getLsbD (i - f.1.shift)) := by
  simp only [enc, entryFields, BitVec.getLsbD_or, getLsbD_fieldValue_of_width_le ht, getLsbD_fieldValue_of_width_le hh,
    getLsbD_fieldValue_of_width_le hv, getLsbD_fieldValue_of_width_le hp, List.any_cons, List.any_nil, Bool.or_false,
    Bool.and_or_distrib_left, Bool.or_assoc]

/-- ENCSE answers the four arguments, each in its field of the record's `Layout` (R106). -/
theorem execWith_encse (h : s.halt = false) (tileId hflip vflip paletteBank : Word)
    (ht : P.layout.entry.tile.width ≤ 16) (hh : P.layout.entry.hflip.width ≤ 16)
    (hv : P.layout.entry.vflip.width ≤ 16) (hp : P.layout.entry.palbank.width ≤ 16) :
    ∃ r : Wide, execWith P (.encse tileId hflip vflip paletteBank) s = .next (Claims.answered s .ok r) ∧
      ∀ i, i < 32 → r.getLsbD i = (decide (i < 16) &&
        (entryFields P.layout.entry tileId hflip vflip paletteBank).any fun f =>
          decide (f.1.shift ≤ i ∧ i < f.1.shift + f.1.width) && f.2.getLsbD (i - f.1.shift)) := by
  refine ⟨(enc P tileId hflip vflip paletteBank).setWidth 32, State.start_running h _, fun i hi => ?_⟩
  rw [BitVec.getLsbD_setWidth, getLsbD_enc ht hh hv hp, decide_eq_true hi, Bool.true_and]

/-- The address of a tile-map entry is exact modulo 2^32 (R48). -/
theorem toNat_mapAddress (P : Params) (i : Nat) : (mapAddress P i).toNat = (P.tilemapBase + i) % 2 ^ 32 :=
  BitVec.toNat_ofNat _ _

/-- TADDR reads the control register and answers the address of the map index it gives (R107, R108). -/
theorem execWith_taddr {bg : Word} {n : Fin 4} (h : s.halt = false) (hn : bg.toNat = n.val) (x y : Word) :
    execWith P (.taddr bg x y) s = .next { s with
      trace := .respond .ok (mapAddress P (mapIndexOf P s.bgcnt[n] x y)) :: .cellRead (.bgcnt n) s.bgcnt[n] :: s.trace } := by
  rw [execWith, execTaddr, bgOf_eq n hn, State.begin_some h]
  rfl

/-- MAPWR reads the control register and writes the entry at the address of the map index it gives; the entry is stored where
the tile map has one of that index (R109, log entry 12). -/
theorem execWith_mapwr {bg : Word} {n : Fin 4} (h : s.halt = false) (hn : bg.toNat = n.val) (x y entry : Word) :
    execWith P (.mapwr bg x y entry) s = .next { s with
      mem := if mapIndexOf P s.bgcnt[n] x y < 32768 then
        s.mem.writeWord (mapAddress P (mapIndexOf P s.bgcnt[n] x y)).toNat entry else s.mem
      trace := .respond .ok 0 :: .portWrite (mapAddress P (mapIndexOf P s.bgcnt[n] x y)) entry ::
        .cellRead (.bgcnt n) s.bgcnt[n] :: s.trace } := by
  rw [execWith, execMapwr, bgOf_eq n hn, State.begin_some h, mapwrRun]
  simp only [State.cellRead, State.mapWrite_eq]
  rfl

/-! ### COMMIT (R135) -/

/-- COMMIT copies the shadow table to the record's `OAM_BASE`, its writes in some order. -/
theorem execWith_commit (h : s.halt = false) :
    ∃ (order : List (Fin 512)) (t : State), order.Perm (List.finRange 512) ∧ execWith P .commit s = .next t ∧
      t.mem = copyInOrder P (List.finRange 512).reverse s.shadow s.mem ∧ t.trace = .respond .ok 0 ::
        ((order.map fun i => Event.portWrite (BitVec.ofNat 32 (P.oamBase + i.val)) s.shadow[i]).reverse ++ s.trace) := by
  refine ⟨commitOrder s.draws, commitRun P s, commitOrder_perm s.draws, State.start_running h _, ?_, ?_⟩
  · rw [commitRun, State.respond_mem, State.copyShadow_eq]
  · rw [commitRun, State.respond_trace, State.copyShadow_eq]
    rfl

end AnyParameters

/-! ### The statements on the selectors and the parameters -/

/-- Settles O30, by the selector map read in both directions and the check on what a selector names. -/
theorem selectorsNameTheirCells : Obligations.SelectorsNameTheirCells := by
  refine ⟨cellOf_selectorOf, fun P sel => cellOf_eq_none, fun sel value width shift s h hsel => ?_⟩
  have hall (i : Instr) (hi : i ∈ cellCommands sel value width shift) :
      exec i s = .next (Claims.answered s .illegal 0) := by
    rw [← execWith_params]
    exact execWith_cellCommand_illegal hi h (cellOf_eq_none.mpr hsel)
  exact ⟨hall _ (by simp [cellCommands]), hall _ (by simp [cellCommands]), hall _ (by simp [cellCommands])⟩

/-- Settles O54: at the default record the machine is the other statements' machine, and each command that reads the record is
what its lemma above says, whatever the record. -/
theorem theMachineFollowsItsParameters : Obligations.TheMachineFollowsItsParameters := by
  refine ⟨stepWith_params, machine_params, fun P a b c d s => ⟨fun w i rest => stepWith_presented, fun h =>
    ⟨fun n hn p hp hw => execWith_bgSetter_inserts hp h hn hw,
    fun n hn hb => execWith_bgsbb_eq_bgsbbu h hn hb,
    fun e he p hp hw => execWith_objSetter_inserts hp h he hw,
    fun e he hy hx => execWith_objpos_inserts h he hy hx,
    fun code hc => execWith_rblk h hc b c,
    execWith_encse h a b c d,
    fun n hn index hindex => ?taddr_mapwr,
    execWith_commit h,
    fun k hk i hi => ⟨fun hlt => execWith_cellCommand_ok hi h (cellOf_ext hlt hk),
      fun hle => execWith_cellCommand_illegal hi h (cellOf_eq_none.mpr (.inr (by omega)))⟩⟩⟩⟩
  subst hindex
  exact ⟨⟨_, toNat_mapAddress P _, execWith_taddr h hn b c⟩,
    _, _, toNat_mapAddress P _, execWith_mapwr h hn b c d, fun hlt => if_pos hlt, fun hle => if_neg hle.not_gt⟩

end Sys2Proof.Machine
end

section
/-! PROOFS. The state (R18, R19, R23, R24, R134 to R136): what the effect of a command is made of, what it leaves alone
outside the block, and what it does not see. -/

namespace Sys2Proof.Machine

open Sys2Proof

/-! ### The effect of a command

A command is the check of `HALT`, then an effect that depends on the command alone (`exec_effect`). The effects that
access no external cell and commit nothing (`InnerEffect`) are told apart from the four others. -/

/-- The cell is no external one (R41). -/
def InBlock (c : Cell) : Prop := ∀ k, c ≠ .ext k

/-- A cell is in the block or an external one. -/
theorem inBlock_or_ext (c : Cell) : InBlock c ∨ ∃ k, c = .ext k := by
  cases c with
  | ext k => exact .inr ⟨k, rfl⟩
  | _ => exact .inl fun _ => nofun

theorem afterRead_draws_inBlock {c : Cell} (hc : InBlock c) (s : State) : (s.afterRead c).draws = s.draws := by
  cases c with
  | ext k => exact absurd rfl (hc k)
  | _ => rfl

theorem cellWrite_draws_inBlock {c : Cell} (hc : InBlock c) (s : State) (v : Word) :
    (s.cellWrite c v).draws = s.draws := by
  cases c with
  | ext k => exact absurd rfl (hc k)
  | _ => rfl

theorem cellWrite_env_inBlock {c : Cell} (hc : InBlock c) (s : State) (v : Word) : (s.cellWrite c v).env = s.env := by
  cases c with
  | ext k => exact absurd rfl (hc k)
  | _ => rfl

theorem insertField_draws_inBlock {c : Cell} (hc : InBlock c) (s : State) (v : Word) (width shift : Nat) :
    (s.insertField c v width shift).draws = s.draws := by
  rw [State.insertField_eq, cellWrite_draws_inBlock hc, afterRead_draws_inBlock hc]

theorem insertField_env_inBlock {c : Cell} (hc : InBlock c) (s : State) (v : Word) (width shift : Nat) :
    (s.insertField c v width shift).env = s.env := by
  rw [State.insertField_eq, cellWrite_env_inBlock hc, State.afterRead_env]

/-- The effects that reach no external cell and commit nothing. -/
inductive InnerEffect : (State → State) → Prop
  | answer (status : Status) (result : Wide) : InnerEffect fun s => s.respond status result
  | abort : InnerEffect fun s => s.raise .sizeAbort
  | read {c : Cell} (hc : InBlock c) (result : Word → Wide) :
      InnerEffect fun s => (s.afterRead c).respond .ok (result (s.cellValue c))
  | write {c : Cell} (hc : InBlock c) (v : Word) : InnerEffect fun s => (s.cellWrite c v).respond .ok 0
  | insert {c : Cell} (hc : InBlock c) (v : Word) (width shift : Nat) :
      InnerEffect fun s => (s.insertField c v width shift).respond .ok 0
  | objpos (x y : Word) (e : Fin 128) : InnerEffect (objposRun params x y e)
  | mapwr (x y entry : Word) (n : Fin 4) : InnerEffect (mapwrRun params x y entry n)

/-- The effects of a command: an inner one, an access to the external cell its selector names, or the bulk copy. -/
inductive Effect : Instr → (State → State) → Prop
  | inner {i : Instr} {f : State → State} (h : InnerEffect f) : Effect i f
  | setbits {sel : Word} {k : Nat} (h : cellOf params sel = some (.ext k)) (value width shift : Word) :
      Effect (.setbits sel value width shift) (setbitsOn value width shift (.ext k))
  | rdcell {sel : Word} {k : Nat} (h : cellOf params sel = some (.ext k)) : Effect (.rdcell sel) (rdcellOn (.ext k))
  | wrcell {sel : Word} {k : Nat} (h : cellOf params sel = some (.ext k)) (value : Word) :
      Effect (.wrcell sel value) (wrcellOn value (.ext k))
  | commit : Effect .commit (commitRun params)

theorem Effect.bgField {i : Instr} (f : Field) (v : Word) (n : Fin 4) : Effect i (bgField f v n) :=
  .inner (.insert (c := .bgcnt n) nofun v f.width f.shift)

theorem Effect.objSetter {i : Instr} (w : Fin 4) (f : Field) (v : Word) (e : Fin 128) : Effect i (objSetter w f v e) :=
  .inner (.insert (c := .shadow (attrWord e w)) nofun v f.width f.shift)

theorem Effect.setbitsOn {sel : Word} {c : Cell} (h : cellOf params sel = some c) (value width shift : Word) :
    Effect (.setbits sel value width shift) (setbitsOn value width shift c) := by
  obtain hc | ⟨k, rfl⟩ := inBlock_or_ext c
  · exact .inner (.insert hc value width.toNat shift.toNat)
  · exact .setbits h value width shift

theorem Effect.rdcellOn {sel : Word} {c : Cell} (h : cellOf params sel = some c) :
    Effect (.rdcell sel) (rdcellOn c) := by
  obtain hc | ⟨k, rfl⟩ := inBlock_or_ext c
  · exact .inner (.read hc (BitVec.setWidth 32))
  · exact .rdcell h

theorem Effect.wrcellOn {sel : Word} {c : Cell} (h : cellOf params sel = some c) (value : Word) :
    Effect (.wrcell sel value) (wrcellOn value c) := by
  obtain hc | ⟨k, rfl⟩ := inBlock_or_ext c
  · exact .inner (.write hc value)
  · exact .wrcell h value

/-- The checked screen-base setter is a rejection or the insert, by its value alone (R96). -/
theorem Effect.bgsbbRun {i : Instr} (value : Word) (n : Fin 4) : Effect i (bgsbbRun params value n) := by
  unfold Machine.bgsbbRun
  split
  · exact .inner (.answer .rejected 0)
  · exact .bgField _ value n

/-- RBLK is an answer or the abort, by its size alone (R104). -/
theorem Effect.rblkRun {i : Instr} (size x y : Word) : Effect i (rblkRun params size x y) := by
  unfold Machine.rblkRun
  split
  · exact .inner (.answer .ok _)
  · exact .inner .abort

/-- The check of an operand leaves an effect: that on what it selects, or the answer `ILLEGAL` (R63 step 4). -/
theorem begin_effect {α : Type} {i : Instr} {selected : Option α} {run : α → State → State}
    (h : ∀ a, selected = some a → Effect i (run a)) : ∃ f, Effect i f ∧ ∀ s : State, s.begin selected run = s.start f := by
  cases selected with
  | none => exact ⟨_, .inner (.answer .illegal 0), fun _ => rfl⟩
  | some a => exact ⟨run a, h a rfl, fun _ => rfl⟩

/-- Every command is the check of `HALT`, then an effect that depends on the command alone (R63). -/
theorem exec_effect (i : Instr) : ∃ f, Effect i f ∧ ∀ s, exec i s = s.start f := by
  cases i
  case setbits => exact begin_effect fun _ h => .setbitsOn h _ _ _
  case rdcell => exact begin_effect fun _ h => .rdcellOn h
  case wrcell => exact begin_effect fun _ h => .wrcellOn h _
  case dispset value => exact ⟨_, .inner (.write (c := .dispcnt) nofun value), fun _ => rfl⟩
  case bgsbb value => exact begin_effect fun n _ => .bgsbbRun value n
  case bgprio | bgtbank | bgcdepth | bgsize | bgsbbu => exact begin_effect fun n _ => .bgField _ _ n
  case rblk size x y => exact ⟨_, .rblkRun size x y, fun _ => rfl⟩
  case roff => exact ⟨_, .inner (.answer .ok _), fun _ => rfl⟩
  case encse => exact ⟨_, .inner (.answer .ok _), fun _ => rfl⟩
  case taddr x y =>
    exact begin_effect fun n _ => .inner (.read (c := .bgcnt n) nofun fun g => mapAddress params (mapIndexOf params g x y))
  case mapwr x y entry => exact begin_effect fun n _ => .inner (.mapwr x y entry n)
  case objpos x y => exact begin_effect fun e _ => .inner (.objpos x y e)
  case affset value => exact begin_effect fun i _ => .inner (.write (c := .shadow i) nofun value)
  case commit => exact ⟨_, .commit, fun _ => rfl⟩
  case objmode | objgfx | objmosaic | objcdepth | objshape | objsize | objaffidx | objhflip | objvflip | objtile | objprio |
      objpal => exact begin_effect fun e _ => .objSetter _ _ _ e

/-- Everything a command can do: an effect of its own, the answer `ABORTED` of a halted block being one. -/
theorem effect_of_exec {i : Instr} {s t : State} (h : exec i s = .next t) : ∃ f, Effect i f ∧ t = f s := by
  obtain ⟨f, hf, hexec⟩ := exec_effect i
  rw [hexec] at h
  obtain ⟨-, rfl⟩ | ⟨-, rfl⟩ := State.start_eq_next h
  · exact ⟨_, .inner (.answer .aborted 0), rfl⟩
  · exact ⟨f, hf, rfl⟩

/-! ### What an inner effect leaves alone -/

namespace InnerEffect

variable {f : State → State}

theorem env (h : InnerEffect f) (s : State) : (f s).env = s.env := by
  cases h with
  | answer | abort => rfl
  | read => exact State.afterRead_env _
  | write hc v => exact cellWrite_env_inBlock hc s v
  | insert hc v width shift => exact insertField_env_inBlock hc s v width shift
  | objpos => rfl
  | mapwr => simp only [mapwrRun, State.cellRead, State.mapWrite_eq, State.respond_env, State.afterRead_env]

theorem draws (h : InnerEffect f) (s : State) : (f s).draws = s.draws := by
  cases h with
  | answer | abort => rfl
  | read hc => exact afterRead_draws_inBlock hc s
  | write hc v => exact cellWrite_draws_inBlock hc s v
  | insert hc v width shift => exact insertField_draws_inBlock hc s v width shift
  | objpos => rfl
  | mapwr =>
    simp only [mapwrRun, State.cellRead, State.mapWrite_eq, State.respond_draws]
    rfl

theorem resetDraw (h : InnerEffect f) (s : State) : (f s).resetDraw = s.resetDraw := by
  cases h with
  | answer | abort => rfl
  | read => exact State.afterRead_resetDraw _
  | write hc v => exact State.cellWrite_resetDraw _ v
  | insert hc v width shift => exact State.insertField_resetDraw _ v width shift
  | objpos => rfl
  | mapwr => simp only [mapwrRun, State.cellRead, State.mapWrite_eq, State.respond_resetDraw, State.afterRead_resetDraw]

end InnerEffect

/-! ### Parts of the state no command sees -/

/-- A relation of states that no operation of the block tells apart: related states hold the same `HALT` and the same cells,
and every operation takes them to related states. -/
structure Unseen (Q : State → State → Prop) : Prop where
  halt : ∀ {s t}, Q s t → t.halt = s.halt
  cellValue : ∀ {s t}, Q s t → ∀ c, t.cellValue c = s.cellValue c
  record : ∀ {s t}, Q s t → ∀ e, Q (s.record e) (t.record e)
  setHalt : ∀ {s t}, Q s t → Q s.setHalt t.setHalt
  afterRead : ∀ {s t}, Q s t → ∀ c, Q (s.afterRead c) (t.afterRead c)
  cellWrite : ∀ {s t}, Q s t → ∀ c v, Q (s.cellWrite c v) (t.cellWrite c v)
  mapWrite : ∀ {s t}, Q s t → ∀ i v, Q (s.mapWrite params i v) (t.mapWrite params i v)
  copyShadow : ∀ {s t}, Q s t → Q (s.copyShadow params) (t.copyShadow params)

namespace Unseen

variable {Q : State → State → Prop} {s t : State}

theorem respond (hQ : Unseen Q) (h : Q s t) (status : Status) (result : Wide) :
    Q (s.respond status result) (t.respond status result) := hQ.record h _

theorem insertField (hQ : Unseen Q) (h : Q s t) (c : Cell) (v : Word) (width shift : Nat) :
    Q (s.insertField c v width shift) (t.insertField c v width shift) := by
  rw [State.insertField_eq, State.insertField_eq, hQ.cellValue h]
  exact hQ.cellWrite (hQ.afterRead h c) c _

theorem innerEffect (hQ : Unseen Q) {f : State → State} (hf : InnerEffect f) (h : Q s t) : Q (f s) (f t) := by
  cases hf with
  | answer status result => exact hQ.respond h status result
  | abort => exact hQ.respond (hQ.setHalt h) .aborted 0
  | read hc result =>
    simp only [hQ.cellValue h]
    exact hQ.respond (hQ.afterRead h _) .ok _
  | write hc v => exact hQ.respond (hQ.cellWrite h _ v) .ok 0
  | insert hc v width shift => exact hQ.respond (hQ.insertField h _ v width shift) .ok 0
  | objpos x y e => exact hQ.respond (hQ.insertField (hQ.insertField h _ _ _ _) _ _ _ _) .ok 0
  | mapwr x y entry n =>
    simp only [mapwrRun, State.cellRead, hQ.cellValue h]
    exact hQ.respond (hQ.mapWrite (hQ.afterRead h _) _ entry) .ok 0

theorem effect (hQ : Unseen Q) {i : Instr} {f : State → State} (hf : Effect i f) (h : Q s t) : Q (f s) (f t) := by
  cases hf with
  | inner hf => exact hQ.innerEffect hf h
  | setbits _ value width shift => exact hQ.respond (hQ.insertField h _ _ _ _) .ok 0
  | rdcell =>
    simp only [rdcellOn, State.cellRead, hQ.cellValue h]
    exact hQ.respond (hQ.afterRead h _) .ok _
  | wrcell _ value => exact hQ.respond (hQ.cellWrite h _ value) .ok 0
  | commit => exact hQ.respond (hQ.copyShadow h) .ok 0

/-- A command does the same from related states. -/
theorem exec (hQ : Unseen Q) {i : Instr} {s s' t : State} (h : Q s s') (hx : exec i s = .next t) :
    ∃ t', Machine.exec i s' = .next t' ∧ Q t t' := by
  obtain ⟨f, hf, hexec⟩ := exec_effect i
  rw [hexec] at hx ⊢
  obtain ⟨hh, rfl⟩ | ⟨hh, rfl⟩ := State.start_eq_next hx
  · exact ⟨_, State.start_halted (by rw [hQ.halt h, hh]) f, hQ.respond h .aborted 0⟩
  · exact ⟨_, State.start_running (by rw [hQ.halt h, hh]) f, hQ.effect hf h⟩

end Unseen

/-- The two states differ in the environment at most. -/
def SameButEnv (s t : State) : Prop := ∃ e, t = { s with env := e }

/-- The two states differ in the memory at most, which is `MAP` and `OAM`. -/
def SameButMem (s t : State) : Prop := ∃ m, t = { s with mem := m }

/-- The environment is unseen: an external cell's value is a free draw, and a write hands its value over (R23, R157). -/
theorem unseen_sameButEnv : Unseen SameButEnv where
  halt := by rintro s _ ⟨e, rfl⟩; rfl
  cellValue := by rintro s _ ⟨e, rfl⟩ c; cases c <;> rfl
  record := by rintro s _ ⟨e, rfl⟩ x; exact ⟨e, rfl⟩
  setHalt := by rintro s _ ⟨e, rfl⟩; exact ⟨e, rfl⟩
  afterRead := by rintro s _ ⟨e, rfl⟩ c; exact ⟨e, by cases c <;> rfl⟩
  cellWrite := by rintro s _ ⟨e, rfl⟩ c v; cases c <;> exact ⟨_, rfl⟩
  mapWrite := by rintro s _ ⟨e, rfl⟩ i v; exact ⟨e, by simp only [State.mapWrite_eq]⟩
  copyShadow := by rintro s _ ⟨e, rfl⟩; exact ⟨e.duringCommit s.draws, by simp only [State.copyShadow_eq]⟩

/-- The memory is unseen: the tile-map write and the bulk copy only write it (R18, R19). -/
theorem unseen_sameButMem : Unseen SameButMem where
  halt := by rintro s _ ⟨m, rfl⟩; rfl
  cellValue := by rintro s _ ⟨m, rfl⟩ c; cases c <;> rfl
  record := by rintro s _ ⟨m, rfl⟩ x; exact ⟨m, rfl⟩
  setHalt := by rintro s _ ⟨m, rfl⟩; exact ⟨m, rfl⟩
  afterRead := by rintro s _ ⟨m, rfl⟩ c; exact ⟨m, by cases c <;> rfl⟩
  cellWrite := by rintro s _ ⟨m, rfl⟩ c v; exact ⟨m, by cases c <;> rfl⟩
  mapWrite := by rintro s _ ⟨m, rfl⟩ i v; exact ⟨_, by rw [State.mapWrite_eq, State.mapWrite_eq]⟩
  copyShadow := by rintro s _ ⟨m, rfl⟩; exact ⟨_, by rw [State.copyShadow_eq, State.copyShadow_eq]⟩

/-- Settles O20: no operation of the block tells two memories apart. -/
theorem commandsDoNotReadMapOrOam : Obligations.CommandsDoNotReadMapOrOam := by
  intro i s t m h
  obtain ⟨_, ht, m', rfl⟩ := unseen_sameButMem.exec ⟨m, rfl⟩ h
  exact ⟨m', ht⟩

/-! ### What a command does to the environment -/

/-- The command writes the cell that `sel` names: a SETBITS or a WRCELL of it. -/
def WritesSelected (i : Instr) (sel : Word) : Prop :=
  (∃ value width shift, i = .setbits sel value width shift) ∨ ∃ value, i = .wrcell sel value

theorem not_writesExternalCell_commit : ¬ Claims.writesExternalCell .commit := by
  rintro ⟨sel, k, -, ⟨_, _, _, h⟩ | ⟨_, h⟩⟩ <;> cases h

/-- Everything a command can do to the environment: nothing, a write to the external cell its selector names, or what befalls
`oam_safe` during a COMMIT. -/
theorem exec_env_cases {i : Instr} {s t : State} (h : exec i s = .next t) :
    t.env = s.env ∨
    (∃ sel k v keep, cellOf params sel = some (.ext k) ∧ WritesSelected i sel ∧ t.env = s.env.extWrite k v keep) ∨
    (i = .commit ∧ t.env = s.env.duringCommit s.draws) := by
  obtain ⟨f, hf, rfl⟩ := effect_of_exec h
  cases hf with
  | inner hf => exact .inl (hf.env s)
  | setbits hsel value width shift => exact .inr (.inl ⟨_, _, _, _, hsel, .inl ⟨_, _, _, rfl⟩, rfl⟩)
  | rdcell => exact .inl rfl
  | wrcell hsel value => exact .inr (.inl ⟨_, _, _, _, hsel, .inr ⟨_, rfl⟩, rfl⟩)
  | commit => exact .inr (.inr ⟨rfl, by rw [commitRun, State.respond_env, State.copyShadow_eq]⟩)

/-- A write to an external cell reaches four registers and the flow (R158, R167). -/
theorem Environment.extWrite_frame (e : Environment) (k : Nat) (v keep : Word) :
    e.extWrite k v keep =
      { e with
        displayStatus := (e.extWrite k v keep).displayStatus
        enabled := (e.extWrite k v keep).enabled
        asserted := (e.extWrite k v keep).asserted
        masterEnable := (e.extWrite k v keep).masterEnable
        flow := (e.extWrite k v keep).flow } := by
  rw [extWrite_eq]

/-- `EXT[1]` and `EXT[3]` are the cells of the two enable registers' selectors (R41, R158). -/
theorem writesAnEnable_of_ext {i : Instr} {sel : Word} {k : Nat} (hsel : cellOf params sel = some (.ext k))
    (hk : k = 1 ∨ k = 3) (hw : WritesSelected i sel) : Claims.writesAnEnable i := by
  obtain ⟨-, hval⟩ := cellOf_ext_iff.mp hsel
  refine ⟨sel, ?_, hw⟩
  obtain rfl | rfl := hk
  · simp [BitVec.eq_of_toNat_eq (y := 0x0211#16) hval]
  · simp [BitVec.eq_of_toNat_eq (y := 0x0213#16) hval]

/-- A command changes the flow only where it writes an enable register before `init()`, and then it hangs (R167). -/
theorem exec_flow {i : Instr} {s t : State} (h : exec i s = .next t) :
    t.env.flow = s.env.flow ∨ s.env.phase = .uninitialized ∧ t.env.flow = .hung ∧ Claims.writesAnEnable i := by
  obtain henv | ⟨sel, k, v, keep, hsel, hw, henv⟩ | ⟨-, henv⟩ := exec_env_cases h
  · exact .inl (by rw [henv])
  · rw [henv]
    exact (s.env.extWrite_flow k v keep).imp_right fun ⟨hhung, hphase, hk⟩ =>
      ⟨hphase, hhung, writesAnEnable_of_ext hsel hk hw⟩
  · exact .inl (by rw [henv, Environment.duringCommit_eq])

/-- WRCELL of an external cell hands its value to the environment (R23). -/
theorem exec_wrcell_ext {sel value : Word} {k : Nat} {s t : State} (hs : s.halt = false)
    (hsel : cellOf params sel = some (.ext k)) (h : exec (.wrcell sel value) s = .next t) :
    t.env = s.env.extWrite k value (Config.envKeep k s.draws) := by
  rw [exec_wrcell, hsel, State.begin_some hs] at h
  obtain rfl := Host.Outcome.next.inj h
  rfl

/-- Settles O19: no operation of the block tells two environments apart, and the environment changes by an external write or
during a COMMIT only. -/
theorem commandsDoNotSeeTheEnvironment : Obligations.CommandsDoNotSeeTheEnvironment := by
  intro i s t e h
  refine ⟨?same, fun hwrite hcommit => ?other, ?commit, fun hwrite => ?write, exec_flow h, ?wrcell⟩
  case same =>
    obtain ⟨_, ht, e', rfl⟩ := unseen_sameButEnv.exec ⟨e, rfl⟩ h
    exact ⟨e', ht⟩
  case other =>
    obtain henv | ⟨sel, k, _, _, hsel, hw, -⟩ | ⟨hi, -⟩ := exec_env_cases h
    · exact henv
    · exact absurd ⟨sel, k, hsel, hw⟩ hwrite
    · exact absurd hi hcommit
  case commit =>
    rintro rfl
    obtain henv | ⟨sel, k, _, _, hsel, hw, -⟩ | ⟨-, henv⟩ := exec_env_cases h
    · rw [henv]
    · exact absurd ⟨sel, k, hsel, hw⟩ not_writesExternalCell_commit
    · rw [henv, Environment.duringCommit_eq]
  case write =>
    obtain henv | ⟨_, k, v, keep, -, -, henv⟩ | ⟨rfl, -⟩ := exec_env_cases h
    · rw [henv]
    · rw [henv]
      exact s.env.extWrite_frame k v keep
    · exact absurd hwrite not_writesExternalCell_commit
  case wrcell =>
    rintro sel value k rfl hsel hs
    exact ⟨_, exec_wrcell_ext hs hsel h⟩

/-! ### The draws -/

/-- Settles O22: an inner effect uses no draw, each access to an external cell one, a COMMIT one. -/
theorem freeValuesAreUsedOnlyWhereTheSpecHasThem : Obligations.FreeValuesAreUsedOnlyWhereTheSpecHasThem := by
  intro i s t h
  obtain ⟨f, hf, rfl⟩ := effect_of_exec h
  cases hf with
  | inner hf => exact ⟨fun _ _ => hf.draws s, fun _ => .inl (hf.draws s), fun _ => .inl (hf.draws s), hf.resetDraw s⟩
  | setbits hsel value width shift =>
    exact ⟨fun hacc => absurd (.inl ⟨_, _, hsel, .inl ⟨_, _, _, rfl⟩⟩) hacc, fun hm => absurd rfl hm,
      fun _ => .inr rfl, rfl⟩
  | rdcell hsel =>
    exact ⟨fun hacc => absurd (.inr ⟨_, _, hsel, rfl⟩) hacc, fun _ => .inr rfl,
      fun hm => absurd hm (by simp [Instr.mnemonic]), rfl⟩
  | wrcell hsel value =>
    exact ⟨fun hacc => absurd (.inl ⟨_, _, hsel, .inr ⟨_, rfl⟩⟩) hacc, fun _ => .inr rfl,
      fun hm => absurd hm (by simp [Instr.mnemonic]), rfl⟩
  | commit =>
    have hdraws : (commitRun params s).draws = s.draws + 1 := by
      rw [commitRun, State.respond_draws, State.copyShadow_eq]
    have hreset : (commitRun params s).resetDraw = s.resetDraw := by
      rw [commitRun, State.respond_resetDraw, State.copyShadow_eq]
    exact ⟨fun _ hc => absurd rfl hc, fun _ => .inr hdraws, fun hm => absurd hm (by simp [Instr.mnemonic]), hreset⟩

/-! ### AFFSET (R134) -/

/-- RDCELL of a shadow word answers the word (R82). -/
theorem exec_rdcell_shadow {sel : Word} {i : Fin 512} {s : State} (hs : s.halt = false) (hsel : sel.toNat = i.val) :
    exec (.rdcell sel) s = .next ((s.afterRead (.shadow i)).respond .ok (s.shadow[i].setWidth 32)) := by
  rw [exec_rdcell, cellOf_shadow params i hsel, State.begin_some hs]
  rfl

/-- Settles O46: AFFSET writes the word its operands select, which RDCELL then reads. -/
theorem affsetWritesTheAliasedFiller : Obligations.AffsetWritesTheAliasedFiller := by
  intro n k value s hs
  refine ⟨fun i hn hk hi => ?_, fun hout => ?_⟩
  · have hrun : exec (.affset n k value) s = .next (affsetRun value i s) := by
      rw [exec_affset, coeffOf_eq i hn hk hi, State.begin_some hs]
    refine ⟨hrun, fun t sel ht hsel => ?_⟩
    obtain rfl := Host.Outcome.next.inj (hrun.symm.trans ht)
    have hword : (affsetRun value i s).shadow[i] = value := Vector.getElem_set_self _
    refine ⟨_, exec_rdcell_shadow (s := affsetRun value i s) hs hsel, ?_⟩
    rw [hword]
    rfl
  · rw [exec_affset, coeffOf_eq_none.mpr hout, State.begin_none hs]
    rfl

end Sys2Proof.Machine
end

section
/-! PROOFS. The memory and what reaches it (R40, R45, R49, R53, R60, R65, R82, R136, R164 to R168, R180): the space each
command writes, the read of a cell, the next input, and what the hardware does by itself. -/

namespace Sys2Proof.Machine

open Sys2Proof

/-! ### The writers of each space (R40) -/

/-- What R40 has writers for: the spaces, `MAP` and `OAM` as the bytes they hold, and the memory that is both. -/
inductive Space where
  | dispcnt
  | bgcnt
  | shadow
  | map
  | oam
  | memory
  deriving DecidableEq

/-- The space holds in `t` what it holds in `s`. -/
def Space.Kept (s t : State) : Space → Prop
  | .dispcnt => t.dispcnt = s.dispcnt
  | .bgcnt => t.bgcnt = s.bgcnt
  | .shadow => t.shadow = s.shadow
  | .map => ∀ a, inMapBytes a → t.byteAt a = s.byteAt a
  | .oam => ∀ a, inOamBytes a → t.byteAt a = s.byteAt a
  | .memory => t.mem = s.mem

theorem Space.Kept.trans {X : Space} {s t u : State} (h : X.Kept s t) (h' : X.Kept t u) : X.Kept s u := by
  cases X with
  | map | oam => exact fun a ha => (h' a ha).trans (h a ha)
  | dispcnt | bgcnt | shadow | memory => exact Eq.trans h' h

/-- The space that holds a cell; an external cell is in none (R41, R45). -/
def cellSpaces : Cell → List Space
  | .shadow _ => [.shadow]
  | .dispcnt => [.dispcnt]
  | .bgcnt _ => [.bgcnt]
  | .ext _ => []

/-- The spaces a command may write: the table of R40, read by command. -/
def instrSpaces : Instr → List Space
  | .setbits .. | .wrcell .. => [.dispcnt, .bgcnt, .shadow]
  | .dispset .. => [.dispcnt]
  | .bgprio .. | .bgtbank .. | .bgcdepth .. | .bgsize .. | .bgsbb .. | .bgsbbu .. => [.bgcnt]
  | .objpos .. | .objmode .. | .objgfx .. | .objmosaic .. | .objcdepth .. | .objshape .. | .objsize .. | .objaffidx ..
  | .objhflip .. | .objvflip .. | .objtile .. | .objprio .. | .objpal .. | .affset .. => [.shadow]
  | .mapwr .. => [.map, .memory]
  | .commit => [.oam, .memory]
  | .rdcell .. | .rblk .. | .roff .. | .encse .. | .taddr .. => []

/-- Every space but the listed ones is kept from `s` to `t`. -/
def KeepsAllBut (L : List Space) (s t : State) : Prop := ∀ X ∉ L, X.Kept s t

namespace KeepsAllBut

variable {L L' : List Space} {s t u : State}

theorem mono (h : KeepsAllBut L s t) (hL : L ⊆ L') : KeepsAllBut L' s t := fun X hX => h X fun hm => hX (hL hm)

theorem trans (h : KeepsAllBut L s t) (h' : KeepsAllBut L t u) : KeepsAllBut L s u :=
  fun X hX => (h X hX).trans (h' X hX)

/-- A change that leaves the memory and the reset's draw leaves the bytes of both memories (R25). -/
theorem of_mem (hd : .dispcnt ∉ L → t.dispcnt = s.dispcnt) (hb : .bgcnt ∉ L → t.bgcnt = s.bgcnt)
    (hs : .shadow ∉ L → t.shadow = s.shadow) (hm : t.mem = s.mem) (hr : t.resetDraw = s.resetDraw) :
    KeepsAllBut L s t := by
  have hbyte (a : Nat) : t.byteAt a = s.byteAt a := by rw [State.byteAt, State.byteAt, hm, hr]
  intro X hX
  cases X with
  | dispcnt => exact hd hX
  | bgcnt => exact hb hX
  | shadow => exact hs hX
  | map | oam => exact fun a _ => hbyte a
  | memory => exact hm

/-- The answer to a command is in no space. -/
theorem respond (h : KeepsAllBut L s t) (status : Status) (result : Wide) : KeepsAllBut L s (t.respond status result) :=
  h.trans (.of_mem (fun _ => rfl) (fun _ => rfl) (fun _ => rfl) rfl rfl)

theorem refl (s : State) : KeepsAllBut L s s :=
  .of_mem (fun _ => rfl) (fun _ => rfl) (fun _ => rfl) rfl rfl

/-- A read writes no space (R80). -/
theorem afterRead (s : State) (c : Cell) : KeepsAllBut L s (s.afterRead c) :=
  .of_mem (fun _ => State.afterRead_dispcnt c) (fun _ => State.afterRead_bgcnt c) (fun _ => State.afterRead_shadow c)
    (State.afterRead_mem c) (State.afterRead_resetDraw c)

/-- A write of a cell reaches the cell's own space (R80). -/
theorem cellWrite (s : State) (c : Cell) (v : Word) : KeepsAllBut (cellSpaces c) s (s.cellWrite c v) := by
  cases c with
  | shadow i => exact .of_mem (fun _ => rfl) (fun _ => rfl) (fun h => absurd (List.mem_singleton_self _) h) rfl rfl
  | dispcnt => exact .of_mem (fun h => absurd (List.mem_singleton_self _) h) (fun _ => rfl) (fun _ => rfl) rfl rfl
  | bgcnt n => exact .of_mem (fun _ => rfl) (fun h => absurd (List.mem_singleton_self _) h) (fun _ => rfl) rfl rfl
  | ext k => exact .of_mem (fun _ => rfl) (fun _ => rfl) (fun _ => rfl) rfl rfl

theorem insertField (s : State) (c : Cell) (v : Word) (width shift : Nat) :
    KeepsAllBut (cellSpaces c) s (s.insertField c v width shift) :=
  (afterRead s c).trans (cellWrite _ c _)

/-- The tile-map write reaches bytes of `MAP` alone, since it stores inside the map only (R109; log entry 12). -/
theorem mapWrite (s : State) (i : Nat) (v : Word) : KeepsAllBut [.map, .memory] s (s.mapWrite params i v) := by
  rw [State.mapWrite_eq]
  intro X hX
  cases X with
  | dispcnt | bgcnt | shadow => rfl
  | map | memory => exact absurd hX (by decide)
  | oam =>
    intro a ha
    simp only [inOamBytes, params] at ha
    simp only [State.byteAt]
    split
    · next hi =>
      have haddr : (mapAddress params i).toNat = 0x03000000 + i := mapAddress_toNat hi
      rw [Memory.readByte_writeWord, if_neg (by omega), if_neg (by omega)]
    · rfl

/-- The bulk copy reaches bytes of `OAM` alone (R135). -/
theorem copyShadow (s : State) : KeepsAllBut [.oam, .memory] s (s.copyShadow params) := by
  rw [State.copyShadow_eq]
  intro X hX
  cases X with
  | dispcnt | bgcnt | shadow => rfl
  | oam | memory => exact absurd hX (by decide)
  | map =>
    intro a ha
    simp only [State.byteAt]
    rw [readByte_copyInOrder_outside fun i _ => ?_]
    simp only [inMapBytes, params] at ha ⊢
    omega

/-- The checks before a command write no space (R63, R151, R153). -/
theorem of_start {run : State → State} (h : s.start run = .next t) (hrun : KeepsAllBut L s (run s)) :
    KeepsAllBut L s t := by
  obtain ⟨-, rfl⟩ | ⟨-, rfl⟩ := State.start_eq_next h
  · exact (refl s).respond .aborted 0
  · exact hrun

theorem of_begin {α : Type} {selected : Option α} {run : α → State → State} (h : s.begin selected run = .next t)
    (hrun : ∀ a, KeepsAllBut L s (run a s)) : KeepsAllBut L s t := by
  obtain ⟨-, rfl⟩ | ⟨-, -, rfl⟩ | ⟨a, -, -, rfl⟩ := State.begin_eq_next h
  · exact (refl s).respond .aborted 0
  · exact (refl s).respond .illegal 0
  · exact hrun a

/-- BGSBB writes the control register or rejects its value with no access (R96, R152). -/
theorem bgsbbRun (s : State) (value : Word) (n : Fin 4) : KeepsAllBut [.bgcnt] s (bgsbbRun params value n s) := by
  unfold Machine.bgsbbRun
  split
  · exact (refl s).respond .rejected 0
  · exact (insertField s (.bgcnt n) _ _ _).respond .ok 0

/-- RBLK writes nothing, whether it answers or aborts (R104, R151). -/
theorem rblkRun (s : State) (size x y : Word) : KeepsAllBut [] s (rblkRun params size x y s) := by
  unfold Machine.rblkRun
  split
  · exact (refl s).respond .ok _
  · exact .of_mem (fun _ => rfl) (fun _ => rfl) (fun _ => rfl) rfl rfl

end KeepsAllBut

/-- No cell is in `MAP` or `OAM` (R41). -/
theorem cellSpaces_subset (c : Cell) : cellSpaces c ⊆ [.dispcnt, .bgcnt, .shadow] := by
  cases c <;> simp [cellSpaces]

/-- Every command keeps the spaces it is no writer of (R40). -/
theorem exec_keepsAllBut {i : Instr} {s t : State} (h : exec i s = .next t) : KeepsAllBut (instrSpaces i) s t := by
  cases i
  case setbits =>
    exact .of_begin h fun c => ((KeepsAllBut.insertField s c _ _ _).mono (cellSpaces_subset c)).respond .ok 0
  case wrcell => exact .of_begin h fun c => ((KeepsAllBut.cellWrite s c _).mono (cellSpaces_subset c)).respond .ok 0
  case rdcell => exact .of_begin h fun c => (KeepsAllBut.afterRead s c).respond .ok _
  case dispset => exact .of_start h ((KeepsAllBut.cellWrite s .dispcnt _).respond .ok 0)
  case bgsbb => exact .of_begin h fun n => .bgsbbRun s _ n
  case bgprio | bgtbank | bgcdepth | bgsize | bgsbbu =>
    exact .of_begin h fun n => (KeepsAllBut.insertField s (.bgcnt n) _ _ _).respond .ok 0
  case rblk => exact .of_start h (.rblkRun s _ _ _)
  case roff | encse => exact .of_start h ((KeepsAllBut.refl s).respond .ok _)
  case taddr => exact .of_begin h fun n => (KeepsAllBut.afterRead s (.bgcnt n)).respond .ok _
  case mapwr =>
    exact .of_begin h fun n => ((KeepsAllBut.afterRead s (.bgcnt n)).trans (.mapWrite _ _ _)).respond .ok 0
  case objpos =>
    exact .of_begin h fun e => ((KeepsAllBut.insertField s (.shadow (attrWord e 0)) _ _ _).trans
      (.insertField _ (.shadow (attrWord e 1)) _ _ _)).respond .ok 0
  case affset => exact .of_begin h fun i => (KeepsAllBut.cellWrite s (.shadow i) _).respond .ok 0
  case commit => exact .of_start h ((KeepsAllBut.copyShadow s).respond .ok 0)
  case objmode | objgfx | objmosaic | objcdepth | objshape | objsize | objaffidx | objhflip | objvflip | objtile | objprio |
      objpal => exact .of_begin h fun e => (KeepsAllBut.insertField s (.shadow (attrWord e _)) _ _ _).respond .ok 0

/-- The writers of each space, by their mnemonics (R40). -/
def Space.writers : Space → List String
  | .dispcnt => ["DISPSET", "SETBITS", "WRCELL"]
  | .bgcnt => ["BGPRIO", "BGTBANK", "BGCDEPTH", "BGSIZE", "BGSBB", "BGSBBU", "SETBITS", "WRCELL"]
  | .shadow => ["OBJPOS", "OBJMODE", "OBJGFX", "OBJMOSAIC", "OBJCDEPTH", "OBJSHAPE", "OBJSIZE", "OBJAFFIDX",
      "OBJHFLIP", "OBJVFLIP", "OBJTILE", "OBJPRIO", "OBJPAL", "AFFSET", "SETBITS", "WRCELL"]
  | .map => ["MAPWR"]
  | .oam => ["COMMIT"]
  | .memory => ["MAPWR", "COMMIT"]

/-- R40's table read by command and by space agrees: a command that may write a space is one of its writers. -/
theorem mnemonic_mem_writers {i : Instr} {X : Space} (h : X ∈ instrSpaces i) : i.mnemonic ∈ X.writers := by
  revert X
  cases i <;> simp [instrSpaces, Space.writers, Instr.mnemonic]

/-- A space is kept by every command that is none of its writers (R40). -/
theorem kept_of_not_mem_writers {i : Instr} {s t : State} (h : exec i s = .next t) (X : Space)
    (hX : i.mnemonic ∉ X.writers) : X.Kept s t :=
  exec_keepsAllBut h X fun hm => hX (mnemonic_mem_writers hm)

/-- Settles O21: each command keeps the spaces it is no writer of, in R40's table read by space. -/
theorem eachSpaceHasItsWriters : Obligations.EachSpaceHasItsWriters := by
  intro i s t h
  have kept := kept_of_not_mem_writers h
  exact ⟨kept .dispcnt, kept .bgcnt, kept .shadow, fun hm => kept .map fun hw => hm (List.mem_singleton.mp hw),
    fun hm => kept .oam fun hw => hm (List.mem_singleton.mp hw), kept .memory⟩

/-! ### The read of a cell (R82) -/

/-- RDCELL of a cell is one read, the value read being the result (R82). -/
theorem exec_rdcell_cell {sel : Word} {c : Cell} {s : State} (hs : s.halt = false) (hsel : cellOf params sel = some c) :
    exec (.rdcell sel) s = .next ((s.afterRead c).respond .ok ((s.cellValue c).setWidth 32)) := by
  rw [exec_rdcell, hsel, State.begin_some hs]
  rfl

/-- Settles O28: the read of the cell that the selector names, kind by kind. -/
theorem rdcellAnswersTheCell : Obligations.RdcellAnswersTheCell := by
  refine ⟨fun sel => rfl, fun sel s hs => ⟨fun i hi => ?shadow, fun hd => ?dispcnt, fun n hn => ?bgcnt,
    fun k hk hsel => ?ext, fun hout => ?none⟩⟩
  case shadow => exact exec_rdcell_shadow hs hi
  case dispcnt => exact exec_rdcell_cell hs (cellOf_dispcnt params hd)
  case bgcnt => exact exec_rdcell_cell hs (cellOf_bgcnt params n hn)
  case ext => exact exec_rdcell_cell hs (cellOf_ext hk hsel)
  case none =>
    rw [exec_rdcell, cellOf_eq_none.mpr hout, State.begin_none hs]
    rfl

/-! ### The next input (R49, R165 to R168) -/

namespace State

variable {s : State} {x y : Input}

/-- An input that can come has a source that can act. -/
theorem lets_of_admits (h : s.admits x = true) : s.env.lets x.source = true := by
  simp only [State.admits, Bool.and_eq_true] at h
  exact h.1

/-- An input is passed over exactly where its source can act and it cannot come. -/
theorem excludes_iff : s.excludes x = true ↔ s.env.lets x.source = true ∧ s.admits x = false := by
  simp [State.excludes]

/-- Only a command of the dispatch routine is passed over (log entry 30). -/
theorem handlerCommand_of_excludes (h : s.excludes x = true) :
    ∃ w n, x = .handlerCommand w ∨ x = .handlerCommandCut w n := by
  cases x with
  | handlerCommand w => exact ⟨w, 0, .inl rfl⟩
  | handlerCommandCut w n => exact ⟨w, n, .inr rfl⟩
  | command | commandCut | reset | env => simp [State.excludes, State.admits] at h

/-- Among the inputs of one source that can act, one that cannot come is passed over. -/
theorem excludes_of_same_source (hx : s.admits x = true) (hs : y.source = x.source) (hy : s.admits y = false) :
    s.excludes y = true :=
  excludes_iff.mpr ⟨hs ▸ lets_of_admits hx, hy⟩

/-- An input passed over is a command of a routine that runs. -/
theorem routine_of_excludes (h : s.excludes x = true) : s.env.routine ≠ none := by
  have hlets := (excludes_iff.mp h).1
  obtain ⟨w, n, rfl | rfl⟩ := handlerCommand_of_excludes h
  · exact Environment.lets_routine.mp hlets
  · exact Environment.lets_routine.mp hlets

/-- An input of the main flow or of the hardware comes exactly where its source can act. -/
theorem admits_eq_lets (h : x.source ≠ .routine) : s.admits x = s.env.lets x.source := by
  cases x with
  | handlerCommand | handlerCommandCut => exact absurd rfl h
  | command | commandCut | reset | env => exact Bool.and_true _

theorem admits_mainFlow (h : x.source = .mainFlow) : s.admits x = true ↔ s.env.flow = .running ∧ s.env.routine = none := by
  rw [admits_eq_lets (by simp [h]), h, Environment.lets_mainFlow]

theorem admits_hardware (h : x.source = .hardware) : s.admits x = true := by
  rw [admits_eq_lets (by simp [h]), h]
  rfl

/-- The end of the dispatch routine comes exactly where the routine runs (R165). -/
theorem admits_dispatchReturn : s.admits (.env .dispatchReturn) = true ↔ s.env.routine ≠ none := by
  simp [State.admits, Input.source, EnvAction.source, Environment.lets_routine]

/-- A command comes from the dispatch routine only while it handles a vblank interrupt, and then always where it preempts a
running main flow (R165, R168). -/
theorem admits_handlerCommand_bounds (w : CommandWord) :
    (s.admits (.handlerCommand w) = true → ∃ fired, s.env.routine = some fired ∧ inMask fired .vblank = true) ∧
    (∀ fired, s.env.routine = some fired → inMask fired .vblank = true → s.env.flow = .running →
      s.admits (.handlerCommand w) = true) := by
  obtain ⟨t, ht⟩ := runWord_next w s
  rw [admits_handlerCommand, routinePresents_iff ht, Environment.handlesVblank_iff]
  exact ⟨And.left, fun fired hr hv hf => ⟨⟨fired, hr, hv⟩, .inl hf⟩⟩

end State

/-- Settles O9: the search for the first input that can come, and when each source's inputs can. -/
theorem inputsComeWhenTheirSourceCanAct : Obligations.InputsComeWhenTheirSourceCanAct := by
  intro s
  refine ⟨fun x rest => firstAdmitted_eq_some, fun hnone => step_idle (firstAdmitted_eq_none.mpr hnone),
    fun x y => State.excludes_of_same_source, fun y hy => ?excluded, fun w n handler k x hx => ?mainFlow,
    fun k safe x hx => ?hardware, State.admits_dispatchReturn, fun w n => ?routine⟩
  case excluded =>
    exact ⟨(State.excludes_iff.mp hy).2, State.routine_of_excludes hy, State.handlerCommand_of_excludes hy⟩
  case mainFlow =>
    refine State.admits_mainFlow ?_
    revert x
    simp [Input.source, EnvAction.source]
  case hardware =>
    refine State.admits_hardware ?_
    revert x
    simp [Input.source, EnvAction.source]
  case routine =>
    have bounds := s.admits_handlerCommand_bounds w
    simp only [List.forall_mem_cons]
    exact ⟨bounds, bounds, nofun⟩

/-! ### The step of a word presented, and of an action of the environment (R49, R60, R65) -/

/-- A step runs the word presented, by the main flow or by the dispatch routine (R49, R165). -/
theorem step_presented {s : State} {w : CommandWord} {rest : List Input} (h : Claims.presented s w rest) :
    step s = runWord w (s.setInputs rest) := by
  obtain h | h := h
  · exact step_input h
  · exact step_input h

/-- Settles O6: the word presented is run, and runs what it decodes to. -/
theorem stepRunsTheDecodedCommand : Obligations.StepRunsTheDecodedCommand := by
  intro s w rest i h hd
  rw [step_presented h, runWord_ok hd]
  rfl

/-- A step that takes an action of the environment changes the environment alone (R24, R166). -/
theorem step_env {s : State} {a : EnvAction} {rest : List Input} (h : s.nextInput = some (.env a, rest)) :
    step s = .next { s with inputs := rest, env := s.env.act a } :=
  step_input h

/-! ### What the hardware does by itself (R136, R164) -/

namespace Environment

variable (e : Environment)

/-- The display-status bit for vblank is bit 3 (R161, G7; log entry 10). -/
theorem vblankRaised_eq : e.vblankRaised = e.displayStatus.getLsbD 3 := by
  have hbit : vblankStatusBit = BitVec.twoPow 16 3 := rfl
  rw [vblankRaised, hbit, BitVec.and_twoPow]
  cases e.displayStatus.getLsbD 3 <;> rfl

/-- The kinds asserted once the hardware asserts `k`: those before, and `k` unless it is a vblank not raised (R164 (b)). -/
theorem inMask_assertIrq (k k' : IrqKind) :
    inMask (e.assertIrq k).asserted k' =
      (inMask e.asserted k' || (k' == k && (k != .vblank || e.displayStatus.getLsbD 3))) := by
  rw [assertIrq_eq, ← vblankRaised_eq]
  show inMask (if _ then _ else _) k' = _
  split
  · next h => simp [h.1, h.2]
  · next h =>
    have hraised : (k != .vblank || e.vblankRaised) = true := by
      simpa [or_iff_not_imp_left] using h
    rw [inMask_or, inMask_bit, hraised, Bool.and_true]

end Environment

/-- Settles O59: an assertion changes the asserted register only, a scanout `oam_safe` only. -/
theorem hardwareAssertsAndScansOut : Obligations.HardwareAssertsAndScansOut := by
  intro s rest
  refine ⟨fun k h => ⟨(s.env.assertIrq k).asserted, ?_, s.env.inMask_assertIrq k⟩, fun safe h => step_env h⟩
  have hact : s.env.act (.assertIrq k) = { s.env with asserted := (s.env.assertIrq k).asserted } := by
    rw [Environment.act, Environment.assertIrq_eq]
  rw [step_env h, hact]

end Sys2Proof.Machine
end

section
/-! PROOFS. The encoding and the answer (R49, R60 to R67, R150, R153 to R156, R161, R165 to R167): which words are commands,
the checks before a command runs, the one response that ends it, and what makes the main flow hang. -/

namespace Sys2Proof

/-! ### The words that are commands (R60 to R63, R66) -/

/-- Decoding reads the whole `op` field as an opcode number: 256 or more means that `op[15:8]` is not zero (R63 step 2). -/
theorem decode_eq (w : CommandWord) :
    decode w = if (fieldOp w).toNat < 256 then decodeOpcode w (fieldOp w).toNat else .error .highOpByte := by
  have hop := (fieldOp w).isLt
  have hhigh : (fieldOp w).extractLsb' 8 8 = 0 ↔ (fieldOp w).toNat < 256 := by
    rw [← BitVec.toNat_inj, BitVec.extractLsb'_toNat, Nat.shiftRight_eq_div_pow]
    change _ / 256 % 256 = 0 ↔ _
    omega
  unfold decode
  by_cases h : (fieldOp w).toNat < 256
  · have hlow : ((fieldOp w).extractLsb' 0 8).toNat = (fieldOp w).toNat := by simpa using h
    rw [if_neg (not_not.mpr (hhigh.mpr h)), if_pos h, hlow]
  · rw [if_pos (mt hhigh.mp h), if_neg h]

theorem decode_of_op {w : CommandWord} {op : Word} (hop : fieldOp w = op) (h : op.toNat < 256) :
    decode w = decodeOpcode w op.toNat := by
  rw [decode_eq, hop, if_pos h]

theorem decode_pack {op : Word} (h : op.toNat < 256) (p q r s : Word) :
    decode (pack op p q r s) = decodeOpcode (pack op p q r s) op.toNat := decode_of_op (fieldOp_pack op p q r s) h

section FormatsOfPackedWords

variable (op p q r s : Word)

theorem formatF0_pack (i : Instr) : formatF0 (pack op 0 0 0 0) i = .ok i := by
  simp [formatF0_eq_ok, fieldP_pack, fieldQ_pack, fieldR_pack, fieldS_pack]

theorem formatF1_pack (f : Word → Instr) : formatF1 (pack op p 0 0 0) f = .ok (f p) := by
  simp [formatF1_eq_ok, fieldP_pack, fieldQ_pack, fieldR_pack, fieldS_pack]

theorem formatF2_pack (f : Word → Word → Instr) : formatF2 (pack op p q 0 0) f = .ok (f p q) := by
  simp [formatF2_eq_ok, fieldP_pack, fieldQ_pack, fieldR_pack, fieldS_pack]

theorem formatF3_pack (f : Word → Word → Word → Instr) : formatF3 (pack op p q r 0) f = .ok (f p q r) := by
  simp [formatF3_eq_ok, fieldP_pack, fieldQ_pack, fieldR_pack, fieldS_pack]

theorem formatF4_pack (f : Word → Word → Word → Word → Instr) : formatF4 (pack op p q r s) f = .ok (f p q r s) := by
  simp [formatF4_eq_ok, fieldP_pack, fieldQ_pack, fieldR_pack, fieldS_pack]

end FormatsOfPackedWords

/-- The word of a command decodes to it, format by format. -/
theorem decode_encode (i : Instr) : decode (encode i) = .ok i := by
  cases i
  case commit => exact (decode_pack (by decide) ..).trans (formatF0_pack ..)
  case rdcell | dispset => exact (decode_pack (by decide) ..).trans (formatF1_pack ..)
  case rblk | taddr | objpos | affset => exact (decode_pack (by decide) ..).trans (formatF3_pack ..)
  case setbits | encse | mapwr => exact (decode_pack (by decide) ..).trans (formatF4_pack ..)
  all_goals exact (decode_pack (by decide) ..).trans (formatF2_pack ..)

theorem decode_of_encode {w : CommandWord} {i : Instr} (h : encode i = w) : decode w = .ok i := h ▸ decode_encode i

/-- Settles O3: each of the thirty words is the encoding of its command. -/
theorem commandWordsFollowTheOpcodeMap : Obligations.CommandWordsFollowTheOpcodeMap := by
  intro p q r s
  and_intros
  all_goals exact decode_of_encode rfl

/-- The result is that of reading `w` by the format of that many operands (R61). -/
inductive ReadByFormat (w : CommandWord) : Nat → Except DecodeError Instr → Prop
  | f0 (i : Instr) : ReadByFormat w 0 (formatF0 w i)
  | f1 (f : Word → Instr) : ReadByFormat w 1 (formatF1 w f)
  | f2 (f : Word → Word → Instr) : ReadByFormat w 2 (formatF2 w f)
  | f3 (f : Word → Word → Word → Instr) : ReadByFormat w 3 (formatF3 w f)
  | f4 (f : Word → Word → Word → Word → Instr) : ReadByFormat w 4 (formatF4 w f)

/-- A run of bits is zero exactly where the word's number is, shifted and reduced to it. -/
theorem extractLsb'_eq_zero (w : CommandWord) (start len : Nat) :
    w.extractLsb' start len = 0 ↔ w.toNat / 2 ^ start % 2 ^ len = 0 := by
  rw [← BitVec.toNat_inj, BitVec.extractLsb'_toNat, Nat.shiftRight_eq_div_pow]
  simp

/-- A format gives a command exactly where the bits after its operands are zero (R63 step 3). -/
theorem ReadByFormat.ok_iff {w : CommandWord} {n : Nat} {d : Except DecodeError Instr} (h : ReadByFormat w n d) :
    (∃ i, d = .ok i) ↔ w.extractLsb' 0 (16 * (4 - n)) = 0 := by
  cases h with
  | f0 | f1 | f2 =>
    simp only [formatF0_eq_ok, formatF1_eq_ok, formatF2_eq_ok, exists_and_left, exists_eq', and_true,
      fieldP, fieldQ, fieldR, fieldS, extractLsb'_eq_zero]
    omega
  | f3 f => simp only [formatF3_eq_ok, exists_and_left, exists_eq', and_true, fieldS]
  | f4 f => exact iff_of_true ⟨_, rfl⟩ (BitVec.of_length_zero)

/-- The opcode map's numbers are bytes (R62). -/
theorem op_lt_of_mem {row : Word × Nat} : row ∈ Claims.opcodeMap → row.1.toNat < 256 := by
  revert row
  decide

/-- Each row of the opcode map is read by its format (R62). -/
theorem decodeOpcode_readByFormat {row : Word × Nat} (w : CommandWord) :
    row ∈ Claims.opcodeMap → ReadByFormat w row.2 (decodeOpcode w row.1.toNat) := by
  revert row
  simp only [Claims.opcodeMap, List.cons_append, List.nil_append, List.forall_mem_cons, List.not_mem_nil,
    false_implies, implies_true, and_true]
  and_intros
  all_goals constructor

/-- An opcode that decodes is a row of the opcode map (R63 step 2). -/
theorem row_of_decodeOpcode {w : CommandWord} {n : Nat} {i : Instr} (h : decodeOpcode w n = .ok i) :
    ∃ row ∈ Claims.opcodeMap, row.1.toNat = n := by
  unfold decodeOpcode at h
  split at h
  case h_31 => cases h
  all_goals decide

/-- The words that pass the checks of R63 steps 2 and 3 are those that decode. -/
theorem legalWord_iff {w : CommandWord} : Claims.legalWord w ↔ ∃ i, decode w = .ok i := by
  constructor
  · rintro ⟨row, hrow, hop, hlow⟩
    rw [decode_of_op hop (op_lt_of_mem hrow)]
    exact (decodeOpcode_readByFormat w hrow).ok_iff.mpr hlow
  · rintro ⟨i, h⟩
    rw [decode_eq] at h
    split at h
    · obtain ⟨row, hrow, hop⟩ := row_of_decodeOpcode h
      rw [← hop] at h
      exact ⟨row, hrow, (BitVec.eq_of_toNat_eq hop).symm, (decodeOpcode_readByFormat w hrow).ok_iff.mp ⟨i, h⟩⟩
    · cases h

end Sys2Proof

namespace Sys2Proof.Machine

open Sys2Proof

variable {s t u : State}

/-! ### The answer of a command (R64, R65, R150) -/

/-- From `s` to `t` accesses were made and recorded, and nothing else was recorded (R44). -/
def OnlyAccesses (s t : State) : Prop :=
  ∃ accesses, t.trace = accesses ++ s.trace ∧ ∀ e ∈ accesses, Claims.isAccess e = true

namespace OnlyAccesses

theorem refl (s : State) : OnlyAccesses s s := ⟨[], rfl, nofun⟩

theorem trans (h : OnlyAccesses s t) (h' : OnlyAccesses t u) : OnlyAccesses s u := by
  obtain ⟨l, hl, hacc⟩ := h
  obtain ⟨l', hl', hacc'⟩ := h'
  refine ⟨l' ++ l, by rw [hl', hl, List.append_assoc], fun e he => ?_⟩
  exact (List.mem_append.mp he).elim (hacc' e) (hacc e)

/-- One more event, which is an access. -/
theorem of_cons {e : Event} (ht : t.trace = e :: s.trace) (he : Claims.isAccess e = true) : OnlyAccesses s t :=
  ⟨[e], ht, fun _ h => List.mem_singleton.mp h ▸ he⟩

theorem afterRead (s : State) (c : Cell) : OnlyAccesses s (s.afterRead c) := .of_cons (State.afterRead_trace c) rfl

theorem cellWrite (s : State) (c : Cell) (v : Word) : OnlyAccesses s (s.cellWrite c v) :=
  .of_cons (State.cellWrite_trace c v) rfl

theorem insertField (s : State) (c : Cell) (v : Word) (width shift : Nat) :
    OnlyAccesses s (s.insertField c v width shift) := (afterRead s c).trans (cellWrite _ c _)

theorem mapWrite (s : State) (i : Nat) (v : Word) : OnlyAccesses s (s.mapWrite params i v) :=
  .of_cons (by rw [State.mapWrite_eq]) rfl

theorem copyShadow (s : State) : OnlyAccesses s (s.copyShadow params) := by
  refine ⟨_, by rw [State.copyShadow_eq], fun e he => ?_⟩
  obtain ⟨i, -, rfl⟩ := List.mem_map.mp (List.mem_reverse.mp he)
  rfl

end OnlyAccesses

/-- From `s` to `t` a command answered with the status: accesses, then one response, whose result is 0 after no access where
the status is not `OK` (R64, R65, R155). -/
def Answers (s t : State) (status : Status) : Prop :=
  ∃ accesses result, t.trace = .respond status result :: (accesses ++ s.trace) ∧
    (∀ e ∈ accesses, Claims.isAccess e = true) ∧ (status ≠ .ok → result = 0 ∧ accesses = [])

namespace Answers

theorem ok (h : OnlyAccesses s t) (result : Wide) : Answers s (t.respond .ok result) .ok := by
  obtain ⟨accesses, ht, hacc⟩ := h
  exact ⟨accesses, result, by rw [State.respond_trace, ht], hacc, fun h => absurd rfl h⟩

/-- An answer with no access and the result 0, whatever its status. -/
theorem of_trace {status : Status} (h : t.trace = .respond status 0 :: s.trace) : Answers s t status :=
  ⟨[], 0, h, nofun, fun _ => ⟨rfl, rfl⟩⟩

theorem lastResponse {status : Status} (h : Answers s t status) : ∃ result, t.lastResponse = some (status, result) := by
  obtain ⟨accesses, result, ht, -⟩ := h
  exact ⟨result, by rw [State.lastResponse, ht]⟩

end Answers

/-- The command, its checks passed, answers, and not `ILLEGAL` (R63 step 5). -/
def RunsToAnswer (s t : State) : Prop := ∃ status, status ≠ .illegal ∧ Answers s t status

namespace RunsToAnswer

theorem ok (h : OnlyAccesses s t) (result : Wide) : RunsToAnswer s (t.respond .ok result) :=
  ⟨.ok, nofun, .ok h result⟩

/-- BGSBB inserts its field or rejects its value (R96, R152). -/
theorem bgsbbRun (s : State) (value : Word) (n : Fin 4) : RunsToAnswer s (bgsbbRun params value n s) := by
  unfold Machine.bgsbbRun
  split
  · exact ⟨.rejected, nofun, .of_trace rfl⟩
  · exact ok (.insertField s (.bgcnt n) _ _ _) 0

/-- RBLK answers the block index or aborts (R104, R151). -/
theorem rblkRun (s : State) (size x y : Word) : RunsToAnswer s (rblkRun params size x y s) := by
  unfold Machine.rblkRun
  split
  · exact ok (.refl s) _
  · exact ⟨.aborted, nofun, .of_trace rfl⟩

end RunsToAnswer

theorem start_runsToAnswer {run : State → State} (hs : s.halt = false) (hrun : RunsToAnswer s (run s)) :
    ∃ t, s.start run = .next t ∧ RunsToAnswer s t := ⟨_, State.start_running hs run, hrun⟩

/-- A selecting operand in its range selects something, on which the command runs (R63 step 4). -/
theorem begin_runsToAnswer {α : Type} {selected : Option α} {run : α → State → State} (hs : s.halt = false)
    (hsel : selected.isSome = true) (hrun : ∀ a, RunsToAnswer s (run a s)) :
    ∃ t, s.begin selected run = .next t ∧ RunsToAnswer s t := by
  obtain ⟨a, rfl⟩ := Option.isSome_iff_exists.mp hsel
  exact ⟨_, State.begin_some hs a run, hrun a⟩

/-- Every command that passes the checks runs to its answer (R63, R65). -/
theorem exec_runsToAnswer (i : Instr) (hs : s.halt = false) (hw : i.wellFormed params = true) :
    ∃ t, exec i s = .next t ∧ RunsToAnswer s t := by
  cases i
  case setbits => exact begin_runsToAnswer hs ((cellOf_isSome _ _).trans hw) fun c => .ok (.insertField s c _ _ _) 0
  case rdcell => exact begin_runsToAnswer hs ((cellOf_isSome _ _).trans hw) fun c => .ok (.afterRead s c) _
  case wrcell => exact begin_runsToAnswer hs ((cellOf_isSome _ _).trans hw) fun c => .ok (.cellWrite s c _) 0
  case dispset => exact start_runsToAnswer hs (.ok (.cellWrite s .dispcnt _) 0)
  case bgsbb => exact begin_runsToAnswer hs ((bgOf_isSome _).trans hw) fun n => .bgsbbRun s _ n
  case bgprio | bgtbank | bgcdepth | bgsize | bgsbbu =>
    exact begin_runsToAnswer hs ((bgOf_isSome _).trans hw) fun n => .ok (.insertField s (.bgcnt n) _ _ _) 0
  case rblk => exact start_runsToAnswer hs (.rblkRun s _ _ _)
  case roff | encse => exact start_runsToAnswer hs (.ok (.refl s) _)
  case taddr => exact begin_runsToAnswer hs ((bgOf_isSome _).trans hw) fun n => .ok (.afterRead s (.bgcnt n)) _
  case mapwr =>
    exact begin_runsToAnswer hs ((bgOf_isSome _).trans hw) fun n =>
      .ok ((OnlyAccesses.afterRead s (.bgcnt n)).trans (.mapWrite _ _ _)) 0
  case objpos =>
    exact begin_runsToAnswer hs ((objOf_isSome _).trans hw) fun e =>
      .ok ((OnlyAccesses.insertField s (.shadow (attrWord e 0)) _ _ _).trans
        (.insertField _ (.shadow (attrWord e 1)) _ _ _)) 0
  case affset => exact begin_runsToAnswer hs ((coeffOf_isSome _ _).trans hw) fun i => .ok (.cellWrite s (.shadow i) _) 0
  case commit => exact start_runsToAnswer hs (.ok (.copyShadow s) 0)
  case objmode | objgfx | objmosaic | objcdepth | objshape | objsize | objaffidx | objhflip | objvflip | objtile | objprio |
      objpal =>
    exact begin_runsToAnswer hs ((objOf_isSome _).trans hw) fun e => .ok (.insertField s (.shadow (attrWord e _)) _ _ _) 0

/-- Every command answers: `ABORTED` when halted, `ILLEGAL` when its selector is out of range, and else as it runs (R63). -/
theorem exec_answers (i : Instr) (s : State) : ∃ t status, exec i s = .next t ∧ Answers s t status := by
  cases hs : s.halt with
  | true => exact ⟨_, _, exec_halted i hs, .of_trace rfl⟩
  | false =>
    cases hw : i.wellFormed params with
    | true =>
      obtain ⟨t, ht, status, -, hanswer⟩ := exec_runsToAnswer i hs hw
      exact ⟨t, status, ht, hanswer⟩
    | false => exact ⟨_, _, exec_illFormed i hs hw, .of_trace rfl⟩

/-- Settles O17: every command answers, halted, ill formed or run. -/
theorem everyCommandAnswersOnce : Obligations.EveryCommandAnswersOnce := by
  intro i s
  obtain ⟨t, status, ht, accesses, result, htrace, hacc, hnot⟩ := exec_answers i s
  exact ⟨t, accesses, status, result, ht, htrace, hacc, hnot⟩

/-! ### The checks before a command runs (R63) -/

/-- Settles O14: an operand out of its range selects nothing, and the command ends there. -/
theorem selectorOutOfRangeIsIllegal : Obligations.SelectorOutOfRangeIsIllegal := fun i _ => exec_illFormed i

theorem runWord_halted (w : CommandWord) (hs : s.halt = true) : runWord w s = .next (s.respond .aborted 0) := by
  obtain ⟨i, -, h⟩ | ⟨_, -, h⟩ := runWord_cases w s
  · rw [h, exec_halted i hs]
  · rw [h, State.rejectWord_halted hs]

/-- A word that is no command ends `ILLEGAL` where the block is not halted (R63 steps 2 and 3, R66). -/
theorem runWord_of_not_legal {w : CommandWord} (hs : s.halt = false) (hw : ¬ Claims.legalWord w) :
    runWord w s = .next (s.respond .illegal 0) := by
  obtain ⟨i, hd, -⟩ | ⟨_, -, h⟩ := runWord_cases w s
  · exact absurd (legalWord_iff.mpr ⟨i, hd⟩) hw
  · rw [h, State.rejectWord_running hs]

/-- Settles O5: the legal words are those that decode, and the others are rejected. -/
theorem reservedWordsEndIllegal : Obligations.ReservedWordsEndIllegal := by
  refine ⟨fun s w rest h hs hw => ?_, fun w => legalWord_iff.mp, fun h => ?zero⟩
  · rw [step_presented h]
    exact runWord_of_not_legal (s := s.setInputs rest) hs hw
  case zero =>
    obtain ⟨i, hd⟩ := legalWord_iff.mp h
    have hzero : decode 0#80 = .error .unknownOpcode := by decide
    exact nomatch hzero.symm.trans hd

/-- Settles O7: the word presented is run, and each check ends it before the next one. -/
theorem checksBeforeACommandRuns : Obligations.ChecksBeforeACommandRuns := by
  intro s w rest h
  rw [step_presented h]
  refine ⟨runWord_halted (s := s.setInputs rest) w, runWord_of_not_legal (s := s.setInputs rest), fun i hs hw hi => ?_,
    fun i hs hw hi => ?_⟩
  · rw [runWord_ok (decode_of_encode hw)]
    exact exec_illFormed i (s := s.setInputs rest) hs hi
  · obtain ⟨t, ht, status, hstatus, hanswer⟩ := exec_runsToAnswer i (s := s.setInputs rest) hs hi
    obtain ⟨result, hlast⟩ := hanswer.lastResponse
    rw [runWord_ok (decode_of_encode hw)]
    exact ⟨rfl, t, status, result, ht, hlast, hstatus⟩

/-! ### What makes the main flow hang (R156, R161, R166, R167) -/

namespace Environment

variable {e : Environment}

theorem vblankEnabled_eq_false :
    e.vblankEnabled = false ↔ inMask e.enabled .vblank = false ∨ e.vblankRaised = false ∨ e.masterOn = false := by
  simp only [vblankEnabled, Bool.and_eq_false_iff, or_assoc]

theorem dispatchReturn_flow : e.dispatchReturn.flow = e.flow ∨ e.dispatchReturn.flow = .running := by
  cases hr : e.routine with
  | none => exact .inl (by rw [dispatchReturn_none e hr])
  | some fired =>
    rw [dispatchReturn_some e hr]
    exact (ite_eq_or_eq _ _ _).symm

/-- The actions that make the main flow hang: enabling or waiting before `init()`, and waiting with vblank not enabled (R166,
R167). -/
theorem act_hung {a : EnvAction} (h : (e.act a).flow = .hung) :
    e.flow = .hung ∨
    (e.phase = .uninitialized ∧ ((∃ k, a = .enableType k) ∨ a = .enableGlobally ∨ a = .waitVblank)) ∨
    (e.phase = .initialized ∧ a = .waitVblank ∧ e.vblankEnabled = false) := by
  cases a with
  | init handler => exact .inl (by rwa [act, init_eq] at h)
  | assertIrq k => exact .inl (by rwa [act, assertIrq_eq] at h)
  | dispatch => exact .inl (by rwa [act, dispatch_eq] at h)
  | scanout safe => exact .inl h
  | dispatchReturn =>
    obtain hflow | hflow := e.dispatchReturn_flow
    · exact .inl (hflow.symm.trans h)
    · exact nomatch hflow.symm.trans h
  | enableType k =>
    cases hp : e.phase with
    | uninitialized => exact .inr (.inl ⟨rfl, .inl ⟨k, rfl⟩⟩)
    | initialized => exact .inl (by simpa only [act, enableType, hp] using h)
  | enableGlobally =>
    cases hp : e.phase with
    | uninitialized => exact .inr (.inl ⟨rfl, .inr (.inl rfl)⟩)
    | initialized => exact .inl (by simpa only [act, enableGlobally, hp] using h)
  | waitVblank =>
    cases hp : e.phase with
    | uninitialized => exact .inr (.inl ⟨rfl, .inr (.inr rfl)⟩)
    | initialized =>
      obtain ⟨hearly | hoff, -⟩ | ⟨-, -, hwait⟩ := e.wait_cases
      · exact nomatch hp.symm.trans hearly
      · exact .inr (.inr ⟨rfl, rfl, hoff⟩)
      · rw [act, hwait] at h
        cases h

end Environment

/-- The selectors of the two enable registers name their external cells (R41, R158). -/
theorem cellOf_enable {sel : Word} (h : sel ∈ [0x0211#16, 0x0213#16]) : ∃ k, cellOf params sel = some (.ext k) := by
  simp only [List.mem_cons, List.not_mem_nil, or_false] at h
  obtain rfl | rfl := h
  · exact ⟨1, rfl⟩
  · exact ⟨3, rfl⟩

/-- A write of an enable register answers `OK`, unless the block is halted and the write does not happen (R156, R161; log
entry 26). -/
theorem exec_writesAnEnable {i : Instr} (hi : Claims.writesAnEnable i) (h : exec i s = .next t) :
    t.env = s.env ∨ t.lastResponse = some (.ok, 0) := by
  have hstart : ∃ run, exec i s = s.start run ∧ (run s).lastResponse = some (.ok, 0) := by
    obtain ⟨sel, hsel, hi⟩ := hi
    obtain ⟨k, hk⟩ := cellOf_enable hsel
    obtain ⟨value, width, shift, rfl⟩ | ⟨value, rfl⟩ := hi
    · exact ⟨setbitsOn value width shift (.ext k), by rw [exec_setbits, hk, State.begin_some_eq], rfl⟩
    · exact ⟨wrcellOn value (.ext k), by rw [exec_wrcell, hk, State.begin_some_eq], rfl⟩
  obtain ⟨run, hrun, hok⟩ := hstart
  rw [hrun] at h
  obtain ⟨-, rfl⟩ | ⟨-, rfl⟩ := State.start_eq_next h
  · exact .inl rfl
  · exact .inr hok

/-- A word presented makes the main flow hang only where it enables before `init()`, and then it answers `OK` (R156,
R167). -/
theorem step_presented_hung {w : CommandWord} {rest : List Input} (hw : Claims.presented s w rest) :
    ∃ t, step s = .next t ∧ (t.env.flow = .hung → s.env.flow = .hung ∨ s.env.phase = .uninitialized ∧
      ∃ i, decode w = .ok i ∧ Claims.writesAnEnable i ∧ t.lastResponse = some (.ok, 0)) := by
  rw [step_presented hw]
  obtain ⟨t, ht⟩ := runWord_next w (s.setInputs rest)
  refine ⟨t, ht, fun hflow => ?_⟩
  obtain ⟨i, hd, hrun⟩ | ⟨_, -, hrun⟩ := runWord_cases w (s.setInputs rest)
  · rw [hrun] at ht
    obtain hkept | ⟨hphase, -, hwrites⟩ := exec_flow ht
    · exact .inl (hkept.symm.trans hflow)
    · obtain henv | hok := exec_writesAnEnable hwrites ht
      · exact .inl (henv ▸ hflow)
      · exact .inr ⟨hphase, i, hd, hwrites, hok⟩
  · rw [hrun, State.rejectWord_eq] at ht
    obtain ⟨-, rfl⟩ | ⟨-, rfl⟩ := State.start_eq_next ht
    · exact .inl hflow
    · exact .inl hflow

/-- A command cut short leaves the reset state, whose main flow runs (R180). -/
theorem runWordCut_running (w : CommandWord) (n : Nat) (s : State) :
    ∃ t, runWordCut w n s = .next t ∧ t.env.flow = .running := by
  obtain ⟨t, ht⟩ := runWord_next w s
  exact ⟨_, runWordCut_eq ht, rfl⟩

/-- Settles O18: each kind of input gives a next state, and the main flow hangs after an early
enabling, a wait, or a word that enables early only. -/
theorem nothingStopsAndOnlyEarlyEnablingOrWaitingHangs :
    Obligations.NothingStopsAndOnlyEarlyEnablingOrWaitingHangs := by
  intro s
  obtain hx | ⟨⟨x, rest⟩, hx⟩ := Option.eq_none_or_eq_some s.nextInput
  · exact ⟨s, step_idle hx, .inl⟩
  by_cases hpresented : ∃ w, Claims.presented s w rest
  · obtain ⟨w, hw⟩ := hpresented
    obtain ⟨t, ht, hhung⟩ := step_presented_hung hw
    exact ⟨t, ht, fun hflow => (hhung hflow).imp_right fun ⟨hphase, i, hi⟩ =>
      .inl ⟨hphase, rest, .inr (.inr (.inr ⟨w, i, hw, hi⟩))⟩⟩
  cases x with
  | command w => exact absurd ⟨w, .inl hx⟩ hpresented
  | handlerCommand w => exact absurd ⟨w, .inr hx⟩ hpresented
  | commandCut w n | handlerCommandCut w n =>
    obtain ⟨t, ht, hrunning⟩ := runWordCut_running w n (s.setInputs rest)
    exact ⟨t, (step_input hx).trans ht, fun hflow => nomatch hrunning.symm.trans hflow⟩
  | reset => exact ⟨_, step_input hx, nofun⟩
  | env a =>
    refine ⟨_, step_env hx, fun hflow => ?_⟩
    obtain hhung | ⟨hphase, hearly⟩ | ⟨hphase, rfl, hoff⟩ := Environment.act_hung hflow
    · exact .inl hhung
    · refine .inr (.inl ⟨hphase, rest, ?_⟩)
      obtain ⟨k, rfl⟩ | rfl | rfl := hearly
      · exact .inl ⟨k, hx⟩
      · exact .inr (.inl hx)
      · exact .inr (.inr (.inl hx))
    · exact .inr (.inr ⟨hphase, ⟨rest, hx⟩, Environment.vblankEnabled_eq_false.mp hoff⟩)

end Sys2Proof.Machine
end

section
/-! PROOFS. The BitField unit (R41, R81, R83 to R86): the field insert bit by bit, and the commands SETBITS and WRCELL on every
kind of cell. -/

namespace Sys2Proof.Machine

open Sys2Proof

/-! ### The field insert (R84, R85) -/

section FieldInsert

variable (old value : Word) (width shift : Nat)

/-- The field insert on exact numbers: the old bits under the complement of the mask, and the masked value in place. -/
theorem toNat_bf : (bf old value width shift).toNat =
    ((old.toNat &&& (0xFFFF - ((2 ^ min width 16 - 1) <<< shift) % 2 ^ 16)) |||
      ((value.toNat % 2 ^ min width 16) <<< shift) % 2 ^ 16) := by
  rw [bf, BitVec.toNat_or, BitVec.toNat_and, BitVec.toNat_not, fieldMask, fieldValue, BitVec.toNat_ofNat,
    BitVec.toNat_ofNat]

variable {width shift}

/-- Inserting into a range that holds no bit of the word changes nothing. -/
theorem bf_of_range_empty (h : ∀ i < 16, ¬ (shift ≤ i ∧ i < shift + min width 16)) :
    bf old value width shift = old := by
  refine BitVec.eq_of_getLsbD_eq fun i hi => ?_
  rw [getLsbD_bf _ _ _ _ _ hi, if_neg (h i hi)]

/-- Inserting all sixteen bits overwrites the word. -/
theorem bf_whole_word : bf old value 16 0 = value := by
  refine BitVec.eq_of_getLsbD_eq fun i hi => ?_
  rw [getLsbD_bf _ _ _ _ _ hi, if_pos (by omega), Nat.sub_zero]

variable (width shift)

/-- A second insert into a range replaces the first. -/
theorem bf_bf_same_range (b : Word) : bf (bf old value width shift) b width shift = bf old b width shift := by
  refine BitVec.eq_of_getLsbD_eq fun i hi => ?_
  by_cases hin : shift ≤ i ∧ i < shift + min width 16
  · simp only [getLsbD_bf _ _ _ _ _ hi, if_pos hin]
  · simp only [getLsbD_bf _ _ _ _ _ hi, if_neg hin]

variable {width shift}

/-- Inserts into disjoint ranges commute: no bit lies in both. -/
theorem bf_comm_of_disjoint (b : Word) {width' shift' : Nat}
    (h : shift + width ≤ shift' ∨ shift' + width' ≤ shift) :
    bf (bf old value width shift) b width' shift' = bf (bf old b width' shift') value width shift := by
  refine BitVec.eq_of_getLsbD_eq fun i hi => ?_
  by_cases hin : shift ≤ i ∧ i < shift + min width 16
  · have hout : ¬ (shift' ≤ i ∧ i < shift' + min width' 16) := by omega
    simp only [getLsbD_bf _ _ _ _ _ hi, if_pos hin, if_neg hout]
  · simp only [getLsbD_bf _ _ _ _ _ hi, if_neg hin]

end FieldInsert

/-- Settles O25: the formula on numbers, and the rest by the bits of the field insert. -/
theorem fieldInsertComputesTheFormula : Obligations.FieldInsertComputesTheFormula := fun old value width shift =>
  ⟨toNat_bf old value width shift, fun _ => getLsbD_bf old value width shift _,
    bf_of_range_empty old value fun i _ => by omega, fun _ => bf_of_range_empty old value fun i _ => by omega,
    bf_whole_word old value, bf_bf_same_range old value width shift, fun b _ _ => bf_comm_of_disjoint old value b⟩

/-- Settles O26: within the precondition the insert is of the field itself, its width not cut to 16 bits. -/
theorem fieldInsertPreservesOtherBits : Obligations.FieldInsertPreservesOtherBits := by
  intro old value width shift hfit
  have hins : FieldInserted ⟨shift, width⟩ old value (bf old value width shift) :=
    fieldInserted_bf (show width ≤ 16 by omega) old value
  refine ⟨getField_of_inserted hfit hins, fun i hi hout => ?_⟩
  rw [hins i hi, if_neg (show ¬ (shift ≤ i ∧ i < shift + width) by omega)]

/-! ### The commands that write a cell (R81, R83) -/

section CellCommands

variable {sel value width shift : Word} {s : State} (hs : s.halt = false)
include hs

/-- SETBITS of a cell is one read, then one write of what `bf` computes from the value read (R81). -/
theorem exec_setbits_cell {c : Cell} (hsel : cellOf params sel = some c) :
    exec (.setbits sel value width shift) s =
      .next (((s.afterRead c).cellWrite c (bf (s.cellValue c) value width.toNat shift.toNat)).respond .ok 0) := by
  rw [exec_setbits, hsel, State.begin_some hs]
  rfl

/-- WRCELL of a cell is one write of the operand (R83). -/
theorem exec_wrcell_cell {c : Cell} (hsel : cellOf params sel = some c) :
    exec (.wrcell sel value) s = .next ((s.cellWrite c value).respond .ok 0) := by
  rw [exec_wrcell, hsel, State.begin_some hs]
  rfl

end CellCommands

/-- Settles O27: the read and the write of the cell that the selector names, kind by kind. -/
theorem setbitsReadsThenWritesTheCell : Obligations.SetbitsReadsThenWritesTheCell := by
  refine ⟨fun _ _ _ _ => rfl, fun sel value width shift s hs => ⟨fun i hi => ?shadow, fun hd => ?dispcnt,
    fun n hn => ?bgcnt, fun k hk hsel => ?ext, fun hout => ?none⟩⟩
  case shadow => exact exec_setbits_cell hs (cellOf_shadow params i hi)
  case dispcnt => exact exec_setbits_cell hs (cellOf_dispcnt params hd)
  case bgcnt => exact exec_setbits_cell hs (cellOf_bgcnt params n hn)
  case ext => exact ⟨_, exec_setbits_cell hs (cellOf_ext hk hsel)⟩
  case none =>
    obtain ⟨-, -, houtside⟩ := selectorsNameTheirCells
    obtain ⟨hillegal, -, -⟩ := houtside sel value width shift s hs hout
    exact hillegal

/-- Settles O29: the write of the cell that the selector names, kind by kind. -/
theorem wrcellOverwritesTheCell : Obligations.WrcellOverwritesTheCell := by
  refine ⟨fun _ _ => rfl, fun sel value s hs => ⟨fun i hi => ?shadow, fun hd => ?dispcnt, fun n hn => ?bgcnt,
    fun k hk hsel => ?ext, fun hout => ?none⟩⟩
  case shadow => exact exec_wrcell_cell hs (cellOf_shadow params i hi)
  case dispcnt => exact exec_wrcell_cell hs (cellOf_dispcnt params hd)
  case bgcnt => exact exec_wrcell_cell hs (cellOf_bgcnt params n hn)
  case ext => exact ⟨_, exec_wrcell_cell hs (cellOf_ext hk hsel)⟩
  case none =>
    obtain ⟨-, -, houtside⟩ := selectorsNameTheirCells
    obtain ⟨-, -, hillegal⟩ := houtside sel value 0 0 s hs hout
    exact hillegal

end Sys2Proof.Machine
end

section
/-! PROOFS. The display registers (R90 to R97): DISPSET, the setters of one field of a background's control register, and the
checked screen-base setter. -/

namespace Sys2Proof.Machine

open Sys2Proof

/-! ### DISPSET (R90) -/

/-- The selector 0x0200 names `DISPCNT`, so DISPSET and WRCELL of it have one effect, under the same check of `HALT`. -/
theorem exec_dispset_eq_exec_wrcell (value : Word) (s : State) :
    exec (.dispset value) s = exec (.wrcell 0x0200 value) s := by
  rw [exec_dispset, exec_wrcell, cellOf_dispcnt params rfl, State.begin_some_eq]
  rfl

/-- Settles O31: the write of the whole register that WRCELL of `DISPCNT` makes. -/
theorem dispsetOverwritesTheRegister : Obligations.DispsetOverwritesTheRegister := by
  refine ⟨fun _ => rfl, fun value s => ⟨fun hs => ?_, exec_dispset_eq_exec_wrcell value s⟩⟩
  rw [exec_dispset_eq_exec_wrcell]
  exact exec_wrcell_cell hs (cellOf_dispcnt params rfl)

/-! ### The setters of a background's field (R91 to R95, R97) -/

section BackgroundSetters

variable {bg value : Word} {p : Instr × Field} {s : State}

/-- The fields of a control register fit in the word, in the default layout (R12, log entry 2). -/
theorem bgSetters_width_le (hp : p ∈ bgSetters params.layout bg value) : p.2.width ≤ 16 := by
  revert p
  simp only [bgSetters, List.forall_mem_cons]
  decide

/-- A setter of a background in range inserts its field and keeps every other bit (R91). -/
theorem exec_bgSetter_inserts {n : Fin 4} (hp : p ∈ bgSetters params.layout bg value) (hs : s.halt = false)
    (hn : bg.toNat = n.val) :
    ∃ new, FieldInserted p.2 s.bgcnt[n] value new ∧ exec p.1 s = .next (Claims.bgcntUpdated s n new) := by
  rw [← execWith_params]
  exact execWith_bgSetter_inserts hp hs hn (bgSetters_width_le hp)

/-- A setter of a background out of range answers `ILLEGAL` with no access (R91). -/
theorem exec_bgSetter_illegal (hp : p ∈ bgSetters params.layout bg value) (hs : s.halt = false) (hbg : 4 ≤ bg.toNat) :
    exec p.1 s = .next (Claims.answered s .illegal 0) := by
  rw [← execWith_params, execWith_bgSetter hp, bgOf_eq_none.mpr hbg, State.begin_none hs]
  rfl

end BackgroundSetters

/-- Settles O32: each setter by what `bg` selects. -/
theorem backgroundSettersInsertTheirField : Obligations.BackgroundSettersInsertTheirField := fun _ _ _ hs _ hp =>
  ⟨fun _ hn => exec_bgSetter_inserts hp hs hn, exec_bgSetter_illegal hp hs⟩

/-! ### The checked screen-base setter (R96) -/

section CheckedSetter

variable {bg value : Word} {s : State} (hs : s.halt = false)
include hs

/-- On a value in its range the checked setter is the unchecked one, and inserts the screen-base field. -/
theorem exec_bgsbb_inserts {n : Fin 4} (hn : bg.toNat = n.val) (hv : value.toNat ≤ 31) :
    ∃ new, FieldInserted params.layout.bgcnt.sbb s.bgcnt[n] value new ∧
      exec (.bgsbb bg value) s = .next (Claims.bgcntUpdated s n new) := by
  have hsame : exec (.bgsbb bg value) s = exec (.bgsbbu bg value) s := by
    rw [← execWith_params]
    exact execWith_bgsbb_eq_bgsbbu hs hn hv
  have hp : (.bgsbbu bg value, params.layout.bgcnt.sbb) ∈ bgSetters params.layout bg value := by simp [bgSetters]
  rw [hsame]
  exact exec_bgSetter_inserts hp hs hn

/-- A larger value, for a background in range, is rejected with no access (R96, R152). -/
theorem exec_bgsbb_rejected (hbg : bg.toNat < 4) (hv : 31 < value.toNat) :
    exec (.bgsbb bg value) s = .next (Claims.answered s .rejected 0) := by
  rw [exec_bgsbb, bgOf_eq ⟨bg.toNat, hbg⟩ rfl, State.begin_some hs, bgsbbRun, if_pos hv]
  rfl

/-- A background out of range answers `ILLEGAL`, whatever the value. -/
theorem exec_bgsbb_illegal (hbg : 4 ≤ bg.toNat) :
    exec (.bgsbb bg value) s = .next (Claims.answered s .illegal 0) := by
  rw [exec_bgsbb, bgOf_eq_none.mpr hbg, State.begin_none hs]
  rfl

end CheckedSetter

/-- Settles O33: in range, too large, and no background. -/
theorem checkedScreenBaseSetter : Obligations.CheckedScreenBaseSetter :=
  ⟨fun _ _ => rfl, fun _ _ _ hs =>
    ⟨fun _ => exec_bgsbb_inserts hs, exec_bgsbb_rejected hs, exec_bgsbb_illegal hs⟩⟩

end Sys2Proof.Machine
end

section
/-! PROOFS. The tile-address resolver (R100 to R110): the block and the offset number the tiles of a background row by row,
and what RBLK, ROFF, TADDR and MAPWR answer and store. -/

namespace Sys2Proof.Machine

open Sys2Proof

/-! ### The tiles of a background (R100, R110) -/

section Tiles

/-- The number of block columns of a background (R100). -/
def blockColumns (size : BgSize) : Nat := (extent size).1 / 32

/-- The tile with offset `o` in block `b`, column then row: the inverse of `blk` and `off` on the tiles of the background. -/
def tileAt (size : BgSize) (b o : Nat) : Nat × Nat :=
  (32 * (b % blockColumns size) + o % 32, 32 * (b / blockColumns size) + o / 32)

variable {size : BgSize} {x y b o : Nat}

/-- Inside the background R101's formulas number the blocks row by row. -/
theorem blk_eq_of_valid (hx : x < (extent size).1) (hy : y < (extent size).2) :
    blk size x y = x / 32 + blockColumns size * (y / 32) := by
  cases size with
  | s32x32 => simp only [extent, blk, blockColumns] at *; omega
  | s64x32 => simp only [extent, blk, blockColumns] at *; split <;> omega
  | s32x64 => simp only [extent, blk, blockColumns] at *; split <;> omega
  | s64x64 => rfl

theorem tileAt_valid (hb : b < blocksForSize size) (ho : o < 1024) :
    (tileAt size b o).1 < (extent size).1 ∧ (tileAt size b o).2 < (extent size).2 := by
  cases size <;> simp only [extent, blocksForSize, tileAt, blockColumns] at * <;> omega

theorem blk_tileAt (hb : b < blocksForSize size) (ho : o < 1024) :
    blk size (tileAt size b o).1 (tileAt size b o).2 = b := by
  obtain ⟨hx, hy⟩ := tileAt_valid hb ho
  have hcolumn : (tileAt size b o).1 / 32 = b % blockColumns size := by simp only [tileAt]; omega
  have hrow : (tileAt size b o).2 / 32 = b / blockColumns size := by simp only [tileAt]; omega
  rw [blk_eq_of_valid hx hy, hcolumn, hrow, Nat.mod_add_div]

theorem off_tileAt (ho : o < 1024) : off (tileAt size b o).1 (tileAt size b o).2 = o := by
  simp only [off, tileAt]
  omega

/-- A tile of the background is the one with its offset in its block. -/
theorem tileAt_blk_off (hx : x < (extent size).1) (hy : y < (extent size).2) :
    tileAt size (blk size x y) (off x y) = (x, y) := by
  rw [blk_eq_of_valid hx hy, tileAt, off, Prod.mk.injEq]
  cases size <;> simp only [extent, blockColumns] at * <;> omega

/-- A tile of the background is determined by its block and its offset (R110). -/
theorem eq_tileAt (hx : x < (extent size).1) (hy : y < (extent size).2) (hb : blk size x y = b) (ho : off x y = o) :
    x = (tileAt size b o).1 ∧ y = (tileAt size b o).2 := by
  rw [← hb, ← ho, tileAt_blk_off hx hy]
  exact ⟨rfl, rfl⟩

/-- A map index, counted from the background's first, is 1024 times the block plus the offset (R107). -/
theorem mapidx_eq_iff {sbb k : Nat} :
    mapidx sbb size x y = 1024 * sbb + k ↔ blk size x y = k / 1024 ∧ off x y = k % 1024 := by
  have ho := off_lt x y
  unfold mapidx
  omega

end Tiles

/-- Settles O41: `tileAt` gives the tile of a block and an offset, and `eq_tileAt` says that there is no other. -/
theorem resolverIsABijection : Obligations.ResolverIsABijection := by
  refine fun size => ⟨fun x y hx hy => ⟨blk_lt hx hy, off_lt x y⟩, fun b o hb ho => ?blockAndOffset,
    fun sbb k hk => ?mapIndex⟩
  case blockAndOffset =>
    obtain ⟨hx, hy⟩ := tileAt_valid hb ho
    exact ⟨_, _, hx, hy, blk_tileAt hb ho, off_tileAt ho, fun _ _ => eq_tileAt⟩
  case mapIndex =>
    have hb : k / 1024 < blocksForSize size := Nat.div_lt_of_lt_mul hk
    have ho : k % 1024 < 1024 := Nat.mod_lt _ (by decide)
    obtain ⟨hx, hy⟩ := tileAt_valid hb ho
    refine ⟨_, _, hx, hy, mapidx_eq_iff.mpr ⟨blk_tileAt hb ho, off_tileAt ho⟩, fun x' y' hx' hy' h => ?_⟩
    obtain ⟨hblk, hoff⟩ := mapidx_eq_iff.mp h
    exact eq_tileAt hx' hy' hblk hoff

/-! ### RBLK and ROFF (R104, R105) -/

section PureCommands

variable {size x y : Word} {s : State} (hs : s.halt = false)
include hs

/-- RBLK of a size code answers the word of the block index (R104). -/
theorem exec_rblk_of_code {code : Fin 4} (hc : size.toNat = code.val) {r : Wide}
    (hr : r.toNat = blk params.sizeCode[code] x.toNat y.toNat) :
    exec (.rblk size x y) s = .next (Claims.answered s .ok r) := by
  obtain ⟨r', hr', hexec⟩ := execWith_rblk (P := params) hs hc x y
  rw [← execWith_params, hexec, BitVec.eq_of_toNat_eq (hr.trans hr'.symm)]

/-- RBLK of a size outside the enumeration sets `HALT` and answers `ABORTED` (R104, R151). -/
theorem exec_rblk_aborted (hsize : 3 < size.toNat) :
    exec (.rblk size x y) s = .next (Claims.answered { s with halt := true } .aborted 0) := by
  have hlt : ¬ size.toNat < nSizeCodes := Nat.not_lt.mpr hsize
  rw [exec_rblk, State.start_running hs, rblkRun, if_neg hlt]
  rfl

end PureCommands

/-- A truth value as a response word. -/
theorem toNat_ite_one_zero (p : Prop) [Decidable p] : (if p then 1 else 0 : Wide).toNat = if p then 1 else 0 :=
  apply_ite BitVec.toNat p 1 0

/-- Settles O35: each size code by its block index, and the abort. -/
theorem rblkAnswersTheBlockIndex : Obligations.RblkAnswersTheBlockIndex := by
  refine ⟨fun _ _ _ => rfl, fun size x y s hs => ⟨fun hc => ?s32x32, fun hc => ?s64x32, fun hc => ?s32x64,
    fun hc => ?s64x64, exec_rblk_aborted hs⟩⟩
  case s32x32 => exact exec_rblk_of_code (code := 0) hs hc rfl
  case s64x32 => exact exec_rblk_of_code (code := 1) hs hc (toNat_ite_one_zero _)
  case s32x64 => exact exec_rblk_of_code (code := 2) hs hc (toNat_ite_one_zero _)
  case s64x64 =>
    rw [← execWith_params]
    exact execWith_rblk (P := params) (code := 3) hs hc x y

/-- Settles O36: the offset is below 1024, so its response word is exact. -/
theorem roffAnswersTheOffset : Obligations.RoffAnswersTheOffset := by
  refine ⟨fun _ _ => rfl, fun x y s hs => ⟨BitVec.ofNat 32 (off x.toNat y.toNat), ?_⟩⟩
  have hoff := off_lt x.toNat y.toNat
  have hexact : (BitVec.ofNat 32 (off x.toNat y.toNat)).toNat = off x.toNat y.toNat := by
    rw [BitVec.toNat_ofNat, Nat.mod_eq_of_lt (by omega)]
  exact ⟨hexact, by omega, (exec_roff x y s).trans (State.start_running hs _)⟩

/-! ### TADDR and MAPWR (R107 to R109) -/

/-- The index of the statements is the one the two commands compute: a 2-bit size code names one of the four sizes (R107,
R108). -/
theorem targetIndex_eq_mapIndexOf (g x y : Word) : Claims.targetIndex g x y = mapIndexOf params g x y := by
  have hcode : getField params.layout.bgcnt.size g < 4 := getField_lt _ g
  unfold Claims.targetIndex mapIndexOf
  generalize getField params.layout.bgcnt.size g = code at hcode
  match code, hcode with
  | 0, _ => rfl
  | 1, _ => rfl
  | 2, _ => rfl
  | 3, _ => rfl

/-- The address of a map index of the statements is exact modulo 2^32 (R48). -/
theorem toNat_mapAddress_mapIndexOf (g x y : Word) :
    (mapAddress params (mapIndexOf params g x y)).toNat = (params.tilemapBase + Claims.targetIndex g x y) % 2 ^ 32 := by
  rw [targetIndex_eq_mapIndexOf, toNat_mapAddress]

/-- An operand that names no background fails the check of the selector range (R63). -/
theorem bgInRange_eq_false {bg : Word} (h : 4 ≤ bg.toNat) : bgInRange bg = false := decide_eq_false h.not_gt

/-- Settles O39: the address of the index that the control register gives, for a background in range. -/
theorem taddrAnswersTheTargetAddress : Obligations.TaddrAnswersTheTargetAddress := by
  refine ⟨fun _ _ _ => rfl, fun bg x y s hs => ⟨fun n hn => ?inRange, fun hbg => ?illegal⟩⟩
  case inRange =>
    rw [← execWith_params]
    exact ⟨_, toNat_mapAddress_mapIndexOf .., execWith_taddr hs hn x y⟩
  case illegal => exact selectorOutOfRangeIsIllegal (.taddr bg x y) s hs (bgInRange_eq_false hbg)

/-- Settles O40: inside the tile map the memory is the old one with the word written, outside it is the old one. -/
theorem mapwrWritesTheTargetEntry : Obligations.MapwrWritesTheTargetEntry := by
  refine ⟨fun _ _ _ _ => rfl, fun bg x y entry s hs => ⟨fun n hn => ?inRange, fun hbg => ?illegal⟩⟩
  case inRange =>
    rw [← execWith_params]
    refine ⟨_, _, toNat_mapAddress_mapIndexOf .., execWith_mapwr hs hn x y entry, fun hin => ?inside,
      fun hout a => ?outside⟩
    case inside =>
      rw [targetIndex_eq_mapIndexOf] at hin
      rw [if_pos hin]
      refine ⟨by rw [Memory.readWord_writeWord, if_pos rfl], fun a hlow hhigh => ?_⟩
      rw [Memory.readByte_writeWord, if_neg hlow, if_neg hhigh]
    case outside =>
      rw [targetIndex_eq_mapIndexOf] at hout
      rw [if_neg hout.not_gt]
  case illegal => exact selectorOutOfRangeIsIllegal (.mapwr bg x y entry) s hs (bgInRange_eq_false hbg)

end Sys2Proof.Machine
end

section
/-! PROOFS. The object table (R120 to R134): OBJPOS, the setters of one field of an entry, and the shadow words they
leave alone. -/

namespace Sys2Proof.Machine

open Sys2Proof

/-! ### OBJPOS (R121) -/

/-- A value inserted in a field at the foot of the word stands in the low bits (R85). -/
theorem toNat_mod_of_inserted_at_zero {width : Nat} {old value new : Word} (hw : width ≤ 16)
    (h : FieldInserted ⟨0, width⟩ old value new) : new.toNat % 2 ^ width = value.toNat % 2 ^ width := by
  simpa [getField] using getField_of_inserted (f := ⟨0, width⟩) (by simpa using hw) h

/-- The effect of OBJPOS on an entry: the field insert in attr0, then that in attr1, which reads the word it was. -/
theorem objposRun_eq (x y : Word) (e : Fin 128) (s : State) {new0 new1 : Word}
    (h0 : bf s.shadow[attrWord e 0] y params.layout.attr0.y.width params.layout.attr0.y.shift = new0)
    (h1 : bf s.shadow[attrWord e 1] x params.layout.attr1.x.width params.layout.attr1.x.shift = new1) :
    objposRun params x y e s = { s with
      shadow := (s.shadow.set (attrWord e 0) new0).set (attrWord e 1) new1
      trace := .respond .ok 0 :: .cellWrite (.shadow (attrWord e 1)) new1 ::
        .cellRead (.shadow (attrWord e 1)) s.shadow[attrWord e 1] :: .cellWrite (.shadow (attrWord e 0)) new0 ::
        .cellRead (.shadow (attrWord e 0)) s.shadow[attrWord e 0] :: s.trace } := by
  subst h0 h1
  simp only [objposRun, objSetter, objField, State.insertField_shadowCell, getElem_set_attrWord_one]
  rfl

/-- An operand that selects no entry fails the check of the selector range (R63). -/
theorem objInRange_eq_false {idx : Word} (h : 128 ≤ idx.toNat) : objInRange idx = false := decide_eq_false h.not_gt

/-- Settles O43: for an entry in range the two field inserts, each at the foot of its word. -/
theorem objposSetsBothCoordinates : Obligations.ObjposSetsBothCoordinates := by
  refine ⟨fun _ _ _ => rfl, fun idx x y s hs => ⟨fun e he => ?inRange, fun hidx => ?illegal⟩⟩
  case inRange =>
    have h0 := fieldInserted_bf (f := params.layout.attr0.y) (by decide) s.shadow[attrWord e 0] y
    have h1 := fieldInserted_bf (f := params.layout.attr1.x) (by decide) s.shadow[attrWord e 1] x
    refine ⟨_, _, h0, h1, toNat_mod_of_inserted_at_zero (width := 8) (by decide) h0,
      toNat_mod_of_inserted_at_zero (width := 9) (by decide) h1, ?_⟩
    rw [exec_objpos, objOf_eq e he, State.begin_some hs, objposRun_eq x y e s rfl rfl]
  case illegal => exact selectorOutOfRangeIsIllegal (.objpos idx x y) s hs (objInRange_eq_false hidx)

/-! ### The setters of a field of an entry (R120, R122 to R133) -/

section ObjectSetters

variable {idx value : Word} {p : Instr × Fin 4 × Field} {s t : State}

/-- The fields of an entry fit in the word, in the default layout (R15, log entry 2). -/
theorem objSetters_width_le (hp : p ∈ objSetters params.layout idx value) : p.2.2.width ≤ 16 := by
  revert p
  simp only [objSetters, List.forall_mem_cons]
  decide

/-- The words the setters write are attr0, attr1 and attr2, never the filler (R120). -/
theorem objSetters_word_lt (hp : p ∈ objSetters params.layout idx value) : p.2.1.val < 3 := by
  revert p
  simp only [objSetters, List.forall_mem_cons]
  decide

theorem exec_objSetter (hp : p ∈ objSetters params.layout idx value) (s : State) :
    exec p.1 s = s.begin (objOf idx) (objSetter p.2.1 p.2.2 value) := by
  rw [← execWith_params]
  exact execWith_objSetter hp s

/-- A setter of an entry in range inserts its field and keeps every other bit (R120). -/
theorem exec_objSetter_inserts {e : Fin 128} (hp : p ∈ objSetters params.layout idx value) (hs : s.halt = false)
    (he : idx.toNat = e.val) :
    ∃ new, FieldInserted p.2.2 s.shadow[attrWord e p.2.1] value new ∧
      exec p.1 s = .next (Claims.shadowUpdated s (attrWord e p.2.1) new) := by
  rw [← execWith_params]
  exact execWith_objSetter_inserts hp hs he (objSetters_width_le hp)

/-- A setter of an entry out of range answers `ILLEGAL` with no access (R120). -/
theorem exec_objSetter_illegal (hp : p ∈ objSetters params.layout idx value) (hs : s.halt = false)
    (hidx : 128 ≤ idx.toNat) : exec p.1 s = .next (Claims.answered s .illegal 0) := by
  rw [exec_objSetter hp, objOf_eq_none.mpr hidx, State.begin_none hs]
  rfl

end ObjectSetters

/-- Settles O44: each setter by what `idx` selects, the shadow word being the entry's. -/
theorem objectSettersInsertTheirField : Obligations.ObjectSettersInsertTheirField := by
  refine fun idx value s hs p hp => ⟨fun e i he hi => ?_, exec_objSetter_illegal hp hs⟩
  obtain rfl : i = attrWord e p.2.1 := Fin.ext hi
  exact exec_objSetter_inserts hp hs he

/-! ### The shadow words an object setter leaves alone (R120, R134) -/

section ShadowFrame

variable {s t : State} {f : Fin 512}

/-- A field insert in a shadow word keeps every other one. -/
theorem getElem_insertField_of_ne {i : Fin 512} (h : f ≠ i) (s : State) (v : Word) (width shift : Nat) :
    (s.insertField (.shadow i) v width shift).shadow[f] = s.shadow[f] := by
  rw [State.insertField_shadowCell]
  exact Vector.getElem_set_ne i.isLt f.isLt fun hi => h (Fin.ext hi.symm)

/-- The setters of an entry: OBJPOS and those of one field. -/
def objectSetters (idx value x y : Word) : List Instr :=
  .objpos idx x y :: (objSetters params.layout idx value).map Prod.fst

/-- The word is attr0, attr1 or attr2 of the entry the operand selects. -/
def AttributeOf (idx : Word) (f : Fin 512) : Prop := ∃ w < 3, f.val = 4 * idx.toNat + w

theorem attributeOf_attrWord {idx : Word} {e : Fin 128} (he : objOf idx = some e) {w : Fin 4} (hw : w.val < 3) :
    AttributeOf idx (attrWord e w) := by
  unfold objOf at he
  split at he
  · obtain rfl := Option.some.inj he
    exact ⟨w, hw, rfl⟩
  · cases he

/-- A command that makes the checks on an entry keeps the shadow words that its effect on the entry keeps. -/
theorem shadow_kept_of_begin {idx : Word} {run : Fin 128 → State → State} (h : s.begin (objOf idx) run = .next t)
    (hrun : ∀ e, objOf idx = some e → (run e s).shadow[f] = s.shadow[f]) : t.shadow[f] = s.shadow[f] := by
  obtain ⟨-, rfl⟩ | ⟨-, -, rfl⟩ | ⟨e, -, he, rfl⟩ := State.begin_eq_next h
  · rfl
  · rfl
  · exact hrun e he

/-- An object setter keeps every shadow word but attr0, attr1 and attr2 of its entry (R120). -/
theorem objectSetter_keeps {idx value x y : Word} {i : Instr} (hi : i ∈ objectSetters idx value x y)
    (h : exec i s = .next t) (hf : ¬ AttributeOf idx f) : t.shadow[f] = s.shadow[f] := by
  have apart {e : Fin 128} (he : objOf idx = some e) {w : Fin 4} (hw : w.val < 3) : f ≠ attrWord e w := by
    rintro rfl
    exact hf (attributeOf_attrWord he hw)
  obtain rfl | hi := List.mem_cons.mp hi
  · refine shadow_kept_of_begin h fun e he => ?_
    exact (getElem_insertField_of_ne (apart he (by decide)) _ _ _ _).trans
      (getElem_insertField_of_ne (apart he (by decide)) _ _ _ _)
  · obtain ⟨p, hp, rfl⟩ := List.mem_map.mp hi
    rw [exec_objSetter hp] at h
    exact shadow_kept_of_begin h fun e he =>
      getElem_insertField_of_ne (apart he (objSetters_word_lt hp)) _ _ _ _

/-- A command other than AFFSET, SETBITS and WRCELL is an object setter or keeps the whole shadow table (R40). -/
theorem objectSetter_or_shadow_kept {i : Instr} (hm : i.mnemonic ∉ ["AFFSET", "SETBITS", "WRCELL"])
    (h : exec i s = .next t) : (∃ idx value x y, i ∈ objectSetters idx value x y) ∨ t.shadow = s.shadow := by
  cases i
  case affset | setbits | wrcell => exact absurd (by simp [Instr.mnemonic]) hm
  case objpos idx x y => exact .inl ⟨idx, 0, x, y, .head _⟩
  case objmode idx value | objgfx idx value | objmosaic idx value | objcdepth idx value | objshape idx value |
      objsize idx value | objaffidx idx value | objhflip idx value | objvflip idx value | objtile idx value |
      objprio idx value | objpal idx value =>
    exact .inl ⟨idx, value, 0, 0, by simp [objectSetters, objSetters]⟩
  all_goals exact .inr (exec_keepsAllBut h .shadow (by simp [instrSpaces]))

end ShadowFrame

/-- Settles O48: a word of another entry is none of the three the setter may write. -/
theorem settersKeepTheOtherEntries : Obligations.SettersKeepTheOtherEntries := by
  intro idx value x y s t f hf i hi h
  refine objectSetter_keeps hi h ?_
  rintro ⟨w, hw, hfw⟩
  omega

/-- Settles O47: a filler word is none of the three an object setter may write, and the other commands write none. -/
theorem settersKeepTheAffineCoefficients : Obligations.SettersKeepTheAffineCoefficients := by
  intro i s t f hm hf h
  obtain ⟨idx, value, x, y, hi⟩ | hkept := objectSetter_or_shadow_kept hm h
  · refine objectSetter_keeps hi h ?_
    rintro ⟨w, hw, hfw⟩
    omega
  · rw [hkept]

end Sys2Proof.Machine
end

section
/-! PROOFS. The commit engine (R135 to R137): what COMMIT leaves in `OAM`, in any order of its writes, and again. -/

namespace Sys2Proof.Machine

open Sys2Proof

variable {s t : State}

/-! ### What a copy of the shadow table leaves -/

/-- The address of a word of `OAM` is exact modulo 2^32 (R48). -/
theorem toNat_oamAddress (P : Params) (i : Nat) : (oamAddress P i).toNat = (P.oamBase + i) % 2 ^ 32 :=
  BitVec.toNat_ofNat _ _

/-- A second copy of the same shadow table stores nothing new, whatever its order (R137). -/
theorem copyInOrder_copyInOrder {o o' : List (Fin 512)} (h : ∀ i ∈ o', i ∈ o) (shadow : Vector Word 512) {m : Memory}
    (hm : m.wf) : copyInOrder params o' shadow (copyInOrder params o shadow m) = copyInOrder params o shadow m := by
  refine Memory.ext_of_readByte (copyInOrder_wf (copyInOrder_wf hm _ _) _ _) (copyInOrder_wf hm _ _) fun a => ?_
  by_cases ha : ∃ i ∈ o', a / 2 = params.oamBase + i.val
  · obtain ⟨i, hi, hai⟩ := ha
    rw [readByte_copyInOrder_inside hi hai, readByte_copyInOrder_inside (h i hi) hai]
  · exact readByte_copyInOrder_outside fun i hi he => ha ⟨i, hi, he⟩

/-- A word written since the reset is what memory holds (R42). -/
theorem State.wordAt_of_readWord {u : Nat} {v : Word} (h : s.mem.readWord u = some v) : s.wordAt u = v := by
  unfold Memory.readWord at h
  split at h
  · next lo hi hlo hhi =>
    rw [State.wordAt, State.byteAt, State.byteAt, hlo, hhi]
    exact Option.some.inj h
  · cases h

/-- The order in which the model computes a copy names every index. -/
theorem mem_reverse_finRange (i : Fin 512) : i ∈ (List.finRange 512).reverse :=
  List.mem_reverse.mpr (List.mem_finRange i)

/-! ### COMMIT -/

/-- COMMIT on a running block: the copy of the shadow table, its writes in the free order, and `OK` (R135). -/
theorem exec_commit_running (hs : s.halt = false) :
    exec .commit s = .next { s with
      mem := copyInOrder params (List.finRange 512).reverse s.shadow s.mem
      trace := .respond .ok 0 :: ((copyWrites params (commitOrder s.draws) s.shadow).reverse ++ s.trace)
      env := s.env.duringCommit s.draws
      draws := s.draws + 1 } := by
  simp only [exec_commit, State.start_running hs, commitRun, State.copyShadow_eq, State.respond, State.record]

/-- What COMMIT leaves of the fields the next one reads. -/
theorem commit_leaves (hs : s.halt = false) (h : exec .commit s = .next t) :
    t.mem = copyInOrder params (List.finRange 512).reverse s.shadow s.mem ∧ t.shadow = s.shadow ∧ t.halt = false := by
  have ht := Host.Outcome.next.inj ((exec_commit_running hs).symm.trans h)
  simp only [← ht, hs, and_self]

/-- Settles O49: the words the copy writes, the bytes outside them, and what becomes of `oam_safe` meanwhile. -/
theorem commitCopiesTheShadow : Obligations.CommitCopiesTheShadow := by
  intro s hs
  refine ⟨copyInOrder params (List.finRange 512).reverse s.shadow s.mem, commitOrder s.draws,
    (s.env.duringCommit s.draws).oamSafe, commitOrder_perm s.draws, ?run, fun hwindow => ?window, fun i => ?inside,
    fun a ha => ?outside⟩
  case run =>
    simp only [exec_commit_running hs, Environment.duringCommit_eq, copyWrites, oamAddress]
  case window =>
    obtain ⟨hsafe, hholds⟩ := hwindow
    simp only [Environment.duringCommit_eq, if_pos hholds, hsafe]
  case inside =>
    rw [← toNat_oamAddress, oamAddress_toNat i.isLt]
    exact readWord_copyInOrder s.shadow s.mem (mem_reverse_finRange i)
  case outside => exact readByte_copyInOrder_outside fun i _ => by omega

/-- Settles O50: two orders that name the same indices leave one memory. -/
theorem commitOrderDoesNotMatter : Obligations.CommitOrderDoesNotMatter := by
  intro s t order hm hs horder h
  obtain ⟨hmem, -, -⟩ := commit_leaves hs h
  have hsame (i : Fin 512) : i ∈ (List.finRange 512).reverse ↔ i ∈ order := by
    rw [List.mem_reverse, horder.mem_iff]
  rw [hmem, copyInOrder_congr hsame s.shadow hm]
  simp only [copyInOrder, toNat_oamAddress]

/-- Settles O51: the second copy is of the same shadow table, so it stores nothing new. -/
theorem commitTwiceIsCommitOnce : Obligations.CommitTwiceIsCommitOnce := by
  intro s t u hm hs ht hu
  obtain ⟨htmem, htshadow, hthalt⟩ := commit_leaves hs ht
  obtain ⟨humem, -, -⟩ := commit_leaves hthalt hu
  have hsame : u.mem = t.mem := by
    rw [humem, htshadow, htmem, copyInOrder_copyInOrder (fun _ hi => hi) s.shadow hm]
  refine ⟨hsame, fun i => State.wordAt_of_readWord ?_⟩
  rw [hsame, htmem, oamAddress_toNat i.isLt]
  exact readWord_copyInOrder s.shadow s.mem (mem_reverse_finRange i)

end Sys2Proof.Machine
end

section
/-! PROOFS. The vblank wait (R136, R166): how it begins and ends, and that the block stays while the main flow does not run. -/

namespace Sys2Proof.Machine

open Sys2Proof

namespace Environment

variable {e : Environment}

/-- The wait of an initialized controller with vblank enabled suspends the main flow (R166). -/
theorem wait_of_enabled (hp : e.phase = .initialized) (hv : e.vblankEnabled = true) :
    e.wait = { e with flow := .waiting } := by
  simp only [wait, hp, hv, if_true]

/-- Everything the end of the dispatch routine does to a main flow that waits: wake it, where vblank was handled (R166). -/
theorem dispatchReturn_running (hf : e.flow = .waiting) (h : e.dispatchReturn.flow = .running) :
    ∃ fired, e.routine = some fired ∧ inMask fired .vblank = true := by
  cases hr : e.routine with
  | none =>
    rw [dispatchReturn_none e hr, hf] at h
    cases h
  | some fired =>
    refine ⟨fired, rfl, Decidable.by_contra fun hv => ?_⟩
    simp [dispatchReturn_some e hr, hf, hv] at h

/-- No action but the end of the dispatch routine lets the main flow go on: it stays, waits or hangs (R166, R167). -/
theorem act_flow {a : EnvAction} (ha : a ≠ .dispatchReturn) :
    (e.act a).flow = e.flow ∨ (e.act a).flow = .waiting ∨ (e.act a).flow = .hung := by
  cases a with
  | dispatchReturn => exact absurd rfl ha
  | init handler => exact .inl (by rw [act, init_eq])
  | assertIrq k => exact .inl (by rw [act, assertIrq_eq])
  | dispatch => exact .inl (by rw [act, dispatch_eq])
  | scanout safe => exact .inl rfl
  | enableType k =>
    cases hp : e.phase with
    | uninitialized => exact .inr (.inr (by simp only [act, enableType, hp, hang]))
    | initialized => exact .inl (by simp only [act, enableType, hp])
  | enableGlobally =>
    cases hp : e.phase with
    | uninitialized => exact .inr (.inr (by simp only [act, enableGlobally, hp, hang]))
    | initialized => exact .inl (by simp only [act, enableGlobally, hp])
  | waitVblank =>
    obtain ⟨-, hwait⟩ | ⟨-, -, hwait⟩ := e.wait_cases
    · exact .inr (.inr (by rw [act, hwait, hang]))
    · exact .inr (.inl (by rw [act, hwait]))

/-- What lets a waiting main flow go on is the end of a routine that handled vblank (R166). -/
theorem act_running {a : EnvAction} (hf : e.flow = .waiting) (h : (e.act a).flow = .running) :
    a = .dispatchReturn ∧ ∃ fired, e.routine = some fired ∧ inMask fired .vblank = true := by
  by_cases ha : a = .dispatchReturn
  · subst ha
    exact ⟨rfl, dispatchReturn_running hf h⟩
  · have hflow := act_flow (e := e) ha
    simp [h, hf] at hflow

end Environment

section SuspendedFlow

variable {s t : State}

/-- A word presented never lets a main flow that does not run go on: its flow stays, or it hangs (R167). -/
theorem runWord_flow {w : CommandWord} (h : runWord w s = .next t) : t.env.flow = s.env.flow ∨ t.env.flow = .hung := by
  obtain ⟨i, -, hrun⟩ | ⟨_, -, hrun⟩ := runWord_cases w s
  · rw [hrun] at h
    exact (exec_flow h).imp_right fun ⟨_, hhung, _⟩ => hhung
  · rw [hrun, State.rejectWord_eq] at h
    obtain ⟨-, rfl⟩ | ⟨-, rfl⟩ := State.start_eq_next h
    · exact .inl rfl
    · exact .inl rfl

/-- Everything a step can do while the main flow does not run: nothing, end in a reset, run a word of the dispatch routine, or
take an action of the environment (R165 to R167). -/
theorem step_cases_not_running (hf : s.env.flow ≠ .running) (h : step s = .next t) :
    t = s ∨
    (∃ x rest, s.nextInput = some (x, rest) ∧ Claims.resets x = true) ∨
    (∃ w rest, s.admits (.handlerCommand w) = true ∧ runWord w (s.setInputs rest) = .next t) ∨
    ∃ a rest, s.nextInput = some (.env a, rest) ∧ t = { s with inputs := rest, env := s.env.act a } := by
  obtain hx | ⟨⟨x, rest⟩, hx⟩ := Option.eq_none_or_eq_some s.nextInput
  · exact .inl (Host.Outcome.next.inj ((step_idle hx).symm.trans h)).symm
  cases x with
  | command w => exact absurd ((State.admits_mainFlow rfl).mp (State.admits_of_nextInput hx)).1 hf
  | handlerCommand w =>
    exact .inr (.inr (.inl ⟨w, rest, State.admits_of_nextInput hx, (step_input hx).symm.trans h⟩))
  | commandCut | handlerCommandCut | reset => exact .inr (.inl ⟨_, _, hx, rfl⟩)
  | env a => exact .inr (.inr (.inr ⟨a, rest, hx, (Host.Outcome.next.inj ((step_env hx).symm.trans h)).symm⟩))

/-- What ends a wait: a reset, or the end of a routine that handled vblank (R166). -/
theorem wait_ends (hf : s.env.flow = .waiting) (h : step s = .next t) (ht : t.env.flow = .running) :
    ∃ x rest, s.nextInput = some (x, rest) ∧ (Claims.resets x = true ∨
      x = .env .dispatchReturn ∧ ∃ fired, s.env.routine = some fired ∧ inMask fired .vblank = true) := by
  obtain rfl | ⟨x, rest, hx, hreset⟩ | ⟨w, rest, -, hrun⟩ | ⟨a, rest, hx, rfl⟩ :=
    step_cases_not_running (by simp [hf]) h
  · exact nomatch hf.symm.trans ht
  · exact ⟨x, rest, hx, .inl hreset⟩
  · obtain hflow | hflow := runWord_flow hrun
    · exact nomatch hf.symm.trans (hflow.symm.trans ht)
    · exact nomatch hflow.symm.trans ht
  · obtain ⟨rfl, hfired⟩ := Environment.act_running hf ht
    exact ⟨_, rest, hx, .inr ⟨rfl, hfired⟩⟩

/-- While the main flow does not run, no step but a reset changes the state of the block (R166). -/
theorem block_kept_not_running (hf : s.env.flow ≠ .running) (h : step s = .next t) :
    (t.shadow = s.shadow ∧ t.dispcnt = s.dispcnt ∧ t.bgcnt = s.bgcnt ∧ t.halt = s.halt) ∨
      ∃ x rest, s.nextInput = some (x, rest) ∧ Claims.resets x = true := by
  obtain rfl | hreset | ⟨w, rest, hadmits, hrun⟩ | ⟨a, rest, -, rfl⟩ := step_cases_not_running hf h
  · exact .inl ⟨rfl, rfl, rfl, rfl⟩
  · exact .inr hreset
  · exact .inl (State.block_kept hf hadmits hrun)
  · exact .inl ⟨rfl, rfl, rfl, rfl⟩

end SuspendedFlow

/-- Settles O60: the wait begins and ends by an action of the environment, and what the routine presents meanwhile keeps the
block. -/
theorem vblankWaitReturnsInTheSafeWindow : Obligations.VblankWaitReturnsInTheSafeWindow := by
  refine ⟨fun s rest hx hp hbit hraised hmaster => ?begins, fun s rest fired hf hx hr hv => ?returns, fun _ _ => wait_ends,
    fun _ _ => block_kept_not_running⟩
  case begins =>
    have hv : s.env.vblankEnabled = true := by rw [Environment.vblankEnabled, hbit, hraised, hmaster]; rfl
    rw [step_env hx, Environment.act, Environment.wait_of_enabled hp hv]
  case returns =>
    refine ⟨_, step_env hx, ?_⟩
    rw [Environment.act, Environment.dispatchReturn_some _ hr]
    simp [hf, hv, inMask_or, inMask_and, inMask_not]

end Sys2Proof.Machine
end

section
/-! PROOFS. The exceptions of the block (R150 to R155): how a command ends, what `SizeAbort` latches, and the order of the
checks. -/

namespace Sys2Proof.Machine

open Sys2Proof

variable {s t : State}

/-! ### What a step can do (R49, R60, R165, R180) -/

/-- Everything a step can do: nothing where no input can come, end in a reset, run the word presented, or take an action of
the environment. -/
theorem step_cases (h : step s = .next t) :
    t = s ∨
    (∃ x rest, s.nextInput = some (x, rest) ∧ Claims.resets x = true) ∨
    (∃ w rest, Claims.presented s w rest ∧ runWord w (s.setInputs rest) = .next t) ∨
    ∃ a rest, s.nextInput = some (.env a, rest) ∧ t = { s with inputs := rest, env := s.env.act a } := by
  obtain hx | ⟨⟨x, rest⟩, hx⟩ := Option.eq_none_or_eq_some s.nextInput
  · exact .inl (Host.Outcome.next.inj ((step_idle hx).symm.trans h)).symm
  cases x with
  | command w => exact .inr (.inr (.inl ⟨w, rest, .inl hx, (step_input hx).symm.trans h⟩))
  | handlerCommand w => exact .inr (.inr (.inl ⟨w, rest, .inr hx, (step_input hx).symm.trans h⟩))
  | commandCut | handlerCommandCut | reset => exact .inr (.inl ⟨_, _, hx, rfl⟩)
  | env a => exact .inr (.inr (.inr ⟨a, rest, hx, (Host.Outcome.next.inj ((step_env hx).symm.trans h)).symm⟩))

/-! ### How a command ends (R64, R150 to R155) -/

/-- How the command ends: with `OK`, `HALT` as it was; with a refusal, which does nothing else; or with the abort of RBLK. -/
inductive Ending (i : Instr) (s : State) : State → Prop
  | ok {u : State} (hu : u.halt = s.halt) (result : Wide) : Ending i s (u.respond .ok result)
  | refused (status : Status) : Ending i s (s.respond status 0)
  | aborted {size x y : Word} (hi : i = .rblk size x y) (hsize : 3 < size.toNat) : Ending i s (s.raise .sizeAbort)

namespace Ending

variable {i : Instr}

/-- The checks before a command end in a refusal (R63, R151, R153). -/
theorem of_start {run : State → State} (h : s.start run = .next t) (hrun : Ending i s (run s)) : Ending i s t := by
  obtain ⟨-, rfl⟩ | ⟨-, rfl⟩ := State.start_eq_next h
  · exact .refused .aborted
  · exact hrun

theorem of_begin {α : Type} {selected : Option α} {run : α → State → State} (h : s.begin selected run = .next t)
    (hrun : ∀ a, Ending i s (run a s)) : Ending i s t := by
  obtain ⟨-, rfl⟩ | ⟨-, -, rfl⟩ | ⟨a, -, -, rfl⟩ := State.begin_eq_next h
  · exact .refused .aborted
  · exact .refused .illegal
  · exact hrun a

/-- BGSBB inserts its field or refuses its value (R96, R152). -/
theorem bgsbbRun (s : State) (value : Word) (n : Fin 4) : Ending i s (bgsbbRun params value n s) := by
  unfold Machine.bgsbbRun
  split
  · exact .refused .rejected
  · exact .ok (State.insertField_halt (.bgcnt n) _ _ _) 0

/-- RBLK answers the block index, or aborts on a size outside the enumeration (R104, R151). -/
theorem rblkRun (s : State) (size x y : Word) : Ending (.rblk size x y) s (rblkRun params size x y s) := by
  unfold Machine.rblkRun
  split
  · exact .ok rfl _
  · next hsize => exact .aborted rfl (Nat.not_lt.mp hsize)

end Ending

theorem mapWrite_halt (s : State) (index : Nat) (v : Word) : (s.mapWrite params index v).halt = s.halt := by
  rw [State.mapWrite_eq]

theorem copyShadow_halt (s : State) : (s.copyShadow params).halt = s.halt := by
  rw [State.copyShadow_eq]

/-- Every command ends so. -/
theorem exec_ending {i : Instr} (h : exec i s = .next t) : Ending i s t := by
  cases i
  case setbits => exact .of_begin h fun c => .ok (State.insertField_halt c _ _ _) 0
  case rdcell => exact .of_begin h fun c => .ok (State.afterRead_halt c) _
  case wrcell => exact .of_begin h fun c => .ok (State.cellWrite_halt c _) 0
  case dispset => exact .of_start h (.ok (State.cellWrite_halt .dispcnt _) 0)
  case bgsbb => exact .of_begin h fun n => .bgsbbRun s _ n
  case bgprio | bgtbank | bgcdepth | bgsize | bgsbbu =>
    exact .of_begin h fun n => .ok (State.insertField_halt (.bgcnt n) _ _ _) 0
  case rblk => exact .of_start h (.rblkRun s _ _ _)
  case roff | encse => exact .of_start h (.ok rfl _)
  case taddr => exact .of_begin h fun n => .ok (State.afterRead_halt (.bgcnt n)) _
  case mapwr =>
    exact .of_begin h fun n => .ok ((mapWrite_halt _ _ _).trans (State.afterRead_halt (.bgcnt n))) 0
  case objpos =>
    exact .of_begin h fun e => .ok ((State.insertField_halt (.shadow (attrWord e 1)) _ _ _).trans
      (State.insertField_halt (.shadow (attrWord e 0)) _ _ _)) 0
  case affset => exact .of_begin h fun f => .ok (State.cellWrite_halt (.shadow f) _) 0
  case commit => exact .of_start h (.ok (copyShadow_halt s) 0)
  case objmode | objgfx | objmosaic | objcdepth | objshape | objsize | objaffidx | objhflip | objvflip | objtile | objprio |
      objpal => exact .of_begin h fun e => .ok (State.insertField_halt (.shadow (attrWord e _)) _ _ _) 0

/-- Settles O16: of the three endings, a refusal does nothing else and the abort sets `HALT`. -/
theorem exceptionsArePrecise : Obligations.ExceptionsArePrecise := by
  intro i s t status result h hlast hstatus
  cases exec_ending h with
  | ok => cases hlast; exact absurd rfl hstatus
  | refused => cases hlast; exact ⟨rfl, .inl rfl⟩
  | aborted hi hsize => cases hlast; exact ⟨rfl, .inr ⟨rfl, rfl, _, _, _, hi, hsize⟩⟩

/-! ### `HALT` (R21, R151) -/

/-- Only RBLK, and with a size outside the enumeration, sets `HALT`. -/
theorem rblk_of_exec_halts {i : Instr} (h : exec i s = .next t) (hs : s.halt = false) (ht : t.halt = true) :
    ∃ size x y, i = .rblk size x y ∧ 3 < size.toNat := by
  cases exec_ending h with
  | ok hu => exact absurd (ht.symm.trans (hu.trans hs)) nofun
  | refused => exact absurd (ht.symm.trans hs) nofun
  | aborted hi hsize => exact ⟨_, _, _, hi, hsize⟩

/-- No step but a reset clears `HALT`: a word presented is answered `ABORTED`, and an action is the environment's. -/
theorem resets_of_step_clears_halt (h : step s = .next t) (hs : s.halt = true) (ht : t.halt = false) :
    ∃ x rest, s.nextInput = some (x, rest) ∧ Claims.resets x = true := by
  obtain rfl | hreset | ⟨w, rest, -, hrun⟩ | ⟨a, rest, -, rfl⟩ := step_cases h
  · exact nomatch hs.symm.trans ht
  · exact hreset
  · rw [runWord_halted (s := s.setInputs rest) w hs] at hrun
    obtain rfl := Host.Outcome.next.inj hrun
    exact nomatch hs.symm.trans ht
  · exact nomatch hs.symm.trans ht

/-- Settles O13: RBLK alone aborts, a halted block answers every word `ABORTED`, and a reset alone ends that. -/
theorem sizeAbortHaltsTheBlock : Obligations.SizeAbortHaltsTheBlock := by
  refine ⟨fun _ _ _ _ hs => exec_rblk_aborted hs, fun _ _ _ => rblk_of_exec_halts, fun i _ => exec_halted i,
    fun s w rest h hs => ?_, fun _ _ => resets_of_step_clears_halt⟩
  rw [step_presented h]
  exact runWord_halted (s := s.setInputs rest) w hs

/-! ### The order of the checks (R154) -/

/-- The opcode map has RBLK once, with three operands (R62). -/
theorem operands_of_rblk_row {row : Word × Nat} : row ∈ Claims.opcodeMap → 0x0020#16 = row.1 → row.2 = 3 := by
  revert row
  decide

/-- A word with the opcode of RBLK and a bit of its reserved field is no command, whatever its size (R63 step 3). -/
theorem not_legalWord_rblk_reserved {w : CommandWord} (hop : w.extractLsb' 64 16 = 0x0020#16)
    (hs : w.extractLsb' 0 16 ≠ 0#16) : ¬ Claims.legalWord w := by
  rintro ⟨⟨op, operands⟩, hrow, hop', hzero⟩
  obtain rfl : operands = 3 := operands_of_rblk_row hrow (hop.symm.trans hop')
  exact hs hzero

/-- Settles O15: a background out of range ends BGSBB before its value is looked at, a reserved bit RBLK before its size,
and `HALT` everything. -/
theorem checksHavePriority : Obligations.ChecksHavePriority := by
  refine ⟨fun _ _ _ hs hbg => exec_bgsbb_illegal hs hbg, fun s w rest h hs hop hreserved => ?_, fun _ _ _ => exec_halted _⟩
  obtain ⟨-, hillegal, -⟩ := checksBeforeACommandRuns s w rest h
  exact hillegal hs (not_legalWord_rblk_reserved hop hreserved)

end Sys2Proof.Machine
end

section
/-! PROOFS. The interrupt environment (R158 to R168, R183): what is only set, how it is set, the hang of a skipped `init()`, and
the dispatch routine. -/

namespace Sys2Proof.Machine

open Sys2Proof

/-! ### Bits and masks (R163, G7) -/

theorem IrqKind.index_lt (k : IrqKind) : k.index < 16 := by cases k <;> decide

/-- The mask of a kind has the bit of the kind's number. -/
theorem IrqKind.getLsbD_bit (k : IrqKind) {i : Nat} (hi : i < 16) : k.bit.getLsbD i = (i == k.index) := by
  revert i
  cases k <;> decide

/-- The vblank bit of the display-status register is bit 3 alone (G7; log entry 10). -/
theorem getLsbD_vblankStatusBit {i : Nat} (hi : i < 16) : vblankStatusBit.getLsbD i = (i == 3) := by
  revert i
  decide

/-- The master flag is bit 0 alone (G7; log entry 10). -/
theorem getLsbD_masterBit {i : Nat} (hi : i < 16) : masterBit.getLsbD i = (i == 0) := by
  revert i
  decide

/-- The number of a kind fits in an operand. -/
theorem IrqKind.toNat_index (k : IrqKind) : (BitVec.ofNat 16 k.index).toNat = k.index := by
  cases k <;> rfl

theorem ne_zero_of_inMask {m : IrqMask} {k : IrqKind} (h : inMask m k = true) : m ≠ 0 := by
  rintro rfl
  exact nomatch (inMask_zero k).symm.trans h

/-- A mask is zero exactly where it has no bit. -/
theorem mask_eq_zero_iff (m : IrqMask) : m = 0 ↔ ∀ i, m.getLsbD i = false :=
  ⟨fun h i => by simp [h], fun h => BitVec.eq_of_getLsbD_eq fun i _ => by simp [h i]⟩

/-- A field of one bit inserted sets that bit, whatever the word was (R84). -/
theorem getLsbD_bf_one (old : Word) {i : Nat} (hi : i < 16) : (bf old 1 1 i).getLsbD i = true := by
  rw [getLsbD_bf _ _ _ _ _ hi, if_pos (by omega), Nat.sub_self]
  rfl

namespace Environment

variable {e : Environment}

/-- The master flag is bit 0 of its register (R162, G7; log entry 10). -/
theorem masterOn_eq : e.masterOn = e.masterEnable.getLsbD 0 := by
  have hbit : masterBit = BitVec.twoPow 16 0 := rfl
  rw [masterOn, hbit, BitVec.and_twoPow]
  cases e.masterEnable.getLsbD 0 <;> rfl

/-! ### The calls of the main flow (R160 to R162, R166, R167) -/

theorem act_init_uninitialized (handler : Wide) (hp : e.phase = .uninitialized) :
    e.act (.init handler) = { e with phase := .initialized, handler := handler } := by
  simp only [act, init, hp]

theorem act_init_initialized (handler : Wide) (hp : e.phase = .initialized) : e.act (.init handler) = e := by
  simp only [act, init, hp]

theorem act_enableType_initialized (k : IrqKind) (hp : e.phase = .initialized) :
    e.act (.enableType k) = { e with
      enabled := e.enabled ||| k.bit
      displayStatus := if k = .vblank then e.displayStatus ||| vblankStatusBit else e.displayStatus } := by
  simp only [act, enableType, hp]

theorem act_enableGlobally_initialized (hp : e.phase = .initialized) :
    e.act .enableGlobally = { e with masterEnable := e.masterEnable ||| masterBit } := by
  simp only [act, enableGlobally, hp]

/-- Enabling or waiting before `init()` hangs the main flow. -/
theorem act_early {a : EnvAction} (hp : e.phase = .uninitialized)
    (ha : (∃ k, a = .enableType k) ∨ a = .enableGlobally ∨ a = .waitVblank) : e.act a = e.hang := by
  obtain ⟨k, rfl⟩ | rfl | rfl := ha
  · simp only [act, enableType, hp]
  · simp only [act, enableGlobally, hp]
  · simp only [act, wait, hp]

/-- Waiting with vblank not enabled hangs the main flow (log entry 11). -/
theorem act_wait_not_enabled (h : e.vblankEnabled = false) : e.act .waitVblank = e.hang := by
  obtain ⟨-, hwait⟩ | ⟨-, hv, -⟩ := e.wait_cases
  · exact hwait
  · exact nomatch h.symm.trans hv

/-! ### What is only set (R159 to R162) -/

/-- From `e` to `e'` the controller stays initialized with its routine installed, and no enabled type is cleared. -/
structure OneWay (e e' : Environment) : Prop where
  initialized : e.phase = .initialized → e'.phase = .initialized ∧ e'.handler = e.handler
  enabled : ∀ i, e.enabled.getLsbD i = true → e'.enabled.getLsbD i = true

/-- A change that leaves the phase, the slot and the enabled mask is one way. -/
theorem OneWay.of_same {e' : Environment} (hp : e'.phase = e.phase) (hh : e'.handler = e.handler)
    (he : e'.enabled = e.enabled) : OneWay e e' :=
  ⟨fun h => ⟨hp.trans h, hh⟩, fun _ hi => he ▸ hi⟩

theorem OneWay.refl (e : Environment) : OneWay e e := .of_same rfl rfl rfl

/-- A write to an external cell clears no enabled type (R161; log entry 14). -/
theorem OneWay.extWrite (e : Environment) (k : Nat) (v keep : Word) : OneWay e (e.extWrite k v keep) := by
  rw [extWrite_eq]
  refine ⟨fun h => ⟨h, rfl⟩, fun i hi => ?_⟩
  show (if _ then _ else _ : Word).getLsbD i = true
  split
  · simp [hi]
  · exact hi

theorem OneWay.duringCommit (e : Environment) (draw : Nat) : OneWay e (e.duringCommit draw) := by
  rw [duringCommit_eq]
  exact .of_same rfl rfl rfl

/-- The wait changes the flow alone (R166). -/
theorem wait_frame : e.wait = { e with flow := e.wait.flow } := by
  obtain ⟨-, h⟩ | ⟨-, -, h⟩ := e.wait_cases
  · rw [h, hang]
  · rw [h]

/-- The end of the dispatch routine leaves the controller and its enables (R163). -/
theorem dispatchReturn_frame : e.dispatchReturn = { e with
    asserted := e.dispatchReturn.asserted, mirror := e.dispatchReturn.mirror, flow := e.dispatchReturn.flow,
    oamSafe := e.dispatchReturn.oamSafe, routine := e.dispatchReturn.routine } := by
  cases hr : e.routine with
  | none => rw [dispatchReturn_none e hr]
  | some fired => rw [dispatchReturn_some e hr]

/-- Every action is one way: `init()` is done once (log entry 24), and the enables only set. -/
theorem OneWay.act (e : Environment) (a : EnvAction) : OneWay e (e.act a) := by
  cases a with
  | init handler =>
    rw [Environment.act, init_eq]
    exact ⟨fun h => ⟨rfl, if_neg (by simp [h])⟩, fun _ hi => hi⟩
  | enableType k =>
    cases hp : e.phase with
    | uninitialized => rw [act_early hp (.inl ⟨k, rfl⟩)]; exact .of_same rfl rfl rfl
    | initialized =>
      rw [act_enableType_initialized k hp]
      exact ⟨fun h => ⟨h, rfl⟩, fun i hi => by simp [hi]⟩
  | enableGlobally =>
    cases hp : e.phase with
    | uninitialized => rw [act_early hp (.inr (.inl rfl))]; exact .of_same rfl rfl rfl
    | initialized => rw [act_enableGlobally_initialized hp]; exact .of_same rfl rfl rfl
  | waitVblank => rw [Environment.act, wait_frame]; exact .of_same rfl rfl rfl
  | assertIrq k => rw [Environment.act, assertIrq_eq]; exact .of_same rfl rfl rfl
  | dispatch => rw [Environment.act, dispatch_eq]; exact .of_same rfl rfl rfl
  | dispatchReturn => rw [Environment.act, dispatchReturn_frame]; exact .of_same rfl rfl rfl
  | scanout safe => exact .of_same rfl rfl rfl

/-- No action but `enableGlobally()` touches the master-enable register (log entry 31). -/
theorem act_masterEnable {a : EnvAction} (ha : a ≠ .enableGlobally) : (e.act a).masterEnable = e.masterEnable := by
  cases a with
  | enableGlobally => exact absurd rfl ha
  | init handler => rw [act, init_eq]
  | enableType k => cases hp : e.phase <;> simp only [act, enableType, hp, hang]
  | waitVblank => rw [act, wait_frame]
  | assertIrq k => rw [act, assertIrq_eq]
  | dispatch => rw [act, dispatch_eq]
  | dispatchReturn => rw [act, dispatchReturn_frame]
  | scanout safe => rfl

/-- No action clears the master flag (R162). -/
theorem act_masterOn {a : EnvAction} (h : e.masterOn = true) : (e.act a).masterOn = true := by
  rw [masterOn_eq] at h ⊢
  by_cases ha : a = .enableGlobally
  · subst ha
    cases hp : e.phase with
    | uninitialized => rw [act_early hp (.inr (.inl rfl)), hang, h]
    | initialized => rw [act_enableGlobally_initialized hp, BitVec.getLsbD_or, h, Bool.true_or]
  · rw [act_masterEnable ha, h]

/-- A write of `EXT[1]` after `init()` sets the ones of the value in the enable register (R161). -/
theorem enabled_extWrite_initialized (hp : e.phase = .initialized) (v keep : Word) :
    (e.extWrite 1 v keep).enabled = e.enabled ||| v := by
  simp [extWrite, enablesTooSoon_initialized e hp]

/-! ### The hang (R167) -/

/-- A write that enables a type or the master flag before `init()` hangs the main flow, whatever the zeros do (log entry 26). -/
theorem extWrite_early {k : Nat} {v : Word} (hp : e.phase = .uninitialized)
    (h : k = 1 ∧ v ≠ 0 ∨ k = 3 ∧ v.getLsbD 0 = true) (keep : Word) : e.extWrite k v keep = e.hang := by
  obtain ⟨rfl, hv⟩ | ⟨rfl, hv⟩ := h
  · exact if_pos ((enablesTooSoon_uninitialized e hp v).mpr hv)
  · refine if_pos ((enablesTooSoon_uninitialized e hp _).mpr fun hzero => ?_)
    have hbit : (v &&& masterBit).getLsbD 0 = true := by rw [BitVec.getLsbD_and, hv, getLsbD_masterBit (by decide)]; rfl
    rw [hzero] at hbit
    cases hbit

/-- A main flow that hangs takes no action, and no other action ends the hang (R167). -/
theorem act_flow_hung {a : EnvAction} (hf : e.flow = .hung) (hlets : e.lets a.source = true) :
    (e.act a).flow = .hung := by
  have hmain : ¬ e.lets .mainFlow = true := fun h => nomatch hf.symm.trans (lets_mainFlow.mp h).1
  cases a with
  | init | enableType | enableGlobally | waitVblank => exact absurd hlets hmain
  | assertIrq k => rw [act, assertIrq_eq, hf]
  | dispatch => rw [act, dispatch_eq, hf]
  | scanout safe => exact hf
  | dispatchReturn =>
    cases hr : e.routine with
    | none => rw [act, dispatchReturn_none e hr, hf]
    | some fired => simp [act, dispatchReturn_some e hr, hf]

/-! ### The dispatch routine (R163 to R165) -/

/-- The bits of what the routine reads first: enabled and asserted. -/
theorem getLsbD_fired (i : Nat) : e.fired.getLsbD i = (e.enabled.getLsbD i && e.asserted.getLsbD i) :=
  BitVec.getLsbD_and

theorem fired_eq_zero_iff : e.fired = 0 ↔ ∀ i, (e.enabled.getLsbD i && e.asserted.getLsbD i) = false := by
  simp only [mask_eq_zero_iff, getLsbD_fired]

/-- A delivery of what does not reach the routine does nothing (R164, R165). -/
theorem act_dispatch_ignored
    (h : e.fired = 0 ∨ e.masterOn = false ∨ e.phase = .uninitialized ∨ e.routine ≠ none) : e.act .dispatch = e :=
  if_pos h

/-- A delivery of what reaches the routine starts it (R163, R164). -/
theorem act_dispatch_starts (hf : e.fired ≠ 0) (hm : e.masterOn = true) (hp : e.phase = .initialized)
    (hr : e.routine = none) : e.act .dispatch = { e with routine := some e.fired } := by
  refine if_neg ?_
  rintro (hzero | hoff | hearly | hbusy)
  · exact hf hzero
  · exact nomatch hm.symm.trans hoff
  · exact nomatch hp.symm.trans hearly
  · exact hbusy hr

end Environment

section Steps

variable {s t : State}

/-! ### What a word presented does to the environment (R158) -/

/-- Everything a word presented can do to the environment: nothing, a write to an external cell, or what befalls `oam_safe`
during a COMMIT. -/
theorem runWord_env_cases {w : CommandWord} (h : runWord w s = .next t) :
    t.env = s.env ∨ (∃ k v keep, t.env = s.env.extWrite k v keep) ∨ t.env = s.env.duringCommit s.draws := by
  obtain ⟨i, -, hrun⟩ | ⟨_, -, hrun⟩ := runWord_cases w s
  · rw [hrun] at h
    obtain henv | ⟨_, k, v, keep, -, -, henv⟩ | ⟨-, henv⟩ := exec_env_cases h
    · exact .inl henv
    · exact .inr (.inl ⟨k, v, keep, henv⟩)
    · exact .inr (.inr henv)
  · rw [hrun, State.rejectWord_eq] at h
    obtain ⟨-, rfl⟩ | ⟨-, rfl⟩ := State.start_eq_next h
    · exact .inl rfl
    · exact .inl rfl

theorem runWord_oneWay {w : CommandWord} (h : runWord w s = .next t) : s.env.OneWay t.env := by
  obtain henv | ⟨k, v, keep, henv⟩ | henv := runWord_env_cases h
  · rw [henv]; exact .refl _
  · rw [henv]; exact .extWrite _ k v keep
  · rw [henv]; exact .duringCommit _ _

/-- Every step but a reset is one way (R159 to R161). -/
theorem step_oneWay (h : step s = .next t) (hx : ∀ x rest, s.nextInput = some (x, rest) → Claims.resets x = false) :
    s.env.OneWay t.env := by
  obtain rfl | ⟨x, rest, hnext, hreset⟩ | ⟨w, rest, -, hrun⟩ | ⟨a, rest, -, rfl⟩ := step_cases h
  · exact .refl _
  · exact nomatch (hx x rest hnext).symm.trans hreset
  · exact runWord_oneWay (s := s.setInputs rest) hrun
  · exact .act _ a

/-! ### The writes of the enable registers (R161) -/

/-- SETBITS of an external cell hands the field inserted in what it read to the environment (R23, R81). -/
theorem exec_setbits_ext (hs : s.halt = false) {sel : Word} {k : Nat} (hsel : cellOf params sel = some (.ext k))
    (value width shift : Word) :
    ∃ t old keep, exec (.setbits sel value width shift) s = .next t ∧ t.lastResponse = some (.ok, 0) ∧
      t.env = s.env.extWrite k (bf old value width.toNat shift.toNat) keep :=
  ⟨_, _, _, exec_setbits_cell hs hsel, rfl, rfl⟩

/-- WRCELL of an external cell hands its operand to the environment (R23, R83). -/
theorem exec_wrcell_ext_running (hs : s.halt = false) {sel : Word} {k : Nat} (hsel : cellOf params sel = some (.ext k))
    (value : Word) :
    ∃ t keep, exec (.wrcell sel value) s = .next t ∧ t.lastResponse = some (.ok, 0) ∧
      t.env = s.env.extWrite k value keep :=
  ⟨_, _, exec_wrcell_cell hs hsel, rfl, rfl⟩

/-- The commands that enable a kind or the master flag: SETBITS and WRCELL of `EXT[1]` and `EXT[3]`. -/
def enablingCommands (k : IrqKind) : List Instr :=
  [.setbits 0x0211 1 1 (BitVec.ofNat 16 k.index), .wrcell 0x0211 k.bit, .setbits 0x0213 1 1 0, .wrcell 0x0213 1]

/-- Each answers `OK`, and writes a value that enables to its register. -/
theorem exec_enablingCommand (hs : s.halt = false) {k : IrqKind} {i : Instr} (hi : i ∈ enablingCommands k) :
    ∃ t reg v keep, exec i s = .next t ∧ t.lastResponse = some (.ok, 0) ∧ t.env = s.env.extWrite reg v keep ∧
      (reg = 1 ∧ v ≠ 0 ∨ reg = 3 ∧ v.getLsbD 0 = true) := by
  simp only [enablingCommands, List.mem_cons, List.not_mem_nil, or_false] at hi
  obtain rfl | rfl | rfl | rfl := hi
  · obtain ⟨t, old, keep, ht, hok, henv⟩ := exec_setbits_ext hs (sel := 0x0211) rfl 1 1 (BitVec.ofNat 16 k.index)
    rw [k.toNat_index] at henv
    have hbit : inMask (bf old 1 1 k.index) k = true := getLsbD_bf_one old k.index_lt
    exact ⟨t, 1, _, keep, ht, hok, henv, .inl ⟨rfl, ne_zero_of_inMask hbit⟩⟩
  · obtain ⟨t, keep, ht, hok, henv⟩ := exec_wrcell_ext_running hs (sel := 0x0211) rfl k.bit
    have hbit : inMask k.bit k = true := by rw [inMask_bit, beq_self_eq_true]
    exact ⟨t, 1, _, keep, ht, hok, henv, .inl ⟨rfl, ne_zero_of_inMask hbit⟩⟩
  · obtain ⟨t, old, keep, ht, hok, henv⟩ := exec_setbits_ext hs (sel := 0x0213) rfl 1 1 0
    exact ⟨t, 3, _, keep, ht, hok, henv, .inr ⟨rfl, getLsbD_bf_one old (i := 0) (by decide)⟩⟩
  · obtain ⟨t, keep, ht, hok, henv⟩ := exec_wrcell_ext_running hs (sel := 0x0213) rfl 1
    exact ⟨t, 3, _, keep, ht, hok, henv, .inr ⟨rfl, rfl⟩⟩

/-! ### What ends a hang, and what the routine ignores (R167, R168) -/

/-- Nothing but a reset ends a hang (R180). -/
theorem hung_of_step (hf : s.env.flow = .hung) (h : step s = .next t) :
    t.env.flow = .hung ∨ ∃ x rest, s.nextInput = some (x, rest) ∧ Claims.resets x = true := by
  obtain rfl | hreset | ⟨w, rest, -, hrun⟩ | ⟨a, rest, hx, rfl⟩ := step_cases_not_running (by simp [hf]) h
  · exact .inl hf
  · exact .inr hreset
  · exact .inl ((runWord_flow hrun).elim (fun hkept => hkept.trans hf) id)
  · exact .inl (Environment.act_flow_hung hf (State.lets_of_nextInput hx))

/-- While the routine runs on other kinds than vblank, no word is presented: it preempts the main flow, and presents none
itself (R165, R168). -/
theorem not_presented_of_ignoring {fired : IrqMask} (hr : s.env.routine = some fired) (hv : inMask fired .vblank = false)
    (w : CommandWord) (rest : List Input) : ¬ Claims.presented s w rest := by
  rintro (hx | hx)
  · have hidle := ((State.admits_mainFlow rfl).mp (State.admits_of_nextInput hx)).2
    exact nomatch hr.symm.trans hidle
  · obtain ⟨fired', hr', hv'⟩ := (s.admits_handlerCommand_bounds w).1 (State.admits_of_nextInput hx)
    obtain rfl := Option.some.inj (hr.symm.trans hr')
    exact nomatch hv.symm.trans hv'

/-- Meanwhile no step but a reset changes the block, `MAP` or `OAM` (R168). -/
theorem block_kept_ignoring {fired : IrqMask} (hr : s.env.routine = some fired) (hv : inMask fired .vblank = false)
    (h : step s = .next t) :
    (t.shadow = s.shadow ∧ t.dispcnt = s.dispcnt ∧ t.bgcnt = s.bgcnt ∧ t.halt = s.halt ∧ t.mem = s.mem) ∨
      ∃ x rest, s.nextInput = some (x, rest) ∧ Claims.resets x = true := by
  obtain rfl | hreset | ⟨w, rest, hw, -⟩ | ⟨a, rest, -, rfl⟩ := step_cases h
  · exact .inl ⟨rfl, rfl, rfl, rfl, rfl⟩
  · exact .inr hreset
  · exact absurd hw (not_presented_of_ignoring hr hv w rest)
  · exact .inl ⟨rfl, rfl, rfl, rfl, rfl⟩

end Steps

/-- Settles O55: every step but a reset is one way, and no action clears the master flag. -/
theorem interruptEnablesAreSetOnly : Obligations.InterruptEnablesAreSetOnly := by
  intro s t h hx
  obtain ⟨hinit, henabled⟩ := step_oneWay h hx
  refine ⟨hinit, henabled, ?_⟩
  rintro ⟨a, rest, hnext⟩ hmaster
  obtain rfl := Host.Outcome.next.inj ((step_env hnext).symm.trans h)
  exact Environment.act_masterOn hmaster

/-- Settles O56: the calls by what each makes of its registers, bit by bit, and SETBITS by the field it inserts. -/
theorem enablingSetsTheBit : Obligations.EnablingSetsTheBit := by
  refine ⟨fun s rest handler hx => ⟨fun hp => ?init, fun hp => ?again⟩, fun s rest k hx hp => ?enableType,
    fun s rest hx hp => ?enableGlobally, fun s t k hs hp h => ?setbitsEnable, fun s t hs h => ?setbitsStatus⟩
  case init => rw [step_env hx, Environment.act_init_uninitialized handler hp]
  case again => rw [step_env hx, Environment.act_init_initialized handler hp]
  case enableType =>
    refine ⟨_, _, by rw [step_env hx, Environment.act_enableType_initialized k hp], fun i hi => ?_, fun i hi => ?_⟩
    · rw [BitVec.getLsbD_or, k.getLsbD_bit hi]
    · by_cases hk : k = .vblank
      · simp [hk, getLsbD_vblankStatusBit hi]
      · simp [hk]
  case enableGlobally =>
    refine ⟨_, by rw [step_env hx, Environment.act_enableGlobally_initialized hp], fun i hi => ?_⟩
    rw [BitVec.getLsbD_or, getLsbD_masterBit hi]
  case setbitsEnable =>
    obtain ⟨t', old, keep, ht', -, henv⟩ := exec_setbits_ext hs (sel := 0x0211) rfl 1 1 (BitVec.ofNat 16 k.index)
    obtain rfl := Host.Outcome.next.inj (ht'.symm.trans h)
    have henabled : t'.env.enabled = s.env.enabled ||| bf old 1 1 k.index := by
      rw [henv, k.toNat_index]
      exact Environment.enabled_extWrite_initialized hp _ keep
    simp only [henabled, inMask_or, inMask_bf]
    exact ⟨by simp, fun k' hk' => by simp [hk']⟩
  case setbitsStatus =>
    obtain ⟨t', old, keep, ht', -, henv⟩ := exec_setbits_ext hs (sel := 0x0210) rfl 1 1 3
    obtain rfl := Host.Outcome.next.inj (ht'.symm.trans h)
    have hset : (bf old 1 1 3).getLsbD 3 = true := getLsbD_bf_one old (by decide)
    rw [Environment.vblankRaised_eq, henv]
    show (bf old 1 1 3 ||| (s.env.displayStatus &&& keep)).getLsbD 3 = true
    rw [BitVec.getLsbD_or, hset, Bool.true_or]

/-- Settles O57: the early calls, the wait with vblank not enabled and the early writes hang, and a hang stays. -/
theorem skippedInitHangs : Obligations.SkippedInitHangs := by
  refine ⟨fun s rest hp hx => ?calls, fun s rest hx hoff => ?wait, fun s k hs hp i hi => ?writes, fun _ _ => hung_of_step⟩
  case calls =>
    obtain ⟨k, hx⟩ | hx | hx := hx
    · rw [step_env hx, Environment.act_early hp (.inl ⟨k, rfl⟩), Environment.hang]
    · rw [step_env hx, Environment.act_early hp (.inr (.inl rfl)), Environment.hang]
    · rw [step_env hx, Environment.act_early hp (.inr (.inr rfl)), Environment.hang]
  case wait =>
    rw [step_env hx, Environment.act_wait_not_enabled (Environment.vblankEnabled_eq_false.mpr hoff), Environment.hang]
  case writes =>
    obtain ⟨t, reg, v, keep, ht, hok, henv, hearly⟩ := exec_enablingCommand hs hi
    exact ⟨t, ht, hok, henv.trans (Environment.extWrite_early hp hearly keep)⟩

/-- Settles O58: a delivery starts the routine or does nothing, its end acknowledges and mirrors what it read, and kinds other
than vblank reach no block. -/
theorem dispatchAcknowledgesTheFiredKinds : Obligations.DispatchAcknowledgesTheFiredKinds := by
  refine ⟨fun s t fired => block_kept_ignoring, fun s rest => ⟨fun hx => ⟨fun h => ?ignored, fun h hm hp hr => ?starts⟩,
    fun fired hx hr => ?returns⟩⟩
  case ignored =>
    rw [step_env hx, Environment.act_dispatch_ignored (h.imp_left Environment.fired_eq_zero_iff.mpr)]
  case starts =>
    obtain ⟨i, hi⟩ := h
    have hfired : s.env.fired ≠ 0 := fun hzero => nomatch hi.symm.trans (Environment.fired_eq_zero_iff.mp hzero i)
    exact ⟨_, by rw [step_env hx, Environment.act_dispatch_starts hfired hm hp hr], fun _ => Environment.getLsbD_fired _⟩
  case returns =>
    refine ⟨_, _, _, _, by rw [step_env hx, Environment.act, Environment.dispatchReturn_some _ hr], fun i => ?_,
      fun i => BitVec.getLsbD_or, fun hkept => ?_⟩
    · rw [BitVec.getLsbD_and, BitVec.getLsbD_not]
      by_cases hi : i < 16
      · simp [hi]
      · simp [BitVec.getLsbD_of_ge _ i (Nat.not_lt.mp hi)]
    · have hwake : ¬ (s.env.flow = .waiting ∧ inMask fired .vblank = true) := by
        rintro ⟨hf, hv⟩
        exact hkept.elim (fun h => h hf) fun h => nomatch h.symm.trans hv
      exact ⟨if_neg hwake, if_neg hwake⟩

end Sys2Proof.Machine
end

section
/-! PROOFS. The reset (R180, R25): the state it takes, between two commands and inside one, and the record of a command it
cuts short. -/

namespace Sys2Proof.Machine

open Sys2Proof

variable {s t : State}

/-! ### The state a reset takes (R25) -/

/-- The reset state has the reset values, whatever inputs and record are kept (R25, log entry 19). -/
theorem resetValues_afterReset (draw : Nat) (inputs : List Input) (trace : List Event) :
    Claims.ResetValues { State.afterReset draw with inputs := inputs, trace := trace } draw where
  shadow i := Vector.getElem_replicate i.isLt
  halt := rfl
  dispcnt := rfl
  bgcnt n := Vector.getElem_ofFn n.isLt
  memory _ := rfl
  phase := rfl
  enabled := rfl

/-- Settles O10: the step asserts the reset, whose values are those of the next free draw. -/
theorem resetRestoresTheResetState : Obligations.ResetRestoresTheResetState := fun _ _ hx =>
  ⟨_, _, step_input hx, resetValues_afterReset _ _ _, rfl, rfl⟩

/-! ### A command cut short (R180) -/

/-- A word presented leaves the pending inputs (R49). -/
theorem runWord_inputs {w : CommandWord} (h : runWord w s = .next t) : t.inputs = s.inputs := by
  have hkept : t = t.setInputs s.inputs := Host.Outcome.next.inj (h.symm.trans (runWord_setInputs s.inputs h))
  rw [hkept, State.setInputs_inputs]

/-- Every word presented answers: as the command it decodes to does, or with a refusal (R64, R65). -/
theorem runWord_answers (w : CommandWord) (s : State) : ∃ t status, runWord w s = .next t ∧ Answers s t status := by
  obtain ⟨i, -, hrun⟩ | ⟨_, -, hrun⟩ := runWord_cases w s
  · rw [hrun]
    exact exec_answers i s
  · cases hs : s.halt with
    | true => exact ⟨_, _, hrun.trans (State.rejectWord_halted hs), .of_trace rfl⟩
    | false => exact ⟨_, _, hrun.trans (State.rejectWord_running hs), .of_trace rfl⟩

/-- A step with a command cut short next drops it, whether the main flow or the dispatch routine presents it (R180, R165). -/
theorem step_cut {w : CommandWord} {n : Nat} {rest : List Input}
    (hx : s.nextInput = some (.commandCut w n, rest) ∨ s.nextInput = some (.handlerCommandCut w n, rest)) :
    step s = runWordCut w n (s.setInputs rest) := hx.elim step_input step_input

/-- Settles O11: the uncut run answers, and of its accesses the cut keeps the first `n` under the reset. -/
theorem resetInsideACommandDropsIt : Obligations.ResetInsideACommandDropsIt := by
  intro s w n rest hx
  obtain ⟨u, status, hu, accesses, result, htrace, -⟩ := runWord_answers w (s.setInputs rest)
  have hstep := (step_cut hx).trans (runWordCut_eq hu)
  rw [cutShort_eq htrace n] at hstep
  exact ⟨u, _, u.draws, status, result, accesses, _, hu, htrace, hstep, resetValues_afterReset _ _ _, runWord_inputs hu,
    rfl, List.take_reverse.symm⟩

end Sys2Proof.Machine
end

section
/-! PROOFS. The encoding read in both directions (R60 to R63, D4): a command is the one its word decodes to, and a word
that decodes is the one its command encodes to. -/

namespace Sys2Proof

open Sys2Proof.Machine

/-- Settles O1: format by format, a packed word decodes to the command it is packed from. -/
theorem decodingAnEncodedCommandGivesItBack : Obligations.DecodingAnEncodedCommandGivesItBack := decode_encode

/-- Settles O4: each word is the encoding of its command. -/
theorem wordsWrittenFromTheEncodingDecode : Obligations.WordsWrittenFromTheEncodingDecode := by
  and_intros
  all_goals exact decode_of_encode rfl

/-! ### A word that a format reads is its command's encoding (R61, R63 step 3)

The operands are the fields read, and the reserved fields are zero. -/

section WordsOfAFormat

variable {w : CommandWord} {op : Word} {j : Instr} (hop : fieldOp w = op)
include hop

theorem pack_of_fields {p q r s : Word} (hp : fieldP w = p) (hq : fieldQ w = q) (hr : fieldR w = r)
    (hs : fieldS w = s) : pack op p q r s = w := by
  subst hop hp hq hr hs
  exact pack_fields w

theorem encode_of_formatF0 {i : Instr} (hi : encode i = pack op 0 0 0 0) (h : formatF0 w i = .ok j) : encode j = w := by
  obtain ⟨⟨hp, hq, hr, hs⟩, rfl⟩ := formatF0_eq_ok.mp h
  exact hi.trans (pack_of_fields hop hp hq hr hs)

theorem encode_of_formatF1 {f : Word → Instr} (hf : ∀ p, encode (f p) = pack op p 0 0 0) (h : formatF1 w f = .ok j) :
    encode j = w := by
  obtain ⟨⟨hq, hr, hs⟩, rfl⟩ := formatF1_eq_ok.mp h
  exact (hf _).trans (pack_of_fields hop rfl hq hr hs)

theorem encode_of_formatF2 {f : Word → Word → Instr} (hf : ∀ p q, encode (f p q) = pack op p q 0 0)
    (h : formatF2 w f = .ok j) : encode j = w := by
  obtain ⟨⟨hr, hs⟩, rfl⟩ := formatF2_eq_ok.mp h
  exact (hf _ _).trans (pack_of_fields hop rfl rfl hr hs)

theorem encode_of_formatF3 {f : Word → Word → Word → Instr} (hf : ∀ p q r, encode (f p q r) = pack op p q r 0)
    (h : formatF3 w f = .ok j) : encode j = w := by
  obtain ⟨hs, rfl⟩ := formatF3_eq_ok.mp h
  exact (hf _ _ _).trans (pack_of_fields hop rfl rfl rfl hs)

theorem encode_of_formatF4 {f : Word → Word → Word → Word → Instr}
    (hf : ∀ p q r s, encode (f p q r s) = pack op p q r s) (h : formatF4 w f = .ok j) : encode j = w := by
  obtain rfl := formatF4_eq_ok.mp h
  exact (hf _ _ _ _).trans (pack_of_fields hop rfl rfl rfl rfl)

end WordsOfAFormat

/-- A word that an opcode number reads as a command is the command's encoding (R62). The cases are the rows of the opcode
map in its order. -/
theorem encode_of_decodeOpcode {w : CommandWord} {n : Nat} {i : Instr} (hop : fieldOp w = BitVec.ofNat 16 n)
    (h : decodeOpcode w n = .ok i) : encode i = w := by
  unfold decodeOpcode at h
  split at h
  case h_30 => exact encode_of_formatF0 hop rfl h
  case h_2 | h_4 => exact encode_of_formatF1 hop (fun _ => rfl) h
  case h_11 | h_14 | h_16 | h_29 => exact encode_of_formatF3 hop (fun _ _ _ => rfl) h
  case h_1 | h_13 | h_15 => exact encode_of_formatF4 hop (fun _ _ _ _ => rfl) h
  case h_31 => cases h
  all_goals exact encode_of_formatF2 hop (fun _ _ => rfl) h

/-- Settles O2: a word that decodes is read by the format of its opcode. -/
theorem encodingADecodedWordGivesItBack : Obligations.EncodingADecodedWordGivesItBack := by
  intro w i h
  rw [decode_eq] at h
  split at h
  · exact encode_of_decodeOpcode (BitVec.eq_of_toNat_eq (by simp)) h
  · cases h

end Sys2Proof
end

section
/-! PROOFS. The invariant of the machine (R21, R25, R40, R64, R150, R151, R159 to R164, R180): the reset state meets it,
and every operation of the block, every command word and every step keeps it. -/

namespace Sys2Proof.Machine

open Sys2Proof

variable {s t : State}

/-! ### The reset state (R25) -/

/-- A memory that lists nothing is sound. -/
theorem MemoryOk.nil : MemoryOk [] := ⟨.nil, nofun, fun _ => rfl⟩

/-- The state a reset takes meets the invariant, whatever the draw and the pending inputs, where the responses it keeps
in the record do (R25, R180, log entry 19). -/
theorem inv_afterReset (draw : Nat) (inputs : List Input) {trace : List Event}
    (hr : ∀ status result, .respond status result ∈ trace → status ≠ .ok → result = 0)
    (ha : abortedSinceReset trace = false) :
    State.Inv { State.afterReset draw with inputs := inputs, trace := trace } where
  memory := .nil
  environment := .afterReset draw
  halted := ha.symm
  results := hr
  drawn := Nat.lt_succ_self draw

/-- Settles O24: the record of the reset state is empty. -/
theorem resetMeetsTheInvariantOfTheMachine : Obligations.ResetMeetsTheInvariantOfTheMachine :=
  inv_afterReset 0 [] nofun rfl

/-- Settles O12: the reset state is that of the draw 0, with no inputs and an empty record. -/
theorem resetLeavesTheShadowZero : Obligations.ResetLeavesTheShadowZero := resetValues_afterReset 0 [] []

/-! ### The record (R44, R64) -/

/-- Accesses are no `ABORTED` and no reset. -/
theorem abortedSinceReset_accesses {accesses : List Event} (h : ∀ e ∈ accesses, Claims.isAccess e = true)
    (trace : List Event) : abortedSinceReset (accesses ++ trace) = abortedSinceReset trace := by
  induction accesses with
  | nil => rfl
  | cons e accesses ih =>
    obtain ⟨he, hrest⟩ := List.forall_mem_cons.mp h
    rw [← ih hrest]
    cases e with
    | cellRead | cellWrite | portWrite => rfl
    | respond | reset => cases he

/-- Accesses are no responses. -/
theorem respond_mem_of_accesses {accesses trace : List Event} (h : ∀ e ∈ accesses, Claims.isAccess e = true)
    {status : Status} {result : Wide} (hm : .respond status result ∈ accesses ++ trace) :
    .respond status result ∈ trace :=
  (List.mem_append.mp hm).resolve_left fun hacc => nomatch h _ hacc

/-! ### The operations of the block -/

namespace State.Inv

/-- A response that is no first `ABORTED`, and has the result 0 unless it is `OK`, keeps the invariant (R64, R150). -/
theorem respond (h : s.Inv) {status : Status} {result : Wide} (hr : status ≠ .ok → result = 0)
    (ha : status = .aborted → s.halt = true) : (s.respond status result).Inv where
  memory := h.memory
  environment := h.environment
  halted := by
    cases status with
    | aborted => exact ha rfl
    | ok | rejected | illegal => exact h.halted
  results status' result' hm := by
    obtain heq | hm := List.mem_cons.mp hm
    · cases heq
      exact hr
    · exact h.results status' result' hm
  drawn := h.drawn

theorem ok (h : s.Inv) (result : Wide) : (s.respond .ok result).Inv := h.respond (fun hne => absurd rfl hne) nofun

/-- The abort sets `HALT` and answers `ABORTED` (R151). -/
theorem sizeAbort (h : s.Inv) : (s.raise .sizeAbort).Inv where
  memory := h.memory
  environment := h.environment
  halted := rfl
  results status result hm := by
    obtain heq | hm := List.mem_cons.mp hm
    · cases heq
      exact fun _ => rfl
    · exact h.results status result hm
  drawn := h.drawn

/-- A change that records accesses only, leaves `HALT` and the reset's draw and takes back no draw keeps the invariant,
where the memory and the environment stay sound. -/
theorem of_accesses (h : s.Inv) (ht : OnlyAccesses s t) (hm : MemoryOk t.mem) (he : EnvironmentOk t.env)
    (hh : t.halt = s.halt) (hr : t.resetDraw = s.resetDraw) (hd : s.draws ≤ t.draws) : t.Inv := by
  obtain ⟨accesses, htrace, hacc⟩ := ht
  refine ⟨hm, he, ?halted, fun status result hmem => ?results, ?drawn⟩
  case halted => rw [hh, htrace, abortedSinceReset_accesses hacc, h.halted]
  case results =>
    rw [htrace] at hmem
    exact h.results status result (respond_mem_of_accesses hacc hmem)
  case drawn =>
    rw [hr]
    exact Nat.lt_of_lt_of_le h.drawn hd

theorem afterRead (h : s.Inv) (c : Cell) : (s.afterRead c).Inv :=
  h.of_accesses (.afterRead s c) (by simpa using h.memory) (by simpa using h.environment) (afterRead_halt c)
    (afterRead_resetDraw c) (by cases c <;> simp [afterRead_eq])

theorem cellWrite (h : s.Inv) (c : Cell) (v : Word) : (s.cellWrite c v).Inv :=
  h.of_accesses (.cellWrite s c v) (by simpa using h.memory) (cellWrite_envOk h.environment c v) (cellWrite_halt c v)
    (cellWrite_resetDraw c v) (by cases c <;> simp [cellWrite_draws])

theorem insertField (h : s.Inv) (c : Cell) (v : Word) (width shift : Nat) : (s.insertField c v width shift).Inv :=
  (h.afterRead c).cellWrite c _

theorem mapWrite (h : s.Inv) (i : Nat) (v : Word) : (s.mapWrite params i v).Inv :=
  h.of_accesses (.mapWrite s i v) (h.memory.mapWrite i v) (by simpa only [mapWrite_eq] using h.environment)
    (mapWrite_halt s i v) (by rw [mapWrite_eq]) (by rw [mapWrite_eq])

theorem copyShadow (h : s.Inv) : (s.copyShadow params).Inv :=
  h.of_accesses (.copyShadow s) (by simpa only [copyShadow_eq] using h.memory.copyInOrder _ _)
    (by simpa only [copyShadow_eq] using h.environment.duringCommit _) (copyShadow_halt s) (by rw [copyShadow_eq])
    (by rw [copyShadow_eq]; exact Nat.le_succ _)

theorem setInputs (h : s.Inv) (l : List Input) : (s.setInputs l).Inv :=
  ⟨h.memory, h.environment, h.halted, h.results, h.drawn⟩

theorem setEnv (h : s.Inv) {e : Environment} (he : EnvironmentOk e) : (s.setEnv e).Inv :=
  ⟨h.memory, he, h.halted, h.results, h.drawn⟩

/-! ### The commands -/

/-- RBLK answers, or aborts (R104, R151). -/
theorem rblkRun (h : s.Inv) (size x y : Word) : (rblkRun params size x y s).Inv := by
  unfold Machine.rblkRun
  split
  · exact h.ok _
  · exact h.sizeAbort

/-- Every command keeps the invariant: it is made of operations that do. -/
theorem exec {i : Instr} (h : s.Inv) (hx : exec i s = .next t) : t.Inv :=
  exec_rel (R := fun _ t => t.Inv) s
    (halted := fun hs => h.respond (fun _ => rfl) fun _ => hs)
    (illegal := fun _ => h.respond (fun _ => rfl) nofun)
    (setbits := fun v w sh c _ => (h.insertField c v w.toNat sh.toNat).ok 0)
    (rdcell := fun c _ => (h.afterRead c).ok _)
    (wrcell := fun v c _ => (h.cellWrite c v).ok 0)
    (dispset := fun v _ => (h.cellWrite .dispcnt v).ok 0)
    (bg := fun f v n _ => (h.insertField (.bgcnt n) v f.width f.shift).ok 0)
    (rejected := fun _ => h.respond (fun _ => rfl) nofun)
    (rblk := fun size x y _ => h.rblkRun size x y)
    (roff := fun _ _ _ => h.ok _)
    (encse := fun _ _ _ _ _ => h.ok _)
    (taddr := fun _ _ n _ => (h.afterRead (.bgcnt n)).ok _)
    (mapwr := fun _ _ entry n _ => ((h.afterRead (.bgcnt n)).mapWrite _ entry).ok 0)
    (objpos := fun _ _ e _ =>
      ((h.insertField (.shadow (attrWord e 0)) _ _ _).insertField (.shadow (attrWord e 1)) _ _ _).ok 0)
    (objset := fun w f v e _ => (h.insertField (.shadow (attrWord e w)) v f.width f.shift).ok 0)
    (affset := fun v i _ => (h.cellWrite (.shadow i) v).ok 0)
    (commit := fun _ => h.copyShadow.ok 0) i hx

/-- Every command word keeps it, also one that is no command (R63). -/
theorem runWord {w : CommandWord} (h : s.Inv) (hx : runWord w s = .next t) : t.Inv := by
  obtain ⟨i, -, hrun⟩ | ⟨_, -, hrun⟩ := runWord_cases w s
  · rw [hrun] at hx
    exact h.exec hx
  · rw [hrun, rejectWord_eq] at hx
    obtain ⟨hs, rfl⟩ | ⟨-, rfl⟩ := start_eq_next hx
    · exact h.respond (fun _ => rfl) fun _ => hs
    · exact h.respond (fun _ => rfl) nofun

/-! ### The reset (R180) -/

theorem assertReset (h : s.Inv) : s.assertReset.Inv :=
  inv_afterReset s.draws s.inputs
    (fun status result hm => h.results status result ((List.mem_cons.mp hm).resolve_left nofun)) rfl

/-- A command cut short leaves in the record accesses and the reset only (R180). -/
theorem runWordCut {w : CommandWord} {n : Nat} (h : s.Inv) (hx : runWordCut w n s = .next t) : t.Inv := by
  obtain ⟨u, status, hu, accesses, result, htrace, hacc, -⟩ := runWord_answers w s
  rw [runWordCut_eq hu, cutShort_eq htrace n] at hx
  obtain rfl := Host.Outcome.next.inj hx
  refine inv_afterReset u.draws u.inputs (fun status result hm => ?_) rfl
  exact h.results status result (respond_mem_of_accesses (fun e he => hacc e (List.mem_of_mem_drop he))
    ((List.mem_cons.mp hm).resolve_left nofun))

/-! ### The step -/

/-- Every input from outside keeps the invariant. -/
theorem takeInput {x : Input} (h : s.Inv) (hx : takeInput x s = .next t) : t.Inv := by
  cases x with
  | command | handlerCommand => exact h.runWord hx
  | commandCut | handlerCommandCut => exact h.runWordCut hx
  | reset =>
    obtain rfl := Host.Outcome.next.inj hx
    exact h.assertReset
  | env a =>
    obtain rfl := Host.Outcome.next.inj hx
    exact h.setEnv (h.environment.act a)

end State.Inv

/-- Settles O23: a step takes no input or one, and every input keeps the invariant. -/
theorem everyStepKeepsTheInvariantOfTheMachine : Obligations.EveryStepKeepsTheInvariantOfTheMachine := by
  intro s t h hstep
  obtain hx | ⟨⟨x, rest⟩, hx⟩ := Option.eq_none_or_eq_some s.nextInput
  · obtain rfl := Host.Outcome.next.inj ((step_idle hx).symm.trans hstep)
    exact h
  · exact (h.setInputs rest).takeInput ((step_input hx).symm.trans hstep)

/-- Settles O8: with no input pending none can come. -/
theorem idleStepChangesNothing : Obligations.IdleStepChangesNothing := fun _ hs => step_idle (State.nextInput_nil hs)

end Sys2Proof.Machine
end

section
/-! PROOFS. The packed fields at their default positions (R12, R15, R20, log entry 2): the screen entry, the unchecked
screen-base setter, and the flip flags inside the affine index. -/

namespace Sys2Proof.Machine

open Sys2Proof

/-! ### The screen entry (R103, R106, R111) -/

/-- A value masked to a field inside the word keeps its number when put in place (R84). -/
theorem toNat_fieldValue {width shift : Nat} (hfit : shift + width ≤ 16) (value : Word) :
    (fieldValue value width shift).toNat = 2 ^ shift * (value.toNat % 2 ^ width) := by
  have hlt : 2 ^ shift * (value.toNat % 2 ^ width) < 2 ^ 16 :=
    calc 2 ^ shift * (value.toNat % 2 ^ width) < 2 ^ shift * 2 ^ width :=
          Nat.mul_lt_mul_of_pos_left (Nat.mod_lt _ (Nat.two_pow_pos _)) (Nat.two_pow_pos _)
      _ = 2 ^ (shift + width) := (Nat.pow_add ..).symm
      _ ≤ 2 ^ 16 := Nat.pow_le_pow_right (by decide) hfit
  rw [fieldValue, BitVec.toNat_ofNat, Nat.min_eq_left (by omega), Nat.shiftLeft_eq, Nat.mul_comm, Nat.mod_eq_of_lt hlt]

/-- A value put in place above every bit of a word adds to it. -/
theorem toNat_or_fieldValue {a : Word} {width shift : Nat} (ha : a.toNat < 2 ^ shift) (hfit : shift + width ≤ 16)
    (value : Word) : (a ||| fieldValue value width shift).toNat = a.toNat + 2 ^ shift * (value.toNat % 2 ^ width) := by
  rw [BitVec.toNat_or, toNat_fieldValue hfit, Nat.or_comm, ← Nat.two_pow_add_eq_or_of_lt ha, Nat.add_comm]

/-- In the default layout each argument of ENCSE stands above the one before it (R20, R103). -/
theorem toNat_enc (t h v b : Word) :
    (enc params t h v b).toNat =
      t.toNat % 1024 + 1024 * (h.toNat % 2) + 2048 * (v.toNat % 2) + 4096 * (b.toNat % 16) := by
  have htile := toNat_fieldValue (width := 10) (shift := 0) (by decide) t
  have hhflip := toNat_or_fieldValue (a := fieldValue t 10 0) (width := 1) (shift := 10) (by omega) (by decide) h
  have hvflip := toNat_or_fieldValue (a := fieldValue t 10 0 ||| fieldValue h 1 10) (width := 1) (shift := 11)
    (by omega) (by decide) v
  have hpalbank := toNat_or_fieldValue (a := fieldValue t 10 0 ||| fieldValue h 1 10 ||| fieldValue v 1 11) (width := 4)
    (shift := 12) (by omega) (by decide) b
  simp only [enc, params, defaultLayout]
  omega

/-- Settles O37: the answer is the screen-entry word. -/
theorem encseAnswersTheScreenEntry : Obligations.EncseAnswersTheScreenEntry := by
  intro t h v b s hs
  refine ⟨(enc params t h v b).setWidth 32, ?_, (exec_encse t h v b s).trans (State.start_running hs _)⟩
  rw [BitVec.toNat_setWidth_of_le (by decide), toNat_enc]

/-- Settles O38: each field is a digit of the word's number, which is the sum of the masked inputs in place. -/
theorem screenEntryFieldsReadBack : Obligations.ScreenEntryFieldsReadBack := by
  intro t h v b
  simp only [getField, toNat_enc]
  simp only [params, defaultLayout]
  omega

/-! ### The unchecked screen-base setter (R96, R97) -/

/-- On a value in its range the checked setter does what the unchecked one does, also where the block is halted or the
operand selects no background. -/
theorem exec_bgsbbu_eq_exec_bgsbb {value : Word} (hv : value.toNat ≤ 31) (bg : Word) (s : State) :
    exec (.bgsbbu bg value) s = exec (.bgsbb bg value) s := by
  have hrun : bgsbbRun params value = bgField params.layout.bgcnt.sbb value := by
    funext n s
    exact if_neg (Nat.not_lt.mpr hv)
  rw [exec_bgsbbu, exec_bgsbb, hrun]

/-- Settles O34: the insert stores the value modulo the field and leaves the size field, which lies apart. -/
theorem uncheckedScreenBaseSetterMasks : Obligations.UncheckedScreenBaseSetterMasks := by
  refine fun bg value s => ⟨fun hv => exec_bgsbbu_eq_exec_bgsbb hv bg s, fun n t hs hn h => ?_⟩
  have hp : (.bgsbbu bg value, params.layout.bgcnt.sbb) ∈ bgSetters params.layout bg value := by simp [bgSetters]
  obtain ⟨new, hins, hexec⟩ := exec_bgSetter_inserts hp hs hn
  change FieldInserted params.layout.bgcnt.sbb _ _ _ at hins
  obtain rfl := Host.Outcome.next.inj (hexec.symm.trans h)
  have hnew : (Claims.bgcntUpdated s n new).bgcnt[n] = new := Vector.getElem_set_self _
  rw [hnew]
  exact ⟨getField_of_inserted (by decide) hins, getField_of_inserted_apart (by decide) (by decide) hins⟩

/-! ### The flip flags and the affine index (R128 to R130) -/

/-- Bit `k` of an inserted value stands `k` above the foot of the field (R85). -/
theorem bit_of_inserted {f : Field} {old value new : Word} (h : FieldInserted f old value new) {k : Nat}
    (hk : k < f.width) (hf : f.shift + k < 16) : new.toNat / 2 ^ (f.shift + k) % 2 = value.toNat / 2 ^ k % 2 := by
  have hbit : new.getLsbD (f.shift + k) = value.getLsbD k := by
    rw [h _ hf, if_pos (by omega), Nat.add_sub_cancel_left]
  rw [← Nat.toNat_testBit, ← Nat.toNat_testBit]
  exact congrArg Bool.toNat hbit

/-- A setter of attr1 leaves in it the word with its operand inserted. -/
theorem attr1_of_objSetter {idx value : Word} {i : Instr} {f : Field} {s t : State} {e : Fin 128}
    (hi : (i, 1, f) ∈ objSetters params.layout idx value) (hs : s.halt = false) (he : idx.toNat = e.val)
    (h : exec i s = .next t) : FieldInserted f s.shadow[attrWord e 1] value t.shadow[attrWord e 1] := by
  obtain ⟨new, hins, hexec⟩ := exec_objSetter_inserts hi hs he
  obtain rfl := Host.Outcome.next.inj (hexec.symm.trans h)
  have hnew : (Claims.shadowUpdated s (attrWord e 1) new).shadow[attrWord e 1] = new := Vector.getElem_set_self _
  rw [hnew]
  exact hins

/-- Settles O45: bits 12 and 13 of attr1 are the flip flags and bits 3 and 4 of the affine index, whose foot is bit
9. -/
theorem flipFlagsOverlapTheAffineIndex : Obligations.FlipFlagsOverlapTheAffineIndex := by
  refine fun idx value s t e hs he => ⟨fun h => ?affidx, fun h => ?hflip, fun h => ?vflip⟩
  case affidx =>
    have hins := attr1_of_objSetter (value := value) (f := params.layout.attr1.affidx) (by simp [objSetters]) hs he h
    exact ⟨bit_of_inserted hins (k := 3) (by decide) (by decide), bit_of_inserted hins (k := 4) (by decide) (by decide)⟩
  case hflip =>
    have hins := attr1_of_objSetter (value := value) (f := params.layout.attr1.hflip) (by simp [objSetters]) hs he h
    have hbit := bit_of_inserted hins (k := 0) (by decide) (by decide)
    simp only [getField, params, defaultLayout] at hbit ⊢
    omega
  case vflip =>
    have hins := attr1_of_objSetter (value := value) (f := params.layout.attr1.vflip) (by simp [objSetters]) hs he h
    have hbit := bit_of_inserted hins (k := 0) (by decide) (by decide)
    simp only [getField, params, defaultLayout] at hbit ⊢
    omega

end Sys2Proof.Machine
end

section
/-! PROOFS. Frames (R40, R49, R109): what a command that stores nothing in memory leaves, and what MAPWR leaves. -/

namespace Sys2Proof.Machine

open Sys2Proof

variable {s t : State}

/-- Memory holds the same bytes where nothing was written and no reset came (R25). -/
theorem byteAt_eq_of_same (hm : t.mem = s.mem) (hr : t.resetDraw = s.resetDraw) (a : Nat) :
    t.byteAt a = s.byteAt a := by
  rw [State.byteAt, State.byteAt, hm, hr]

/-- A command leaves the pending inputs (R49). -/
theorem exec_inputs {i : Instr} (h : exec i s = .next t) : t.inputs = s.inputs := by
  have hkept : t = t.setInputs s.inputs := Host.Outcome.next.inj (h.symm.trans (exec_setInputs s.inputs h))
  rw [hkept, State.setInputs_inputs]

/-- The commands that write the memory are MAPWR and COMMIT (R40). -/
theorem writes_memory {i : Instr} (h : .memory ∈ instrSpaces i) :
    (∃ bg x y entry, i = .mapwr bg x y entry) ∨ i = .commit := by
  cases i
  case mapwr bg x y entry => exact .inl ⟨bg, x, y, entry, rfl⟩
  case commit => exact .inr rfl
  all_goals simp [instrSpaces] at h

/-- Settles O52: the environment changes by an external write or during a COMMIT only, the memory by its two writers. -/
theorem commandsThatStoreNothingKeepMemory : Obligations.CommandsThatStoreNothingKeepMemory := by
  intro i s t h
  refine ⟨exec_inputs h, fun hwrite hcommit => ?environment, fun hmapwr hcommit => ?memory⟩
  case environment =>
    obtain ⟨-, hkept, -⟩ := commandsDoNotSeeTheEnvironment i s t s.env h
    exact hkept hwrite hcommit
  case memory =>
    have hmem : t.mem = s.mem := exec_keepsAllBut h .memory fun hm => by
      obtain ⟨bg, x, y, entry, hi⟩ | hi := writes_memory hm
      · exact hmapwr bg x y entry hi
      · exact hcommit hi
    obtain ⟨-, -, -, hdraw⟩ := freeValuesAreUsedOnlyWhereTheSpecHasThem i s t h
    exact byteAt_eq_of_same hmem hdraw

/-- Settles O53: MAPWR changes the record and, inside the tile map, the two bytes of its word; on a halted block the record
alone. -/
theorem mapwrKeepsEverythingElse : Obligations.MapwrKeepsEverythingElse := by
  intro bg x y entry s t n h hn
  cases hs : s.halt with
  | true =>
    obtain rfl := Host.Outcome.next.inj ((exec_halted _ hs).symm.trans h)
    exact ⟨rfl, rfl, rfl, hs, rfl, rfl, rfl, fun _ _ _ => rfl⟩
  | false =>
    rw [← execWith_params, execWith_mapwr hs hn] at h
    obtain rfl := Host.Outcome.next.inj h
    refine ⟨rfl, rfl, rfl, hs, rfl, rfl, rfl, fun a hlow hhigh => ?_⟩
    simp only [State.byteAt]
    split
    · rw [Memory.readByte_writeWord, if_neg hlow, if_neg hhigh]
    · rfl

end Sys2Proof.Machine
end
